-- ==== Sys2Proof/Config.lean ====
section
/-!
DEFINITION. The implementation parameters of the block (00_scope.md R8) and their values for this hardware.
The block of Machine/Block.lean takes them as an argument. The types of Word.lean have the widths of this hardware, which are
those of `Params.hfc` (Laws/Params.lean).
-/

namespace Sys2Proof

/-- The parameters of 00_scope.md R8, one field per row of its table, in its order. -/
structure Params where
  nMax     : Nat
  idxW     : Nat
  cntW     : Nat
  nodeMax  : Nat
  nodeW    : Nat
  symW     : Nat
  wgtW     : Nat
  wsumW    : Nat
  cwW      : Nat
  lenW     : Nat
  payW     : Nat
  maxDepth : Nat
  opcW     : Nat
  argW     : Nat
  stW      : Nat
  dataW    : Nat
  nEnc     : Nat
  nDec     : Nat
deriving DecidableEq, Repr

/-- The column "this hardware" of 00_scope.md R8. -/
def Params.hfc : Params where
  nMax     := 256
  idxW     := 8
  cntW     := 9
  nodeMax  := 511
  nodeW    := 9
  symW     := 8
  wgtW     := 32
  wsumW    := 40
  cwW      := 64
  lenW     := 7
  payW     := 57
  maxDepth := 57
  opcW     := 8
  argW     := 32
  stW      := 8
  dataW    := 64
  nEnc     := 1
  nDec     := 1

end Sys2Proof
end

