-- ==== Sys2Proof/Word.lean ====
section
/-!
DEFINITION. The word types of the block: one abbreviation per kind of word the spec names, at the widths of
00_scope.md R8. All are unsigned (R9).
-/

namespace Sys2Proof

/-- An opcode field, `OPC_W` bits (R90). -/
abbrev Opcode := BitVec 8
/-- An operand field, `ARG_W` bits (R90). -/
abbrev Arg := BitVec 32
/-- A request word: `opc` in bits 39 to 32, `arg` in bits 31 to 0 (R90). -/
abbrev Request := BitVec 40
/-- The data field of a response, `DATA_W` bits (R91). -/
abbrev Data := BitVec 64
/-- A symbol, `SYM_W` bits (R8). -/
abbrev Sym := BitVec 8
/-- A weight as loaded, `WGT_W` bits (R8). -/
abbrev Weight := BitVec 32
/-- The weight of a tree node, `WSUM_W` bits (R8). -/
abbrev NodeWeight := BitVec 40
/-- An alphabet index, `IDX_W` bits (R8). -/
abbrev AlphaIdx := BitVec 8
/-- A node index, `NODE_W` bits (R8). -/
abbrev NodeIdx := BitVec 9
/-- A count from 0 to `NMAX`, `CNT_W` bits (R8). -/
abbrev Count := BitVec 9
/-- The payload field of a packed codeword, `PAY_W` bits (R8). -/
abbrev Payload := BitVec 57
/-- The length field of a packed codeword, `LEN_W` bits (R8). -/
abbrev CwLen := BitVec 7
/-- A packed codeword, `CW_W` bits (R92). -/
abbrev Codeword := BitVec 64

end Sys2Proof
end

