-- ==== Sys2Proof/Syntax.lean ====
section
/-!
DEFINITION. The 17 commands of the block (30_encoding.md R94), one constructor per row of spec/opcode_table.json.
An operand has exactly the `UW` bits its command uses (R97), so a term of `Instr` cannot carry an operand that R96
step 2 would refuse; what can be ill-formed is a raw request word (WellFormed.lean).
-/

namespace Sys2Proof

/-- The names of the 17 commands (R94), without operands. -/
inductive Mnemonic where
  | nop | clr | ldw | lda | build | stat
  | enc1 | eopen | epush | eend | epull
  | dopen | dpush | dend | dpull
  | rdn | rdc
deriving DecidableEq, Repr

/-- A command with its operand (R94, R97). -/
inductive Instr where
  /-- `NOP` (R260). -/
  | nop
  /-- `CLR` (R261). -/
  | clr
  /-- `LDW w`: append one weight (R150). -/
  | ldw (w : Weight)
  /-- `LDA s`: append one symbol (R151). -/
  | lda (a : Sym)
  /-- `BUILD` (R152). -/
  | build
  /-- `STAT r`: read status register `r`; numbers 8 to 15 are legal operands (R97, R262). -/
  | stat (r : BitVec 4)
  /-- `ENC1 s` (R201). -/
  | enc1 (a : Sym)
  /-- `EOPEN` (R202). -/
  | eopen
  /-- `EPUSH s` (R203). -/
  | epush (a : Sym)
  /-- `EEND` (R204). -/
  | eend
  /-- `EPULL` (R205). -/
  | epull
  /-- `DOPEN` (R230). -/
  | dopen
  /-- `DPUSH b` (R231). -/
  | dpush (b : BitVec 1)
  /-- `DEND` (R232). -/
  | dend
  /-- `DPULL` (R233). -/
  | dpull
  /-- `RDN k`: read node record `k` (R263). -/
  | rdn (k : NodeIdx)
  /-- `RDC i`: read code table entry `i` (R264). -/
  | rdc (c : AlphaIdx)
deriving DecidableEq, Repr

/-- The name of a command. -/
def Instr.mnemonic : Instr → Mnemonic
  | .nop => .nop
  | .clr => .clr
  | .ldw _ => .ldw
  | .lda _ => .lda
  | .build => .build
  | .stat _ => .stat
  | .enc1 _ => .enc1
  | .eopen => .eopen
  | .epush _ => .epush
  | .eend => .eend
  | .epull => .epull
  | .dopen => .dopen
  | .dpush _ => .dpush
  | .dend => .dend
  | .dpull => .dpull
  | .rdn _ => .rdn
  | .rdc _ => .rdc

end Sys2Proof
end

