-- ==== Sys2Proof/WellFormed.lean ====
section
/-!
DEFINITION. Well-formedness checks: of a raw request word (30_encoding.md R98, through the masks of
spec/opcode_table.json, independently of the decoder) and of a set of parameters (the constraints of 00_scope.md R8).
A term of `Instr` needs no check of its own: its operand has exactly the width the command uses.
-/

namespace Sys2Proof

/-- A row of spec/opcode_table.json: a request is this command iff `request &&& mask = pattern` (R98). -/
structure TableRow where
  mnemonic : Mnemonic
  pattern  : Request
  mask     : Request
deriving DecidableEq, Repr

/-- Whether a request matches a row (R98). -/
def TableRow.hits (row : TableRow) (r : Request) : Bool := r &&& row.mask == row.pattern

/-- The rows of spec/opcode_table.json, in its order. -/
def opcodeTable : List TableRow :=
  [ ⟨.nop,   0x0000000000, 0xFFFFFFFFFF⟩, ⟨.clr,   0x0100000000, 0xFFFFFFFFFF⟩,
    ⟨.ldw,   0x0200000000, 0xFF00000000⟩, ⟨.lda,   0x0300000000, 0xFFFFFFFF00⟩,
    ⟨.build, 0x0400000000, 0xFFFFFFFFFF⟩, ⟨.stat,  0x0500000000, 0xFFFFFFFFF0⟩,
    ⟨.enc1,  0x0800000000, 0xFFFFFFFF00⟩, ⟨.eopen, 0x0900000000, 0xFFFFFFFFFF⟩,
    ⟨.epush, 0x0A00000000, 0xFFFFFFFF00⟩, ⟨.eend,  0x0B00000000, 0xFFFFFFFFFF⟩,
    ⟨.epull, 0x0C00000000, 0xFFFFFFFFFF⟩, ⟨.dopen, 0x1000000000, 0xFFFFFFFFFF⟩,
    ⟨.dpush, 0x1100000000, 0xFFFFFFFFFE⟩, ⟨.dend,  0x1200000000, 0xFFFFFFFFFF⟩,
    ⟨.dpull, 0x1300000000, 0xFFFFFFFFFF⟩, ⟨.rdn,   0x1800000000, 0xFFFFFFFE00⟩,
    ⟨.rdc,   0x1900000000, 0xFFFFFFFF00⟩ ]

/-- A request word is well formed (legal) iff it matches a row of the table (R98). -/
def Request.wellFormed (r : Request) : Bool := opcodeTable.any (·.hits r)

/-- The constraints of 00_scope.md R8 on a set of parameters. `WSUM_W >= WGT_W + ceil(log2 NMAX)` is written
`NMAX * 2^WGT_W <= 2^WSUM_W`. -/
def Params.wellFormed (p : Params) : Bool :=
  decide (1 ≤ p.nMax) && decide (p.nMax ≤ 2 ^ p.idxW) && decide (p.nMax < 2 ^ p.cntW) &&
  decide (p.nodeMax = 2 * p.nMax - 1) && decide (p.nodeMax ≤ 2 ^ p.nodeW) &&
  decide (1 ≤ p.symW ∧ p.symW ≤ p.argW) && decide (1 ≤ p.wgtW ∧ p.wgtW ≤ p.argW) &&
  decide (p.nMax * 2 ^ p.wgtW ≤ 2 ^ p.wsumW) && decide (p.cwW = p.lenW + p.payW) &&
  decide (p.maxDepth < 2 ^ p.lenW) && decide (p.maxDepth = p.payW) && decide (p.cwW ≤ p.dataW)

end Sys2Proof
end

