-- ==== Sys2Proof/Decode.lean ====
section
/-!
DEFINITION. Decoding a request word (30_encoding.md R90, R94, R96 steps 1 and 2, R97) and the encoder. The decoder is
total on all 40-bit words and names what it rejects; both rejections are answered `ERR_ILLEGAL` (R98).
-/

namespace Sys2Proof

/-- `opc`, the `OPC_W` bits of a request above its `ARG_W` low bits (R90). -/
def opcField {reqW : Nat} (opcW argW : Nat) (r : BitVec reqW) : BitVec opcW := r.extractLsb' argW opcW

/-- `arg`, the `ARG_W` low bits of a request (R90). -/
def argField {reqW : Nat} (argW : Nat) (r : BitVec reqW) : BitVec argW := r.extractLsb' 0 argW

/-- `opc`, bits 39 to 32 of a request of this hardware. -/
def Request.opc (r : Request) : Opcode := opcField 8 32 r

/-- `arg`, bits 31 to 0 of a request of this hardware. -/
def Request.arg (r : Request) : Arg := argField 32 r

/-- The request word with the fields `opc` and `arg` (R90, R101). -/
def Request.make (opc : Opcode) (arg : Arg) : Request := opc ++ arg

/-- The opcode of a command (R94), in `OPC_W` bits. DESIGN CHOICE (log entry 2): at an `OPC_W` too narrow for a number, which
00_scope.md R8 does not rule out, its low `OPC_W` bits; no request decodes to such a command. -/
def Mnemonic.opcIn {opcW : Nat} : Mnemonic → BitVec opcW
  | .nop   => 0x00
  | .clr   => 0x01
  | .ldw   => 0x02
  | .lda   => 0x03
  | .build => 0x04
  | .stat  => 0x05
  | .enc1  => 0x08
  | .eopen => 0x09
  | .epush => 0x0A
  | .eend  => 0x0B
  | .epull => 0x0C
  | .dopen => 0x10
  | .dpush => 0x11
  | .dend  => 0x12
  | .dpull => 0x13
  | .rdn   => 0x18
  | .rdc   => 0x19

/-- The opcode of a command on this hardware. -/
def Mnemonic.opc : Mnemonic → Opcode := Mnemonic.opcIn

/-- `UW`, the number of operand bits a command uses (R97). -/
def Mnemonic.usedBits (p : Params) : Mnemonic → Nat
  | .nop   => 0
  | .clr   => 0
  | .ldw   => p.wgtW
  | .lda   => p.symW
  | .build => 0
  | .stat  => 4
  | .enc1  => p.symW
  | .eopen => 0
  | .epush => p.symW
  | .eend  => 0
  | .epull => 0
  | .dopen => 0
  | .dpush => 1
  | .dend  => 0
  | .dpull => 0
  | .rdn   => p.nodeW
  | .rdc   => p.idxW

/-- `UW` on this hardware. -/
def Mnemonic.operandWidth : Mnemonic → Nat := Mnemonic.usedBits Params.hfc

/-- The command with a given opcode, if the opcode is not reserved (R94, R98). -/
def Mnemonic.ofOpc {opcW : Nat} (opc : BitVec opcW) : Option Mnemonic :=
  match opc.toNat with
  | 0x00 => some .nop
  | 0x01 => some .clr
  | 0x02 => some .ldw
  | 0x03 => some .lda
  | 0x04 => some .build
  | 0x05 => some .stat
  | 0x08 => some .enc1
  | 0x09 => some .eopen
  | 0x0A => some .epush
  | 0x0B => some .eend
  | 0x0C => some .epull
  | 0x10 => some .dopen
  | 0x11 => some .dpush
  | 0x12 => some .dend
  | 0x13 => some .dpull
  | 0x18 => some .rdn
  | 0x19 => some .rdc
  | _    => none

/-- The command with the operand `arg[UW-1:0]`, used as it stands (R97). -/
def Mnemonic.withOperand (arg : Arg) : Mnemonic → Instr
  | .nop   => .nop
  | .clr   => .clr
  | .ldw   => .ldw arg
  | .lda   => .lda (arg.setWidth 8)
  | .build => .build
  | .stat  => .stat (arg.setWidth 4)
  | .enc1  => .enc1 (arg.setWidth 8)
  | .eopen => .eopen
  | .epush => .epush (arg.setWidth 8)
  | .eend  => .eend
  | .epull => .epull
  | .dopen => .dopen
  | .dpush => .dpush (arg.setWidth 1)
  | .dend  => .dend
  | .dpull => .dpull
  | .rdn   => .rdn (arg.setWidth 9)
  | .rdc   => .rdc (arg.setWidth 8)

/-- Why a request is rejected (R98). -/
inductive Of.DecodeError (opcW argW : Nat) where
  /-- The opcode is reserved (R96 step 1). -/
  | reservedOpcode (opc : BitVec opcW)
  /-- A bit of `arg` above `UW` is set (R96 step 2). -/
  | operandBits (m : Mnemonic) (arg : BitVec argW)
deriving DecidableEq, Repr

/-- Why a request is rejected on this hardware. -/
abbrev DecodeError := Of.DecodeError 8 32

/-- R96 steps 1 and 2: the command of an opcode field, where the operand field fits it. -/
def decodeFields {opcW argW : Nat} (p : Params) (opc : BitVec opcW) (arg : BitVec argW) :
    Except (Of.DecodeError opcW argW) Mnemonic :=
  match Mnemonic.ofOpc opc with
  | none => .error (.reservedOpcode opc)
  | some m => if arg >>> m.usedBits p = 0 then .ok m else .error (.operandBits m arg)

/-- R96 steps 1 and 2 on a request of this hardware. -/
def decode (r : Request) : Except DecodeError Instr :=
  match decodeFields Params.hfc r.opc r.arg with
  | .error e => .error e
  | .ok m    => .ok (m.withOperand r.arg)

/-- The operand of a command, zero-extended to `ARG_W` bits (R97, R101). -/
def Instr.operand : Instr → Arg
  | .nop     => 0
  | .clr     => 0
  | .ldw w   => w
  | .lda a   => a.setWidth 32
  | .build   => 0
  | .stat r  => r.setWidth 32
  | .enc1 a  => a.setWidth 32
  | .eopen   => 0
  | .epush a => a.setWidth 32
  | .eend    => 0
  | .epull   => 0
  | .dopen   => 0
  | .dpush b => b.setWidth 32
  | .dend    => 0
  | .dpull   => 0
  | .rdn k   => k.setWidth 32
  | .rdc c   => c.setWidth 32

/-- The request word of a command, `{opc, zext_32(operand)}` (R101). -/
def encode (i : Instr) : Request := Request.make i.mnemonic.opc i.operand

/-- The instruction the decoder reads from the request word `w`, numbered as spec/opcode_table.json numbers its 40-bit
words (bit 0 the least significant bit of the request, R90). Bits above `nbits` are 0. -/
def decodeTableWord (nbits w : Nat) : Option Instr :=
  if w % 2 ^ nbits < 2 ^ 40 then (decode (BitVec.ofNat 40 (w % 2 ^ nbits))).toOption else none

end Sys2Proof
end

