-- ==== Sys2Proof/Machine/State.lean ====
section
/-!
DEFINITION. The state of the block as plain data: the architectural state of 10_state.md R20, in the spec's own groups
(load state, phase, Encoding, encoder stream, decoder stream, error record), and the command port of 00_scope.md R6.
Also the reasons a step can stop, and the state after reset (10_state.md R43).

The types of namespace `Of` take the widths of 00_scope.md R8 as arguments; the types of the same names outside it are
theirs at the widths of this hardware.
-/

namespace Sys2Proof.Machine

/-- A memory space: a partial map from word index to word, as a list of (index, word) pairs with the indices strictly
rising (`Mem.wf`). An index that is not listed holds no value (10_state.md R44). -/
abbrev Mem (α : Type) := List (Nat × α)

/-- The four memory spaces of 20_memory.md R66. -/
inductive Space where
  | wmem | amem | node | ct
deriving DecidableEq, Repr

/-- `PHASE` (10_state.md R22). -/
inductive Phase where
  | load | ready
deriving DecidableEq, Repr

/-- `E_STATE` (10_state.md R28); the value 3 never occurs. -/
inductive EState where
  | closed | run | fault
deriving DecidableEq, Repr

/-- `D_STATE` (10_state.md R29). -/
inductive DState where
  | closed | atRoot | trav | exh
deriving DecidableEq, Repr

/-- The status codes of 30_encoding.md R95; "All other status values are never produced." -/
inductive Status where
  | ok | needInput | endOfSeq
  | errIllegal | errState | errNotReady | errCapacity | errRange
  | lengthMismatch | emptyAlphabet | treeTooDeep | unknownSymbol
deriving DecidableEq, Repr

namespace Of

/-- A node record, the tagged variant of 10_state.md R24. -/
inductive Node (idxW nodeW wsumW : Nat) where
  | leaf (index : BitVec idxW) (weight : BitVec wsumW)
  | internal (left right : BitVec nodeW) (weight : BitVec wsumW)
deriving DecidableEq, Repr

/-- A response word (30_encoding.md R91): `st` in the high bits, `data` in the low bits. -/
structure Response (dataW : Nat) where
  st   : Status
  data : BitVec dataW
deriving DecidableEq, Repr

/-- What the host does to the block: it issues a request (00_scope.md R6), or resets the block in hardware, possibly
while a request is executing, which is then abandoned (70_reset_and_hazards.md R340). -/
inductive HostEvent (reqW : Nat) where
  | request (r : BitVec reqW)
  | reset (abandoned : Option (BitVec reqW))
deriving DecidableEq, Repr

/-- The load state (10_state.md R21). -/
structure LoadState (cntW wgtW symW : Nat) where
  wmem : Mem (BitVec wgtW)
  wcnt : BitVec cntW
  amem : Mem (BitVec symW)
  acnt : BitVec cntW
deriving DecidableEq, Repr

/-- The Encoding: the tree registers and memory and the code table (10_state.md R23, R24, R25). -/
structure Encoding (cntW nodeW nnodesW idxW wsumW cwW : Nat) where
  n      : BitVec cntW
  root   : BitVec nodeW
  nnodes : BitVec nnodesW
  node   : Mem (Node idxW nodeW wsumW)
  ct     : Mem (BitVec cwW)
deriving DecidableEq, Repr

/-- The encoder stream context (10_state.md R28). -/
structure EncStream (payW lenW : Nat) where
  state : EState
  eoi   : Bool
  val   : BitVec payW
  len   : BitVec lenW
deriving DecidableEq, Repr

/-- The decoder stream context (10_state.md R29). -/
structure DecStream (nodeW : Nat) where
  state : DState
  eoi   : Bool
  cur   : BitVec nodeW
deriving DecidableEq, Repr

/-- The error record (10_state.md R31). -/
structure ErrRecord (stW opcW argW : Nat) where
  code : BitVec stW
  opc  : BitVec opcW
  arg  : BitVec argW
deriving DecidableEq, Repr

/-- The command port (00_scope.md R6). DESIGN CHOICE (log entry 1): the host stands in the state as the list of its
events not yet taken, and the response to the last request stays readable until the next one. -/
structure Port (reqW dataW : Nat) where
  pending  : List (HostEvent reqW)
  response : Option (Response dataW)
deriving DecidableEq, Repr

/-- The state: the six parts of the architectural state (10_state.md R20) and the command port. It holds every register
that R26 names; R26 says "count 15" and its list has 14 (DEDUCED, log entry 17). -/
structure State (cntW wgtW symW nodeW nnodesW idxW wsumW cwW payW lenW stW opcW argW reqW dataW : Nat) where
  load  : LoadState cntW wgtW symW
  phase : Phase
  enc   : Encoding cntW nodeW nnodesW idxW wsumW cwW
  est   : EncStream payW lenW
  dst   : DecStream nodeW
  err   : ErrRecord stW opcW argW
  port  : Port reqW dataW
deriving DecidableEq, Repr

/-- The state after a hardware reset (10_state.md R43): every register 0, no memory word holds a value (R44), no event
pending and no response given. -/
def State.reset {cntW wgtW symW nodeW nnodesW idxW wsumW cwW payW lenW stW opcW argW reqW dataW : Nat} :
    State cntW wgtW symW nodeW nnodesW idxW wsumW cwW payW lenW stW opcW argW reqW dataW where
  load  := { wmem := [], wcnt := 0, amem := [], acnt := 0 }
  phase := .load
  enc   := { n := 0, root := 0, nnodes := 0, node := [], ct := [] }
  est   := { state := .closed, eoi := false, val := 0, len := 0 }
  dst   := { state := .closed, eoi := false, cur := 0 }
  err   := { code := 0, opc := 0, arg := 0 }
  port  := { pending := [], response := none }

end Of

/-- A node record of this hardware. -/
abbrev Node := Of.Node 8 9 40
/-- A response of this hardware. -/
abbrev Response := Of.Response 64
/-- A host event of this hardware. -/
abbrev HostEvent := Of.HostEvent 40
/-- The load state of this hardware. -/
abbrev LoadState := Of.LoadState 9 32 8
/-- The Encoding of this hardware. `NNODES` has 10 bits (10_state.md R23). -/
abbrev Encoding := Of.Encoding 9 9 10 8 40 64
/-- The encoder stream context of this hardware. -/
abbrev EncStream := Of.EncStream 57 7
/-- The decoder stream context of this hardware. -/
abbrev DecStream := Of.DecStream 9
/-- The error record of this hardware. -/
abbrev ErrRecord := Of.ErrRecord 8 8 32
/-- The command port of this hardware. -/
abbrev Port := Of.Port 40 64
/-- The state of this hardware. -/
abbrev State := Of.State 9 32 8 9 10 8 40 64 57 7 8 8 32 40 64

/-- Why the model stops. The block itself never stops (70_reset_and_hazards.md R355): from a state that satisfies the
invariant of Safety.lean no step raises either fault. -/
inductive Fault where
  /-- Raised by a read of a memory word that nothing has written since reset or `CLR`: "A memory word that no command has
  written since the last reset or `CLR` holds no value", and a model "may treat a read of an unwritten word as a model
  bug" (10_state.md R44). Safe. -/
  | noValue (space : Space) (index : Nat)
  /-- Raised by an access at an index outside a memory space (20_memory.md R66, R67). Safe. -/
  | noWord (space : Space) (index : Nat)
deriving DecidableEq, Repr

/-- Why the model gives no meaning. No arm of `exec` answers it: every command has its meaning. -/
inductive Refusal where
  /-- Raised by an arm of `exec` whose instruction has no meaning yet. Safe. -/
  | notModelled (mnemonic : String)
deriving DecidableEq, Repr

/-- The state of this hardware after a hardware reset (10_state.md R43). -/
def State.reset : State := Of.State.reset

end Sys2Proof.Machine
end

