-- ==== Sys2Proof/Machine/Operands.lean ====
section
/-!
DEFINITION. The packed words a command delivers: the packed codeword (30_encoding.md R92), the node word (R93), and the
zero extensions of R103. The operands of the commands themselves are assembled by the decoder (R97).
-/

namespace Sys2Proof.Machine

/-- `pack(len, bits) = {len, bits}` (30_encoding.md R92). -/
def Of.pack {lenW payW cwW : Nat} (len : BitVec lenW) (bits : BitVec payW) : BitVec cwW := (len ++ bits).setWidth cwW

/-- `cw_len(w)`, the high `LEN_W` bits (30_encoding.md R92). -/
def Of.cwLen {cwW lenW : Nat} (w : BitVec cwW) : BitVec lenW := w.extractLsb' (cwW - lenW) lenW

/-- `cw_bits(w)`, the low `PAY_W` bits (30_encoding.md R92). -/
def Of.cwBits {cwW payW : Nat} (w : BitVec cwW) : BitVec payW := w.extractLsb' 0 payW

/-- `pack` on this hardware. -/
def pack (len : CwLen) (bits : Payload) : Codeword := Of.pack len bits

/-- `cw_len(w) = w[63:57]` on this hardware. -/
def cwLen (w : Codeword) : CwLen := Of.cwLen w

/-- `cw_bits(w) = w[56:0]` on this hardware. -/
def cwBits (w : Codeword) : Payload := Of.cwBits w

/-- The node word of a record (30_encoding.md R93): the tag in the highest bit, and from the low end up the weight, the
right child or the index, the left child. -/
def nodeWord {idxW nodeW wsumW dataW : Nat} (record : Of.Node idxW nodeW wsumW) : BitVec dataW :=
  match record with
  | .leaf index weight          => (index ++ weight).setWidth dataW
  | .internal left right weight => BitVec.twoPow dataW (dataW - 1) ||| (left ++ right ++ weight).setWidth dataW

/-- `weight(k)` of a record (10_state.md R24). -/
def Of.Node.weight {idxW nodeW wsumW : Nat} : Of.Node idxW nodeW wsumW → BitVec wsumW
  | .leaf _ weight       => weight
  | .internal _ _ weight => weight

/-- `is_leaf(k)` of a record (10_state.md R24). -/
def Of.Node.isLeaf {idxW nodeW wsumW : Nat} : Of.Node idxW nodeW wsumW → Bool
  | .leaf _ _       => true
  | .internal _ _ _ => false

/-- `zext` of a bit to `DATA_W` bits, the data of `EPULL` (30_encoding.md R103). -/
def bitData {dataW : Nat} (b : Bool) : BitVec dataW := (BitVec.ofBool b).setWidth dataW

/-- `zext` of a symbol to `DATA_W` bits, the data of `DPULL` (30_encoding.md R103). -/
def symData {symW dataW : Nat} (a : BitVec symW) : BitVec dataW := a.setWidth dataW

end Sys2Proof.Machine
end

