-- ==== Sys2Proof/Machine/Flags.lean ====
section
/-!
DEFINITION. Codes and status registers. The block has no condition codes and no arithmetic flags (10_state.md R30): its
one-bit state is `PHASE`, `E_EOI` and `D_EOI`. This file gives the numeric codes of the enumerated registers, the status
codes of a response (30_encoding.md R95), and the eight status registers (10_state.md R32 to R40).
-/

namespace Sys2Proof.Machine

/-- The number of a status (30_encoding.md R95), in `ST_W` bits. DESIGN CHOICE (log entry 2): at an `ST_W` too narrow for a
number, which 00_scope.md R8 does not rule out, its low `ST_W` bits. -/
def Status.codeIn {stW : Nat} : Status → BitVec stW
  | .ok             => 0x00
  | .needInput      => 0x01
  | .endOfSeq       => 0x02
  | .errIllegal     => 0x10
  | .errState       => 0x11
  | .errNotReady    => 0x12
  | .errCapacity    => 0x13
  | .errRange       => 0x14
  | .lengthMismatch => 0x20
  | .emptyAlphabet  => 0x21
  | .treeTooDeep    => 0x22
  | .unknownSymbol  => 0x23

/-- The number of a status on this hardware. -/
def Status.code : Status → BitVec 8 := Status.codeIn

/-- "Codes below `0x10` are not errors; codes from `0x10` up are errors" (30_encoding.md R95). -/
def Status.isError (st : Status) : Bool := decide (0x10 ≤ st.code.toNat)

/-- The response word (30_encoding.md R91), `ST_W + DATA_W` bits, 72 on this hardware. -/
def Of.Response.word {dataW : Nat} (stW : Nat) (rsp : Of.Response dataW) : BitVec (stW + dataW) :=
  rsp.st.codeIn ++ rsp.data

/-- `PHASE` as a bit (10_state.md R22). -/
def Phase.bit : Phase → BitVec 1
  | .load  => 0
  | .ready => 1

/-- `E_STATE` as a number (10_state.md R28). -/
def EState.code : EState → BitVec 2
  | .closed => 0
  | .run    => 1
  | .fault  => 2

/-- `D_STATE` as a number (10_state.md R29). -/
def DState.code : DState → BitVec 2
  | .closed => 0
  | .atRoot => 1
  | .trav   => 2
  | .exh    => 3

/-! ## Status registers

The bit places of R34 to R40 are those of this hardware. At other widths each field keeps its place and its order, and a
part of it above its place, or above `DATA_W`, is not shown (DESIGN CHOICE, log entry 2). -/

variable {cntW wgtW symW nodeW nnodesW idxW wsumW cwW payW lenW stW opcW argW reqW dataW : Nat}

/-- Status register 0, `ID` (10_state.md R33). -/
def statId : BitVec dataW := 0x0000000148554646

/-- Status register 1, `PARAM`, from the parameters of the instance (10_state.md R34). -/
def statParam (p : Params) : BitVec dataW :=
  (BitVec.ofNat 8 p.wsumW ++ BitVec.ofNat 8 p.lenW ++ BitVec.ofNat 8 p.maxDepth ++
    BitVec.ofNat 8 p.wgtW ++ BitVec.ofNat 8 p.symW ++ BitVec.ofNat 16 p.nMax).setWidth dataW

variable (s : Of.State cntW wgtW symW nodeW nnodesW idxW wsumW cwW payW lenW stW opcW argW reqW dataW)

/-- Status register 2, `STATUS` (10_state.md R35). -/
def statStatus : BitVec dataW :=
  (BitVec.ofBool s.dst.eoi ++ s.dst.state.code ++ BitVec.ofBool s.est.eoi ++ s.est.state.code ++ s.phase.bit).setWidth dataW

/-- Status register 3, `COUNT` (10_state.md R36). -/
def statCount : BitVec dataW := (s.load.acnt ++ s.load.wcnt.setWidth 16).setWidth dataW

/-- Status register 4, `TREE` (10_state.md R37). -/
def statTree : BitVec dataW := (s.enc.nnodes ++ s.enc.root.setWidth 16 ++ s.enc.n.setWidth 16).setWidth dataW

/-- Status register 5, `ERR` (10_state.md R38). -/
def statErr : BitVec dataW := (s.err.arg ++ s.err.opc ++ s.err.code).setWidth dataW

/-- Status register 6, `ENC`: the packed codeword of the cursor (10_state.md R39). -/
def statEnc : BitVec dataW := Of.pack s.est.len s.est.val

/-- Status register 7, `DEC` (10_state.md R40). -/
def statDec : BitVec dataW := s.dst.cur.setWidth dataW

/-- The value of status register `r`; numbers 8 to 15 select nothing (10_state.md R32). -/
def statusRegister (p : Params) (r : BitVec 4) : Option (BitVec dataW) :=
  match r.toNat with
  | 0 => some statId
  | 1 => some (statParam p)
  | 2 => some (statStatus s)
  | 3 => some (statCount s)
  | 4 => some (statTree s)
  | 5 => some (statErr s)
  | 6 => some (statEnc s)
  | 7 => some (statDec s)
  | _ => none

end Sys2Proof.Machine
end

