-- ==== Sys2Proof/Machine/Ops.lean ====
section
/-!
DEFINITION. The shared operations: reading and writing a memory space (00_scope.md R11, 20_memory.md R66), ending a
command (`respond`, R11), the error exit `raise` (60_exceptions.md R293), the permission check (30_encoding.md R96
step 3), the symbol lookup (43_encoder.md R200), hardware reset (70_reset_and_hazards.md R340), and taking the next host
event from the port.
-/

namespace Sys2Proof.Machine

/-- The outcome of a command or a step over states `σ`. -/
abbrev Of.Outcome (σ : Type) := Host.Outcome σ Fault Refusal

/-- The outcome of a command or a step of this hardware. -/
abbrev StepOutcome := Of.Outcome State

/-! ## Memory spaces -/

/-- The indices that hold a value, in order. -/
def Mem.dom {α : Type} (m : Mem α) : List Nat := m.map Prod.fst

/-- The canonical form: indices strictly rising. -/
def Mem.wf {α : Type} (m : Mem α) : Bool := decide ((Mem.dom m).Pairwise (· < ·))

/-- The word at index `i`, if that index holds a value. -/
def Mem.read {α : Type} : Mem α → Nat → Option α
  | [], _ => none
  | (j, v) :: m, i => if i = j then some v else Mem.read m i

/-- Write `v` at index `i`, keeping the canonical form. -/
def Mem.write {α : Type} : Mem α → Nat → α → Mem α
  | [], i, v => [(i, v)]
  | (j, w) :: m, i, v =>
    if i < j then (i, v) :: (j, w) :: m
    else if i = j then (i, v) :: m
    else (j, w) :: Mem.write m i v

/-- The number of words of a space (20_memory.md R66). -/
def Space.size (p : Params) : Space → Nat
  | .wmem => p.nMax
  | .amem => p.nMax
  | .node => p.nodeMax
  | .ct   => p.nMax

/-- `MemRead(S, i)` (00_scope.md R11): a fault where the space has no word `i`, or the word holds no value. -/
def fetch {α : Type} (p : Params) (sp : Space) (m : Mem α) (i : Nat) : Except Fault α :=
  if sp.size p ≤ i then .error (.noWord sp i)
  else
    match Mem.read m i with
    | some v => .ok v
    | none   => .error (.noValue sp i)

/-- `MemWrite(S, i, v)` (00_scope.md R11): a fault where the space has no word `i`. -/
def store {α : Type} (p : Params) (sp : Space) (m : Mem α) (i : Nat) (v : α) : Except Fault (Mem α) :=
  if sp.size p ≤ i then .error (.noWord sp i) else .ok (Mem.write m i v)

/-- Go on with the value of a memory access, or stop with its fault. -/
def withWord {α σ : Type} (x : Except Fault α) (k : α → Of.Outcome σ) : Of.Outcome σ :=
  match x with
  | .ok v    => k v
  | .error f => .fault f

/-! ## Ending a command -/

variable {cntW wgtW symW nodeW nnodesW idxW wsumW cwW payW lenW stW opcW argW reqW dataW : Nat}

/-- `s` with the response word `{st, d}` at the port. -/
def Of.State.answered (s : Of.State cntW wgtW symW nodeW nnodesW idxW wsumW cwW payW lenW stW opcW argW reqW dataW)
    (st : Status) (d : BitVec dataW) :
    Of.State cntW wgtW symW nodeW nnodesW idxW wsumW cwW payW lenW stW opcW argW reqW dataW :=
  { s with port := { s.port with response := some { st := st, data := d } } }

/-- `s` with the error record of an error `st` of the request with the fields `opc` and `arg` (60_exceptions.md R293). -/
def Of.State.recorded (s : Of.State cntW wgtW symW nodeW nnodesW idxW wsumW cwW payW lenW stW opcW argW reqW dataW)
    (st : Status) (opc : BitVec opcW) (arg : BitVec argW) :
    Of.State cntW wgtW symW nodeW nnodesW idxW wsumW cwW payW lenW stW opcW argW reqW dataW :=
  { s with err := { code := st.codeIn, opc := opc, arg := arg } }

/-- `respond(st, d)` (00_scope.md R11). -/
def respond (st : Status) (d : BitVec dataW)
    (s : Of.State cntW wgtW symW nodeW nnodesW idxW wsumW cwW payW lenW stW opcW argW reqW dataW) :
    Of.Outcome (Of.State cntW wgtW symW nodeW nnodesW idxW wsumW cwW payW lenW stW opcW argW reqW dataW) :=
  .next (s.answered st d)

/-- `raise X(info)` (60_exceptions.md R293), the error exit every rule uses, and all the block has in place of taking an
exception: the error record gets the status, the opcode and the operand of the request as received, and the command is
answered with the status and `data = 0`. Nothing else is written. There is no return from it: "There is no return
instruction because nothing is entered" (R297). -/
def raise (st : Status) (opc : BitVec opcW) (arg : BitVec argW)
    (s : Of.State cntW wgtW symW nodeW nnodesW idxW wsumW cwW payW lenW stW opcW argW reqW dataW) :
    Of.Outcome (Of.State cntW wgtW symW nodeW nnodesW idxW wsumW cwW payW lenW stW opcW argW reqW dataW) :=
  respond st 0 (s.recorded st opc arg)

/-- `raise` in the rule of the command `m` with the operand field `arg`. -/
def fail (st : Status) (m : Mnemonic) (arg : BitVec argW)
    (s : Of.State cntW wgtW symW nodeW nnodesW idxW wsumW cwW payW lenW stW opcW argW reqW dataW) :
    Of.Outcome (Of.State cntW wgtW symW nodeW nnodesW idxW wsumW cwW payW lenW stW opcW argW reqW dataW) :=
  raise st m.opcIn arg s

/-! ## The permission check (30_encoding.md R96 step 3) -/

/-- What a command needs of the phase and the stream states. -/
inductive Need where
  | nothing | load | ready | encRun | decActive | decOpen
deriving DecidableEq, Repr

/-- The need of each command: "Step 3 in full" of 30_encoding.md R96. -/
def Mnemonic.need : Mnemonic → Need
  | .nop   => .nothing
  | .clr   => .nothing
  | .stat  => .nothing
  | .ldw   => .load
  | .lda   => .load
  | .build => .load
  | .enc1  => .ready
  | .eopen => .ready
  | .dopen => .ready
  | .rdn   => .ready
  | .rdc   => .ready
  | .epush => .encRun
  | .eend  => .encRun
  | .epull => .encRun
  | .dpush => .decActive
  | .dend  => .decActive
  | .dpull => .decOpen

/-- Whether a need holds in a state (30_encoding.md R96 step 3). -/
def Need.met (s : Of.State cntW wgtW symW nodeW nnodesW idxW wsumW cwW payW lenW stW opcW argW reqW dataW) : Need → Bool
  | .nothing   => true
  | .load      => decide (s.phase = .load)
  | .ready     => decide (s.phase = .ready)
  | .encRun    => decide (s.est.state = .run)
  | .decActive => decide (s.dst.state = .atRoot ∨ s.dst.state = .trav)
  | .decOpen   => decide (s.dst.state ≠ .closed)

/-- Whether a command is permitted in a state. -/
def permitted (m : Mnemonic)
    (s : Of.State cntW wgtW symW nodeW nnodesW idxW wsumW cwW payW lenW stW opcW argW reqW dataW) : Bool :=
  (Mnemonic.need m).met s

/-- Step 3, then step 4, of 30_encoding.md R96: `ERR_STATE` where the command is not permitted, else its own rule. -/
def guarded (m : Mnemonic) (arg : BitVec argW)
    (s : Of.State cntW wgtW symW nodeW nnodesW idxW wsumW cwW payW lenW stW opcW argW reqW dataW)
    (body : Of.Outcome (Of.State cntW wgtW symW nodeW nnodesW idxW wsumW cwW payW lenW stW opcW argW reqW dataW)) :
    Of.Outcome (Of.State cntW wgtW symW nodeW nnodesW idxW wsumW cwW payW lenW stW opcW argW reqW dataW) :=
  if permitted m s then body else fail .errState m arg s

/-! ## The symbol lookup (43_encoder.md R200) -/

/-- The smallest index from `i` on, among `k` indices, whose word of `AMEM` is `a`. -/
def scan (p : Params) (amem : Mem (BitVec symW)) (a : BitVec symW) : Nat → Nat → Except Fault (Option Nat)
  | 0, _ => .ok none
  | k + 1, i =>
    match fetch p .amem amem i with
    | .error f => .error f
    | .ok v    => if v = a then .ok (some i) else scan p amem a k (i + 1)

/-- `lookup(s)`: "the smallest `i` with `0 <= i < N` and `MemRead(AMEM, i) = s`; `none` if there is no such `i`"
(43_encoder.md R200). -/
def lookup (p : Params) (a : BitVec symW) (s : Of.State cntW wgtW symW nodeW nnodesW idxW wsumW cwW payW lenW stW opcW argW reqW dataW) :
    Except Fault (Option Nat) :=
  scan p s.load.amem a s.enc.n.toNat 0

/-! ## Reset and the port -/

/-- A hardware reset (70_reset_and_hazards.md R340): the reset state; the events the host has not had taken stay
pending. No response is owed for a command the reset abandons. -/
def hardwareReset (s : Of.State cntW wgtW symW nodeW nnodesW idxW wsumW cwW payW lenW stW opcW argW reqW dataW) :
    Of.State cntW wgtW symW nodeW nnodesW idxW wsumW cwW payW lenW stW opcW argW reqW dataW :=
  { (Of.State.reset : Of.State cntW wgtW symW nodeW nnodesW idxW wsumW cwW payW lenW stW opcW argW reqW dataW) with
    port := { pending := s.port.pending, response := none } }

/-- `s` with the pending events `es`. -/
def Of.State.withPending (s : Of.State cntW wgtW symW nodeW nnodesW idxW wsumW cwW payW lenW stW opcW argW reqW dataW)
    (es : List (Of.HostEvent reqW)) :
    Of.State cntW wgtW symW nodeW nnodesW idxW wsumW cwW payW lenW stW opcW argW reqW dataW :=
  { s with port := { s.port with pending := es } }

/-- The next event of the host, and the state without it (00_scope.md R6: one at a time, in the order issued). -/
def takeEvent (s : Of.State cntW wgtW symW nodeW nnodesW idxW wsumW cwW payW lenW stW opcW argW reqW dataW) :
    Option (Of.HostEvent reqW × Of.State cntW wgtW symW nodeW nnodesW idxW wsumW cwW payW lenW stW opcW argW reqW dataW) :=
  match s.port.pending with
  | []      => none
  | e :: es => some (e, s.withPending es)

end Sys2Proof.Machine
end

