-- ==== Sys2Proof/Machine/CodeTable.lean ====
section
/-!
DEFINITION. code_table_generator (42_code_table.md R180 to R183): the traversal of the finished tree that fills the code
table, as the recursion of R180 and in the explicit-stack form of R183.
-/

namespace Sys2Proof.Machine

/-- Why a build ends without an Encoding after its first checks: a leaf deeper than `MAXDEPTH` (R182), or a fault of
the model. -/
inductive BuildStop where
  | tooDeep
  | fault (f : Fault)
deriving DecidableEq, Repr

variable {idxW nodeW wsumW payW cwW : Nat}

/-- `acc | (1 << depth)` in `PAY_W` bits (R180). -/
def rightPath (depth : Nat) (acc : BitVec payW) : BitVec payW := acc ||| (1#payW <<< depth)

/-- `visit(k, depth, acc)` (R180) with the table filled so far. The first argument is `MAXDEPTH - depth`, the edges
that may still be taken: at an internal node with none left the traversal ends with `TreeTooDeep` (R182). A leaf
records `pack(depth, acc)` at its alphabet index (R181). -/
def visit (p : Params) (node : Mem (Of.Node idxW nodeW wsumW)) :
    Nat → BitVec nodeW → Nat → BitVec payW → Mem (BitVec cwW) → Except BuildStop (Mem (BitVec cwW))
  | 0, k, depth, acc, table =>
    match fetch p .node node k.toNat with
    | .error f             => .error (.fault f)
    | .ok (.leaf index _)  => .ok (Mem.write table index.toNat (Of.pack (BitVec.ofNat p.lenW depth) acc))
    | .ok (.internal ..)   => .error .tooDeep
  | room + 1, k, depth, acc, table =>
    match fetch p .node node k.toNat with
    | .error f             => .error (.fault f)
    | .ok (.leaf index _)  => .ok (Mem.write table index.toNat (Of.pack (BitVec.ofNat p.lenW depth) acc))
    | .ok (.internal left right _) =>
      match visit p node room left (depth + 1) acc table with
      | .error e   => .error e
      | .ok table' => visit p node room right (depth + 1) (rightPath depth acc) table'

/-- The code table of a tree: `visit(root, 0, 0)` (R180). Before it no word of `CT` holds a value. -/
def codeTable (p : Params) (node : Mem (Of.Node idxW nodeW wsumW)) (root : BitVec nodeW) :
    Except BuildStop (Mem (BitVec cwW)) :=
  visit p node p.maxDepth root 0 (0 : BitVec p.payW) []

/-- An entry of the explicit stack: `(node, depth, acc)` (R183). -/
structure Of.Frame (nodeW payW : Nat) where
  node  : BitVec nodeW
  depth : Nat
  acc   : BitVec payW
deriving DecidableEq, Repr

/-- A stack entry of this hardware. -/
abbrev Frame := Of.Frame 9 57

/-- One turn of the loop of R183: pop the top entry; a leaf is recorded, an internal node pushes its right child and
then its left child, or ends the traversal at `MAXDEPTH`. `none` when the stack is empty. -/
def stackTurn (p : Params) (node : Mem (Of.Node idxW nodeW wsumW)) (stack : List (Of.Frame nodeW payW))
    (table : Mem (BitVec cwW)) : Option (Except BuildStop (List (Of.Frame nodeW payW) × Mem (BitVec cwW))) :=
  match stack with
  | [] => none
  | top :: rest =>
    match fetch p .node node top.node.toNat with
    | .error f            => some (.error (.fault f))
    | .ok (.leaf index _) =>
      some (.ok (rest, Mem.write table index.toNat (Of.pack (BitVec.ofNat p.lenW top.depth) top.acc)))
    | .ok (.internal left right _) =>
      if top.depth = p.maxDepth then some (.error .tooDeep)
      else some (.ok ({ node := left, depth := top.depth + 1, acc := top.acc } ::
        { node := right, depth := top.depth + 1, acc := rightPath top.depth top.acc } :: rest, table))

/-- The loop of R183 for a number of turns: the table once the stack is empty, `none` while it is not. -/
def stackLoop (p : Params) (node : Mem (Of.Node idxW nodeW wsumW)) :
    Nat → List (Of.Frame nodeW payW) → Mem (BitVec cwW) → Option (Except BuildStop (Mem (BitVec cwW)))
  | 0, _, _ => none
  | turns + 1, stack, table =>
    match stackTurn p node stack table with
    | none                         => some (.ok table)
    | some (.error e)              => some (.error e)
    | some (.ok (stack', table'))  => stackLoop p node turns stack' table'

end Sys2Proof.Machine
end

