-- ==== Sys2Proof/Machine/TreeBuilder.lean ====
section
/-!
DEFINITION. huffman_tree_builder (41_tree_builder.md R153 to R157): the priority queue and the merge loop. Its working
state is hidden (10_state.md R41) and exists only inside one `BUILD`.
-/

namespace Sys2Proof.Machine

variable {wsumW nodeW idxW wgtW : Nat}

/-- `key(k) = (weight(k), k)` of a queue member `k` (R154). -/
structure Of.Key (wsumW nodeW : Nat) where
  weight : BitVec wsumW
  node   : BitVec nodeW
deriving DecidableEq, Repr

/-- The order of R154: "smaller weight first, and among equal weights the smaller node index first". -/
def Of.Key.before (a b : Of.Key wsumW nodeW) : Bool :=
  decide (a.weight.toNat < b.weight.toNat ∨ (a.weight.toNat = b.weight.toNat ∧ a.node.toNat < b.node.toNat))

/-- The smaller of two keys. -/
def Of.Key.least (a b : Of.Key wsumW nodeW) : Of.Key wsumW nodeW := if b.before a then b else a

/-- `PQ.extract_min()` (R154): the smallest member, and the queue without it. -/
def extractMin : List (Of.Key wsumW nodeW) → Option (Of.Key wsumW nodeW × List (Of.Key wsumW nodeW))
  | []     => none
  | k :: q => some (q.foldl Of.Key.least k, (k :: q).erase (q.foldl Of.Key.least k))

/-- The hidden working state of the tree builder (10_state.md R41): the queue as the keys of its members, the node
allocation counter `next`, and the records written so far. -/
structure Of.Builder (idxW nodeW wsumW : Nat) where
  queue : List (Of.Key wsumW nodeW)
  next  : Nat
  node  : Mem (Of.Node idxW nodeW wsumW)
deriving DecidableEq, Repr

/-- A key of this hardware. -/
abbrev Key := Of.Key 40 9
/-- A builder of this hardware. -/
abbrev Builder := Of.Builder 8 9 40

/-- `MemWrite(NODE, next, record)`, `PQ.insert(next)`, `next <- next + 1` (R153, R155). The index is in range:
`next <= 2 * NMAX - 2` (20_memory.md R67). -/
def Of.Builder.add (b : Of.Builder idxW nodeW wsumW) (record : Of.Node idxW nodeW wsumW) : Of.Builder idxW nodeW wsumW where
  queue := { weight := record.weight, node := BitVec.ofNat nodeW b.next } :: b.queue
  next  := b.next + 1
  node  := Mem.write b.node b.next record

/-- The builder before any leaf: an empty queue, and no record holds a value. -/
def Of.Builder.empty : Of.Builder idxW nodeW wsumW := { queue := [], next := 0, node := [] }

/-- Leaf creation (R153), for the alphabet positions below the argument, in rising order. -/
def createLeaves (p : Params) (wmem : Mem (BitVec wgtW)) : Nat → Except Fault (Of.Builder idxW nodeW wsumW)
  | 0 => .ok Of.Builder.empty
  | i + 1 =>
    match createLeaves p wmem i with
    | .error f => .error f
    | .ok b =>
      match fetch p .wmem wmem i with
      | .error f => .error f
      | .ok w    => .ok (b.add (.leaf (BitVec.ofNat idxW i) (w.setWidth wsumW)))

/-- One turn of the merge loop (R155): the first node extracted becomes the left child, the second the right (R156).
`none` when fewer than two members remain. -/
def mergeStep (b : Of.Builder idxW nodeW wsumW) : Option (Of.Builder idxW nodeW wsumW) :=
  match extractMin b.queue with
  | none => none
  | some (first, q1) =>
    match extractMin q1 with
    | none => none
    | some (second, q2) =>
      some ({ b with queue := q2 }.add (.internal first.node second.node (first.weight + second.weight)))

/-- The merge loop (R155), at most the given number of turns. -/
def mergeLoop : Nat → Of.Builder idxW nodeW wsumW → Of.Builder idxW nodeW wsumW
  | 0, b => b
  | turns + 1, b =>
    match mergeStep b with
    | none    => b
    | some b' => mergeLoop turns b'

/-- The tree of `n` weights (R153 to R157): the builder after the merge loop, whose one remaining member is the root. -/
def buildTree (p : Params) (wmem : Mem (BitVec wgtW)) (n : Nat) : Except Fault (Of.Builder idxW nodeW wsumW) :=
  match createLeaves p wmem n with
  | .error f => .error f
  | .ok b    => .ok (mergeLoop n b)

end Sys2Proof.Machine
end

