-- ==== Sys2Proof/Machine/Build.lean ====
section
/-!
DEFINITION. `BUILD` (41_tree_builder.md R152): the tree builder, then the code table generator, and only then the commit
of the Encoding.
-/

namespace Sys2Proof.Machine

section Of

variable {cntW wgtW symW nodeW nnodesW idxW wsumW cwW payW lenW stW opcW argW reqW dataW : Nat}
variable (p : Params) (s : Of.State cntW wgtW symW nodeW nnodesW idxW wsumW cwW payW lenW stW opcW argW reqW dataW)

/-- The Encoding of `n` weights (R152): tree, root and counts (R157) and code table (R180). It is a function of the
weights and their number alone (R160). -/
def Of.construct (wmem : Mem (BitVec wgtW)) (n : BitVec cntW) :
    Except BuildStop (Of.Encoding cntW nodeW nnodesW idxW wsumW cwW) :=
  match buildTree p wmem n.toNat with
  | .error f => .error (.fault f)
  | .ok b =>
    match extractMin b.queue with
    | none => .error (.fault (.noValue .node b.next))
    | some (root, _) =>
      match codeTable p b.node root.node with
      | .error e  => .error e
      | .ok table =>
        .ok { n := n, root := root.node, nnodes := BitVec.ofNat nnodesW b.next, node := b.node, ct := table }

/-- `BUILD` (R152): `LengthMismatch`, then `EmptyAlphabet`, then `TreeTooDeep`, and on success the Encoding and phase
`READY` together. On an error only the error record is written; that `NODE` and `CT` then hold what they held is the
model's choice (DESIGN CHOICE, log entry 4). -/
def Of.build :
    Of.Outcome (Of.State cntW wgtW symW nodeW nnodesW idxW wsumW cwW payW lenW stW opcW argW reqW dataW) :=
  guarded .build 0 s <|
    if s.load.wcnt ≠ s.load.acnt then fail .lengthMismatch .build 0 s
    else if s.load.wcnt = 0 then fail .emptyAlphabet .build 0 s
    else
      match Of.construct p s.load.wmem s.load.wcnt with
      | .error (.fault f) => .fault f
      | .error .tooDeep   => fail .treeTooDeep .build 0 s
      | .ok e             => respond .ok 0 { s with enc := e, phase := .ready }

end Of

/-- The Encoding of `n` weights on this hardware. -/
def construct (p : Params) (wmem : Mem Weight) (n : Count) : Except BuildStop Encoding := Of.construct p wmem n

/-- `BUILD` on this hardware. -/
def execBuild (s : State) : StepOutcome := Of.build Params.hfc s

end Sys2Proof.Machine
end

