-- ==== Sys2Proof/Machine/Decoder.lean ====
section
/-!
DEFINITION. symbol_decoder (44_decoder.md R230 to R233): `DOPEN`, `DPUSH`, `DEND`, `DPULL`.
-/

namespace Sys2Proof.Machine

section Of

variable {cntW wgtW symW nodeW nnodesW idxW wsumW cwW payW lenW stW opcW argW reqW dataW : Nat}
variable (p : Params) (s : Of.State cntW wgtW symW nodeW nnodesW idxW wsumW cwW payW lenW stW opcW argW reqW dataW)

/-- `DOPEN` (R230). -/
def Of.dopen :
    Of.Outcome (Of.State cntW wgtW symW nodeW nnodesW idxW wsumW cwW payW lenW stW opcW argW reqW dataW) :=
  guarded .dopen 0 s <| respond .ok 0 { s with dst := { state := .atRoot, eoi := false, cur := s.enc.root } }

/-- `DPUSH b` (R231): bit 0 selects the left child, bit 1 the right child. -/
def Of.dpush (b : BitVec 1) :
    Of.Outcome (Of.State cntW wgtW symW nodeW nnodesW idxW wsumW cwW payW lenW stW opcW argW reqW dataW) :=
  guarded .dpush (b.setWidth argW) s <|
    if s.dst.eoi then fail .errState .dpush (b.setWidth argW) s
    else withWord (fetch p .node s.enc.node s.dst.cur.toNat) fun found =>
      match found with
      | .leaf _ _ => fail .errNotReady .dpush (b.setWidth argW) s
      | .internal left right _ =>
        respond .ok 0 { s with dst := { s.dst with cur := if b = 0 then left else right, state := .trav } }

/-- `DEND` (R232). -/
def Of.dend :
    Of.Outcome (Of.State cntW wgtW symW nodeW nnodesW idxW wsumW cwW payW lenW stW opcW argW reqW dataW) :=
  guarded .dend 0 s <|
    if s.dst.eoi then fail .errState .dend 0 s
    else respond .ok 0 { s with dst := { s.dst with eoi := true } }

/-- `DPULL` (R233). -/
def Of.dpull :
    Of.Outcome (Of.State cntW wgtW symW nodeW nnodesW idxW wsumW cwW payW lenW stW opcW argW reqW dataW) :=
  guarded .dpull 0 s <|
    if s.dst.state = .exh then respond .endOfSeq 0 s
    else withWord (fetch p .node s.enc.node s.dst.cur.toNat) fun found =>
      match found with
      | .leaf index _ =>
        withWord (fetch p .amem s.load.amem index.toNat) fun a =>
          respond .ok (symData a) { s with dst := { s.dst with cur := s.enc.root, state := .atRoot } }
      | .internal _ _ _ =>
        if s.dst.eoi then respond .endOfSeq 0 { s with dst := { s.dst with state := .exh } }
        else respond .needInput 0 s

end Of

/-- `DOPEN` on this hardware. -/
def execDopen (s : State) : StepOutcome := Of.dopen s

/-- `DPUSH b` on this hardware. -/
def execDpush (b : BitVec 1) (s : State) : StepOutcome := Of.dpush Params.hfc s b

/-- `DEND` on this hardware. -/
def execDend (s : State) : StepOutcome := Of.dend s

/-- `DPULL` on this hardware. -/
def execDpull (s : State) : StepOutcome := Of.dpull Params.hfc s

end Sys2Proof.Machine
end

