-- ==== Sys2Proof/Machine/BitSeq.lean ====
section
/-!
DEFINITION. The Bit Sequence primitive (40_bitseq.md R130 to R141). The operations are partial: `none` where a
precondition does not hold (R142), no value is invented there.
-/

namespace Sys2Proof.Machine

/-- A Bit Sequence `(value, len)` over a `W`-bit integer (R130). -/
structure BitSeq (w : Nat) where
  value : BitVec w
  len   : Nat
deriving DecidableEq, Repr

/-- `0 <= len <= W` (R130). -/
def BitSeq.wf {w : Nat} (b : BitSeq w) : Bool := decide (b.len ≤ w)

/-- The constructor `bits(v, len)` (R131); no meaning for `len > W` (R142). -/
def BitSeq.bits {w : Nat} (v : BitVec w) (len : Nat) : Option (BitSeq w) :=
  if len ≤ w then some { value := v, len := len } else none

/-- `bits(v)`: the length is the full width of `v` (R131). -/
def BitSeq.full {w : Nat} (v : BitVec w) : BitSeq w := { value := v, len := w }

/-- `length(s)` (R132). -/
def BitSeq.length {w : Nat} (b : BitSeq w) : Nat := b.len

/-- `empty(s)` (R132). -/
def BitSeq.isEmpty {w : Nat} (b : BitSeq w) : Bool := decide (b.len = 0)

/-- `front(s)` (R133). -/
def BitSeq.front {w : Nat} (b : BitSeq w) : Option Bool := if 1 ≤ b.len then some (b.value.getLsbD 0) else none

/-- `back(s)` (R134). -/
def BitSeq.back {w : Nat} (b : BitSeq w) : Option Bool :=
  if 1 ≤ b.len then some (b.value.getLsbD (b.len - 1)) else none

/-- `pop_front(s)` (R135). -/
def BitSeq.popFront {w : Nat} (b : BitSeq w) : Option (BitSeq w) :=
  if 1 ≤ b.len then some { value := b.value >>> 1, len := b.len - 1 } else none

/-- `pop_back(s)` (R136). -/
def BitSeq.popBack {w : Nat} (b : BitSeq w) : Option (BitSeq w) :=
  if 1 ≤ b.len then some { value := b.value, len := b.len - 1 } else none

/-- `s[i]` (R137). -/
def BitSeq.at {w : Nat} (b : BitSeq w) (i : Nat) : Option Bool := if i < b.len then some (b.value.getLsbD i) else none

/-- `slice(s, i, j)` (R138); `value >> W = 0` (R143). -/
def BitSeq.slice {w : Nat} (b : BitSeq w) (i j : Nat) : Option (BitSeq w) :=
  if i ≤ j ∧ j ≤ b.len then some { value := b.value >>> i, len := j - i } else none

/-- `dup(s)` (R139): two independent cursors over the same value. -/
def BitSeq.dup {w : Nat} (b : BitSeq w) : BitSeq w × BitSeq w := (b, b)

/-- `to_list(s)` (R141). -/
def BitSeq.toList {w : Nat} (b : BitSeq w) : List Bool := (List.range b.len).map b.value.getLsbD

/-- The number whose bit `i` is element `i` of a list: the sum of `b_i * 2^i` (R141). -/
def bitsToNat : List Bool → Nat
  | []      => 0
  | b :: bs => b.toNat + 2 * bitsToNat bs

/-- `from_list` (R141), for a list of at most `W` bits. -/
def BitSeq.fromList (w : Nat) (bs : List Bool) : Option (BitSeq w) :=
  if bs.length ≤ w then some { value := BitVec.ofNat w (bitsToNat bs), len := bs.length } else none

/-- Equality as sequences (R141). -/
def BitSeq.sameSeq {v w : Nat} (a : BitSeq v) (b : BitSeq w) : Bool := decide (a.toList = b.toList)

/-- The reversed view of a Bit Sequence (R140): it enumerates the same value from the back. -/
structure Reversed (w : Nat) where
  base : BitSeq w
deriving DecidableEq, Repr

/-- `reversed(s)` (R140). -/
def BitSeq.reversed {w : Nat} (b : BitSeq w) : Reversed w := { base := b }

/-- Element `i` of `reversed(s)` is `value[len-1-i]` (R140). -/
def Reversed.at {w : Nat} (r : Reversed w) (i : Nat) : Option Bool :=
  if i < r.base.len then some (r.base.value.getLsbD (r.base.len - 1 - i)) else none

/-- The `front` of `reversed(s)` is `back(s)` (R140). -/
def Reversed.front {w : Nat} (r : Reversed w) : Option Bool := r.base.back

/-- The `back` of `reversed(s)` is `front(s)` (R140). -/
def Reversed.back {w : Nat} (r : Reversed w) : Option Bool := r.base.front

/-- The `pop_front` of `reversed(s)` is `pop_back(s)` (R140). -/
def Reversed.popFront {w : Nat} (r : Reversed w) : Option (Reversed w) := r.base.popBack.map BitSeq.reversed

/-- The `pop_back` of `reversed(s)` is `pop_front(s)` (R140). -/
def Reversed.popBack {w : Nat} (r : Reversed w) : Option (Reversed w) := r.base.popFront.map BitSeq.reversed

/-- The list of a reversed view (R140, R141). -/
def Reversed.toList {w : Nat} (r : Reversed w) : List Bool :=
  (List.range r.base.len).map fun i => r.base.value.getLsbD (r.base.len - 1 - i)

end Sys2Proof.Machine
end

