-- ==== Sys2Proof/Machine/Encoder.lean ====
section
/-!
DEFINITION. symbol_encoder (43_encoder.md R201 to R205): `ENC1`, `EOPEN`, `EPUSH`, `EEND`, `EPULL`.
-/

namespace Sys2Proof.Machine

/-- The Bit Sequence a packed codeword stands for, `bits(cw_bits(w), cw_len(w))` (30_encoding.md R92).
DESIGN CHOICE (log entry 8): the function is total, but for a length field of 58 to 127, which no codeword of the block has
(R92), `bits` has no meaning (40_bitseq.md R142), and what stands here then is no Bit Sequence (`BitSeq.wf` fails). -/
def codewordSeq (w : Codeword) : BitSeq 57 := { value := cwBits w, len := (cwLen w).toNat }

/-- The encoder's cursor `(E_VAL, E_LEN)` as a Bit Sequence (10_state.md R28, 40_bitseq.md R144). DESIGN CHOICE (log
entry 8): the function is total, but for an `E_LEN` above `PAY_W`, which no run reaches, it gives no Bit Sequence. -/
def Of.EncStream.seq {payW lenW : Nat} (e : Of.EncStream payW lenW) : BitSeq payW := { value := e.val, len := e.len.toNat }

section Of

variable {cntW wgtW symW nodeW nnodesW idxW wsumW cwW payW lenW stW opcW argW reqW dataW : Nat}
variable (p : Params) (s : Of.State cntW wgtW symW nodeW nnodesW idxW wsumW cwW payW lenW stW opcW argW reqW dataW)

/-- `ENC1 s` (R201). -/
def Of.enc1 (a : BitVec symW) :
    Of.Outcome (Of.State cntW wgtW symW nodeW nnodesW idxW wsumW cwW payW lenW stW opcW argW reqW dataW) :=
  guarded .enc1 (a.setWidth argW) s <|
    withWord (lookup p a s) fun found =>
      match found with
      | none   => fail .unknownSymbol .enc1 (a.setWidth argW) s
      | some i => withWord (fetch p .ct s.enc.ct i) fun w => respond .ok (w.setWidth dataW) s

/-- `EOPEN` (R202). -/
def Of.eopen :
    Of.Outcome (Of.State cntW wgtW symW nodeW nnodesW idxW wsumW cwW payW lenW stW opcW argW reqW dataW) :=
  guarded .eopen 0 s <| respond .ok 0 { s with est := { state := .run, eoi := false, val := 0, len := 0 } }

/-- `EPUSH s` (R203). An unknown symbol first sends the stream to `E_FAULT` with an empty cursor. -/
def Of.epush (a : BitVec symW) :
    Of.Outcome (Of.State cntW wgtW symW nodeW nnodesW idxW wsumW cwW payW lenW stW opcW argW reqW dataW) :=
  guarded .epush (a.setWidth argW) s <|
    if s.est.eoi then fail .errState .epush (a.setWidth argW) s
    else if s.est.len ≠ 0 then fail .errNotReady .epush (a.setWidth argW) s
    else withWord (lookup p a s) fun found =>
      match found with
      | none   =>
        fail .unknownSymbol .epush (a.setWidth argW) { s with est := { s.est with state := .fault, val := 0, len := 0 } }
      | some i => withWord (fetch p .ct s.enc.ct i) fun w =>
        respond .ok 0 { s with est := { s.est with val := Of.cwBits w, len := Of.cwLen w } }

/-- `EEND` (R204). -/
def Of.eend :
    Of.Outcome (Of.State cntW wgtW symW nodeW nnodesW idxW wsumW cwW payW lenW stW opcW argW reqW dataW) :=
  guarded .eend 0 s <|
    if s.est.eoi then fail .errState .eend 0 s
    else respond .ok 0 { s with est := { s.est with eoi := true } }

/-- `EPULL` (R205): `front` and `pop_front` of the cursor (40_bitseq.md R133, R135), or `END`, or `NEED_INPUT`. -/
def Of.epull :
    Of.Outcome (Of.State cntW wgtW symW nodeW nnodesW idxW wsumW cwW payW lenW stW opcW argW reqW dataW) :=
  guarded .epull 0 s <|
    if 0 < s.est.len.toNat then
      respond .ok (bitData (s.est.val.getLsbD 0))
        { s with est := { s.est with val := s.est.val >>> 1, len := s.est.len - 1 } }
    else if s.est.eoi then respond .endOfSeq 0 s
    else respond .needInput 0 s

end Of

/-- `ENC1 s` on this hardware. -/
def execEnc1 (a : Sym) (s : State) : StepOutcome := Of.enc1 Params.hfc s a

/-- `EOPEN` on this hardware. -/
def execEopen (s : State) : StepOutcome := Of.eopen s

/-- `EPUSH s` on this hardware. -/
def execEpush (a : Sym) (s : State) : StepOutcome := Of.epush Params.hfc s a

/-- `EEND` on this hardware. -/
def execEend (s : State) : StepOutcome := Of.eend s

/-- `EPULL` on this hardware. -/
def execEpull (s : State) : StepOutcome := Of.epull s

end Sys2Proof.Machine
end

