-- ==== Sys2Proof/Machine/Loader.lean ====
section
/-!
DEFINITION. Loading (41_tree_builder.md R150, R151): `LDW`, `LDA`.
-/

namespace Sys2Proof.Machine

section Of

variable {cntW wgtW symW nodeW nnodesW idxW wsumW cwW payW lenW stW opcW argW reqW dataW : Nat}
variable (p : Params) (s : Of.State cntW wgtW symW nodeW nnodesW idxW wsumW cwW payW lenW stW opcW argW reqW dataW)

/-- `LDW w` (R150). -/
def Of.ldw (w : BitVec wgtW) :
    Of.Outcome (Of.State cntW wgtW symW nodeW nnodesW idxW wsumW cwW payW lenW stW opcW argW reqW dataW) :=
  guarded .ldw (w.setWidth argW) s <|
    if s.load.wcnt.toNat = p.nMax then fail .errCapacity .ldw (w.setWidth argW) s
    else withWord (store p .wmem s.load.wmem s.load.wcnt.toNat w) fun m =>
      respond .ok 0 { s with load := { s.load with wmem := m, wcnt := s.load.wcnt + 1 } }

/-- `LDA s` (R151). -/
def Of.lda (a : BitVec symW) :
    Of.Outcome (Of.State cntW wgtW symW nodeW nnodesW idxW wsumW cwW payW lenW stW opcW argW reqW dataW) :=
  guarded .lda (a.setWidth argW) s <|
    if s.load.acnt.toNat = p.nMax then fail .errCapacity .lda (a.setWidth argW) s
    else withWord (store p .amem s.load.amem s.load.acnt.toNat a) fun m =>
      respond .ok 0 { s with load := { s.load with amem := m, acnt := s.load.acnt + 1 } }

end Of

/-- `LDW w` on this hardware. -/
def execLdw (w : Weight) (s : State) : StepOutcome := Of.ldw Params.hfc s w

/-- `LDA s` on this hardware. -/
def execLda (a : Sym) (s : State) : StepOutcome := Of.lda Params.hfc s a

end Sys2Proof.Machine
end

