-- ==== Sys2Proof/Machine/System.lean ====
section
/-!
DEFINITION. The system and inspection commands (45_system.md): `NOP`, `CLR`, `STAT`, `RDN`, `RDC`.
-/

namespace Sys2Proof.Machine

section Of

variable {cntW wgtW symW nodeW nnodesW idxW wsumW cwW payW lenW stW opcW argW reqW dataW : Nat}
variable (p : Params) (s : Of.State cntW wgtW symW nodeW nnodesW idxW wsumW cwW payW lenW stW opcW argW reqW dataW)

/-- `NOP` (R260): "do nothing". -/
def Of.nop :
    Of.Outcome (Of.State cntW wgtW symW nodeW nnodesW idxW wsumW cwW payW lenW stW opcW argW reqW dataW) :=
  guarded .nop 0 s <| respond .ok 0 s

/-- `CLR` (R261): every register at its reset value, no memory word with a value; "the architectural state is
indistinguishable from the state after a hardware reset". The port is not architectural state: the host's pending
events stay, and the command is answered. -/
def Of.clr :
    Of.Outcome (Of.State cntW wgtW symW nodeW nnodesW idxW wsumW cwW payW lenW stW opcW argW reqW dataW) :=
  guarded .clr 0 s <| respond .ok 0 (hardwareReset s)

/-- `STAT r` (R262). -/
def Of.stat (r : BitVec 4) :
    Of.Outcome (Of.State cntW wgtW symW nodeW nnodesW idxW wsumW cwW payW lenW stW opcW argW reqW dataW) :=
  guarded .stat (r.setWidth argW) s <|
    match statusRegister s p r with
    | none   => fail .errRange .stat (r.setWidth argW) s
    | some d => respond .ok d s

/-- `RDN k` (R263). -/
def Of.rdn (k : BitVec nodeW) :
    Of.Outcome (Of.State cntW wgtW symW nodeW nnodesW idxW wsumW cwW payW lenW stW opcW argW reqW dataW) :=
  guarded .rdn (k.setWidth argW) s <|
    if s.enc.nnodes.toNat ≤ k.toNat then fail .errRange .rdn (k.setWidth argW) s
    else withWord (fetch p .node s.enc.node k.toNat) fun found => respond .ok (nodeWord found) s

/-- `RDC i` (R264). -/
def Of.rdc (c : BitVec idxW) :
    Of.Outcome (Of.State cntW wgtW symW nodeW nnodesW idxW wsumW cwW payW lenW stW opcW argW reqW dataW) :=
  guarded .rdc (c.setWidth argW) s <|
    if s.enc.n.toNat ≤ c.toNat then fail .errRange .rdc (c.setWidth argW) s
    else withWord (fetch p .ct s.enc.ct c.toNat) fun w => respond .ok (w.setWidth dataW) s

end Of

/-- `NOP` on this hardware. -/
def execNop (s : State) : StepOutcome := Of.nop s

/-- `CLR` on this hardware. -/
def execClr (s : State) : StepOutcome := Of.clr s

/-- `STAT r` on this hardware. -/
def execStat (r : BitVec 4) (s : State) : StepOutcome := Of.stat Params.hfc s r

/-- `RDN k` on this hardware. -/
def execRdn (k : NodeIdx) (s : State) : StepOutcome := Of.rdn Params.hfc s k

/-- `RDC i` on this hardware. -/
def execRdc (c : AlphaIdx) (s : State) : StepOutcome := Of.rdc Params.hfc s c

end Sys2Proof.Machine
end

