-- ==== Sys2Proof/Machine/Dispatch.lean ====
section
/-!
DEFINITION. The meaning of each command: one arm per constructor of `Instr`, after decoding (30_encoding.md R96 steps 3
and 4).
-/

namespace Sys2Proof.Machine

def exec (i : Instr) (s : State) : Host.Outcome State Fault Refusal :=
  match i with
  | .nop => Sys2Proof.Machine.execNop s
  | .clr => Sys2Proof.Machine.execClr s
  | .ldw w => Sys2Proof.Machine.execLdw w s
  | .lda a => Sys2Proof.Machine.execLda a s
  | .build => Sys2Proof.Machine.execBuild s
  | .stat r => Sys2Proof.Machine.execStat r s
  | .enc1 a => Sys2Proof.Machine.execEnc1 a s
  | .eopen => Sys2Proof.Machine.execEopen s
  | .epush a => Sys2Proof.Machine.execEpush a s
  | .eend => Sys2Proof.Machine.execEend s
  | .epull => Sys2Proof.Machine.execEpull s
  | .dopen => Sys2Proof.Machine.execDopen s
  | .dpush b => Sys2Proof.Machine.execDpush b s
  | .dend => Sys2Proof.Machine.execDend s
  | .dpull => Sys2Proof.Machine.execDpull s
  | .rdn k => Sys2Proof.Machine.execRdn k s
  | .rdc c => Sys2Proof.Machine.execRdc c s

end Sys2Proof.Machine
end

