-- ==== Sys2Proof/Machine/Step.lean ====
section
/-!
DEFINITION. One step of the block: take the next event of the host and act on it (00_scope.md R6, 30_encoding.md R96,
70_reset_and_hazards.md R340).
-/

namespace Sys2Proof.Machine

/-- Execute one request: `ERR_ILLEGAL` where it does not decode (30_encoding.md R96 steps 1 and 2, R98), else the
command. -/
def command (r : Request) (s : State) : StepOutcome :=
  match decode r with
  | .error _ => raise .errIllegal r.opc r.arg s
  | .ok i    => exec i s

/-- One step. With nothing pending the block is idle and holds its state (60_exceptions.md R305, 70_reset_and_hazards.md
R341). -/
def step (s : State) : Host.Outcome State Fault Refusal :=
  match takeEvent s with
  | none                 => .next s
  | some (.reset _, t)   => .next (hardwareReset t)
  | some (.request r, t) => command r t

/-- `s` with the request word `w` (bits above `nbits` are 0) as the next event of the host, so that the next step
executes exactly it. -/
def State.withFetchWord (s : State) (nbits w : Nat) : State :=
  s.withPending (.request (BitVec.ofNat 40 (w % 2 ^ nbits)) :: s.port.pending)

end Sys2Proof.Machine
end

