-- ==== Sys2Proof/Machine/Assembler.lean ====
section
/-!
DEFINITION. The assembler notation (30_encoding.md R101) and the pseudo-instructions (R102): a line of text to request
words, and a response to text. No rule of the machine depends on this file. What the notation leaves open is log entry 12.
-/

namespace Sys2Proof.Machine

/-- A command as written: mnemonic and operand number (R101). -/
structure Line where
  mnemonic : Mnemonic
  operand  : Nat
deriving DecidableEq, Repr

/-- "The request word of a line is `{opc, zext_32(operand)}`" (R101); no word for an operand above 32 bits. -/
def Line.request (l : Line) : Option Request :=
  if l.operand < 2 ^ 32 then some (Request.make l.mnemonic.opc (BitVec.ofNat 32 l.operand)) else none

/-- A pseudo-instruction (R102). -/
inductive Pseudo where
  | load (w a : Nat)
  | ldws (ws : List Nat)
  | ldas (codes : List Nat)
  | reset
deriving DecidableEq, Repr

/-- The fixed expansion of a pseudo-instruction (R102). -/
def Pseudo.expand : Pseudo → List Line
  | .load w a => [{ mnemonic := .ldw, operand := w }, { mnemonic := .lda, operand := a }]
  | .ldws ws  => ws.map fun w => { mnemonic := .ldw, operand := w }
  | .ldas cs  => cs.map fun c => { mnemonic := .lda, operand := c }
  | .reset    => [{ mnemonic := .clr, operand := 0 }]

/-- The mnemonics in upper case (R101). -/
def Mnemonic.text : Mnemonic → List Char
  | .nop   => "NOP".toList
  | .clr   => "CLR".toList
  | .ldw   => "LDW".toList
  | .lda   => "LDA".toList
  | .build => "BUILD".toList
  | .stat  => "STAT".toList
  | .enc1  => "ENC1".toList
  | .eopen => "EOPEN".toList
  | .epush => "EPUSH".toList
  | .eend  => "EEND".toList
  | .epull => "EPULL".toList
  | .dopen => "DOPEN".toList
  | .dpush => "DPUSH".toList
  | .dend  => "DEND".toList
  | .dpull => "DPULL".toList
  | .rdn   => "RDN".toList
  | .rdc   => "RDC".toList

/-- All mnemonics, in opcode order (R94). -/
def Mnemonic.all : List Mnemonic :=
  [.nop, .clr, .ldw, .lda, .build, .stat, .enc1, .eopen, .epush, .eend, .epull, .dopen, .dpush, .dend, .dpull, .rdn, .rdc]

/-- The value of a digit in a base of at most 16. -/
def digitValue (base : Nat) (c : Char) : Option Nat :=
  let n := c.toNat
  let v := if 0x30 ≤ n ∧ n ≤ 0x39 then n - 0x30 else if 0x41 ≤ n ∧ n ≤ 0x46 then n - 0x37
    else if 0x61 ≤ n ∧ n ≤ 0x66 then n - 0x57 else 16
  if v < base then some v else none

/-- The number of the rest of a digit string, from the value of the digits before it; `_` separates (00_scope.md R9).
DESIGN CHOICE (log entry 12): R9 says only that underscores are separators, so one underscore may stand between two
digits; a leading, trailing or doubled underscore makes the text no number. -/
def digitsValue (base : Nat) : List Char → Nat → Option Nat
  | [], acc => some acc
  | '_' :: c :: cs, acc => (digitValue base c).bind fun v => digitsValue base cs (acc * base + v)
  | c :: cs, acc => (digitValue base c).bind fun v => digitsValue base cs (acc * base + v)

/-- The number of a digit string. DESIGN CHOICE (log entry 12): a string without a digit (`_`, `0x_`) is no number. -/
def numberValue (base : Nat) : List Char → Option Nat
  | [] => none
  | c :: cs => (digitValue base c).bind fun v => digitsValue base cs v

/-- The code of a character (R101). DESIGN CHOICE (log entry 12): R101 gives ASCII codes only, so a character that has
none is no operand. -/
def asciiCode (c : Char) : Option Nat := if c.toNat < 128 then some c.toNat else none

/-- A number operand: decimal, `0x` hexadecimal or `0b` binary (R101). -/
def numberOperand : List Char → Option Nat
  | '0' :: 'x' :: cs => numberValue 16 cs
  | '0' :: 'b' :: cs => numberValue 2 cs
  | cs => numberValue 10 cs

/-- A symbol operand: a number, or a character in single quotes (R101). -/
def symbolOperand : List Char → Option Nat
  | ['\'', c, '\''] => asciiCode c
  | cs => numberOperand cs

/-- The operand of a command as written: "for a symbol operand" also a quoted character (R101). -/
def Mnemonic.operandValue (cs : List Char) : Mnemonic → Option Nat
  | .lda | .enc1 | .epush => symbolOperand cs
  | .ldw | .stat | .dpush | .rdn | .rdc => numberOperand cs
  | .nop | .clr | .build | .eopen | .eend | .epull | .dopen | .dend | .dpull => if cs = [] then some 0 else none

/-- Split at a separator; `inText` says that a text in double quotes is open, `part` is the current piece reversed. DESIGN
CHOICE (log entry 12): R101 does not say how quotes meet `;` and `,`. A separator inside a quoted character or inside a
text in double quotes separates nothing; a quoted character is exactly a single quote, one character and a single quote; a
text ends at the next double quote; any other single quote is an ordinary character. -/
def splitOutside (sep : Char) : List Char → Bool → List Char → List (List Char)
  | [], _, part => [part.reverse]
  | '\'' :: c :: '\'' :: cs, false, part => splitOutside sep cs false ('\'' :: c :: '\'' :: part)
  | c :: cs, inText, part =>
    if inText then splitOutside sep cs (decide (c ≠ '"')) (c :: part)
    else if c = sep then part.reverse :: splitOutside sep cs false []
    else splitOutside sep cs (decide (c = '"')) (c :: part)

/-- A text without the spaces at its ends. -/
def trimmed (cs : List Char) : List Char := ((cs.dropWhile (· = ' ')).reverse.dropWhile (· = ' ')).reverse

/-- The pieces between commas, trimmed. -/
def commaParts (cs : List Char) : List (List Char) := (splitOutside ',' cs false []).map trimmed

/-- The characters of a text in double quotes, none of them a double quote (DESIGN CHOICE, log entry 12). -/
def quotedText : List Char → Option (List Char)
  | '"' :: cs => if cs.getLast? = some '"' ∧ '"' ∉ cs.dropLast then some cs.dropLast else none
  | _ => none

/-- A line of source as commands (R101, R102): the mnemonic, and its operands where it takes any. -/
def parseLine (text : List Char) : Option (List Line) :=
  let body := trimmed ((splitOutside ';' text false []).headD [])
  let word := body.takeWhile (· ≠ ' ')
  let rest := trimmed (body.dropWhile (· ≠ ' '))
  if body = [] then some []
  else if word = "RESET".toList then (if rest = [] then some (Pseudo.expand .reset) else none)
  else if word = "LDAS".toList then
    (((quotedText rest).filter (· ≠ [])).bind fun cs => cs.mapM asciiCode).map fun cs => Pseudo.expand (.ldas cs)
  else if word = "LDWS".toList then ((commaParts rest).mapM numberOperand).map fun ws => Pseudo.expand (.ldws ws)
  else if word = "LOAD".toList then
    match commaParts rest with
    | [w, a] => (numberOperand w).bind fun w => (symbolOperand a).map fun a => Pseudo.expand (.load w a)
    | _      => none
  else
    match Mnemonic.all.find? fun m => Mnemonic.text m = word with
    | none => none
    | some m => (Mnemonic.operandValue rest m).map fun v => [{ mnemonic := m, operand := v }]

/-- The request words of a line of source (R101, R102). -/
def assemble (text : List Char) : Option (List Request) := (parseLine text).bind fun ls => ls.mapM Line.request

/-- The name of a status (30_encoding.md R95). -/
def Status.text : Status → List Char
  | .ok             => "OK".toList
  | .needInput      => "NEED_INPUT".toList
  | .endOfSeq       => "END".toList
  | .errIllegal     => "ERR_ILLEGAL".toList
  | .errState       => "ERR_STATE".toList
  | .errNotReady    => "ERR_NOT_READY".toList
  | .errCapacity    => "ERR_CAPACITY".toList
  | .errRange       => "ERR_RANGE".toList
  | .lengthMismatch => "LengthMismatch".toList
  | .emptyAlphabet  => "EmptyAlphabet".toList
  | .treeTooDeep    => "TreeTooDeep".toList
  | .unknownSymbol  => "UnknownSymbol".toList

/-- The low `k` hexadecimal digits of a number, most significant first. -/
def hexDigits : Nat → Nat → List Char
  | 0, _ => []
  | k + 1, n => hexDigits k (n / 16) ++ ["0123456789ABCDEF".toList.getD (n % 16) '0']

/-- A request word as written: "10 hexadecimal digits" (R101). -/
def Request.text (r : Request) : List Char := "0x".toList ++ hexDigits 10 r.toNat

/-- A response as written after the arrow (R101): "the status name and, if not zero, the data in hexadecimal". -/
def Of.Response.text (rsp : Of.Response 64) : List Char :=
  if rsp.data = 0 then rsp.st.text else rsp.st.text ++ " 0x".toList ++ hexDigits 16 rsp.data.toNat

end Sys2Proof.Machine
end

