-- ==== Sys2Proof/Machine/Procedures.lean ====
section
/-!
DEFINITION. The host procedures of 70_reset_and_hazards.md R342 to R344: which command the host issues next, given the
responses so far. They run the machine of Step.lean one request at a time; a bound on the number of turns makes them
total (log entry 13).
-/

namespace Sys2Proof.Machine

/-- The host issues one command, as its request word, and reads the response. `none` if the model stops. -/
def issue (i : Instr) (s : State) : Option (Response × State) :=
  match command (encode i) s with
  | .next t    => t.port.response.map fun rsp => (rsp, t)
  | .fault _   => none
  | .refused _ => none

/-- The host issues commands in order and collects the responses. -/
def issueAll : List Instr → State → Option (List Response × State)
  | [], s => some ([], s)
  | i :: is, s =>
    match issue i s with
    | none => none
    | some (rsp, t) => (issueAll is t).map fun (rsps, u) => (rsp :: rsps, u)

/-- How a host procedure ends: with its result; because a response was not one it expects (an `UnknownSymbol` among
them); or not within the turns given. -/
inductive ProcEnd (α : Type) where
  | returned (out : α) (s : State)
  | stopped (s : State)
  | unfinished
deriving Repr

/-- Go on if the command is answered `OK`, else stop. -/
def issueOk {α : Type} (i : Instr) (s : State) (k : State → ProcEnd α) : ProcEnd α :=
  match issue i s with
  | none          => .stopped s
  | some (rsp, t) => if rsp.st = .ok then k t else .stopped t

/-- The commands of bring-up, steps 2 and 3 of R342. -/
def bringUp (weights : List Weight) (alphabet : List Sym) : List Instr :=
  weights.map Instr.ldw ++ alphabet.map Instr.lda ++ [.build]

/-- The loop of `encode_all` (R343): the symbols not yet pushed, and the bits pulled so far. -/
def encodeLoop : Nat → List Sym → List Bool → State → ProcEnd (List Bool)
  | 0, _, _, _ => .unfinished
  | turns + 1, syms, out, s =>
    match issue .epull s with
    | none => .stopped s
    | some (rsp, t) =>
      match rsp.st with
      | .ok        => encodeLoop turns syms (out ++ [rsp.data.getLsbD 0]) t
      | .needInput =>
        match syms with
        | a :: rest => issueOk (.epush a) t (encodeLoop turns rest out)
        | []        => issueOk .eend t (encodeLoop turns [] out)
      | .endOfSeq  => .returned out t
      | _          => .stopped t

/-- `encode_all(s_1 ... s_m)` (R343). -/
def encodeAll (turns : Nat) (syms : List Sym) (s : State) : ProcEnd (List Bool) :=
  issueOk .eopen s (encodeLoop turns syms [])

/-- The loop of `decode_all` (R344): the bits not yet pushed, and the symbols pulled so far. -/
def decodeLoop : Nat → List Bool → List Sym → State → ProcEnd (List Sym)
  | 0, _, _, _ => .unfinished
  | turns + 1, bits, out, s =>
    match issue .dpull s with
    | none => .stopped s
    | some (rsp, t) =>
      match rsp.st with
      | .ok        => decodeLoop turns bits (out ++ [rsp.data.setWidth 8]) t
      | .needInput =>
        match bits with
        | b :: rest => issueOk (.dpush (BitVec.ofBool b)) t (decodeLoop turns rest out)
        | []        => issueOk .dend t (decodeLoop turns [] out)
      | .endOfSeq  => .returned out t
      | _          => .stopped t

/-- `decode_all(b_1 ... b_m)` (R344). -/
def decodeAll (turns : Nat) (bits : List Bool) (s : State) : ProcEnd (List Sym) :=
  issueOk .dopen s (decodeLoop turns bits [])

/-- Pull exactly `k` symbols, what the host does in place of `decode_all` when `N = 1` (R344, 44_decoder.md R237). -/
def pullSymbols : Nat → List Sym → State → ProcEnd (List Sym)
  | 0, out, s => .returned out s
  | k + 1, out, s =>
    match issue .dpull s with
    | none          => .stopped s
    | some (rsp, t) => if rsp.st = .ok then pullSymbols k (out ++ [rsp.data.setWidth 8]) t else .stopped t

end Sys2Proof.Machine
end

