-- ==== Sys2Proof/Safety.lean ====
section
/-!
DEFINITION. What counts as a safe run: the invariant of the block (10_state.md R42 and the invariants of R28, R29, R31,
30_encoding.md R103), and the notions of tree, path and codeword that claims about the Encoding use.
-/

namespace Sys2Proof.Machine

/-! ## Trees, paths and codewords -/

/-- The node reached from node `k` by a list of edges, bit 0 to the left and bit 1 to the right child (20_memory.md
R63); `none` where a leaf has to be left or a record holds no value. -/
def follow (node : Mem Node) : NodeIdx → List Bool → Option NodeIdx
  | k, [] => some k
  | k, b :: bs =>
    match Mem.read node k.toNat with
    | some (.internal left right _) => follow node (if b then right else left) bs
    | _ => none

/-- The `left` and `right` fields of all records, in order. -/
def childRefs (node : Mem Node) : List NodeIdx :=
  node.flatMap fun cell =>
    match cell.2 with
    | .leaf _ _ => []
    | .internal left right _ => [left, right]

/-- The codeword of alphabet index `i` as the list of its bits, root to leaf (30_encoding.md R92). -/
def codewordBits (e : Encoding) (i : Nat) : List Bool :=
  match Mem.read e.ct i with
  | some w => (codewordSeq w).toList
  | none => []

/-- The smallest alphabet index that holds the symbol `a` is `i` (43_encoder.md R200). -/
def IsFirstIndex (s : State) (a : Sym) (i : Nat) : Prop :=
  i < s.enc.n.toNat ∧ Mem.read s.load.amem i = some a ∧ ∀ j, j < i → Mem.read s.load.amem j ≠ some a

/-- The symbol `a` has no table entry (43_encoder.md R200). -/
def NotInAlphabet (s : State) (a : Sym) : Prop := ∀ i, i < s.enc.n.toNat → Mem.read s.load.amem i ≠ some a

/-! ## The invariant -/

/-- The load state: `WCNT` weights at the indices `0..WCNT-1` and nowhere else, `ACNT` symbols likewise, neither count
above `NMAX` (10_state.md R21, R44). -/
structure LoadOk (l : LoadState) : Prop where
  wcnt_le : l.wcnt.toNat ≤ 256
  acnt_le : l.acnt.toNat ≤ 256
  wmem_dom : Mem.dom l.wmem = List.range l.wcnt.toNat
  amem_dom : Mem.dom l.amem = List.range l.acnt.toNat

/-- The tree of `n` weights in `node` (10_state.md R42 (b), (c), (d)): leaves at `0..n-1`, internal nodes at `n..2n-2`,
each child of a lower index, each node but the root `2n-2` the child of exactly one node, sums exact. -/
structure TreeOk (wmem : Mem Weight) (n : Nat) (node : Mem Node) : Prop where
  dom : Mem.dom node = List.range (2 * n - 1)
  leaf : ∀ i, i < n → ∃ w, Mem.read wmem i = some w ∧
    Mem.read node i = some (.leaf (BitVec.ofNat 8 i) (w.setWidth 40))
  internal : ∀ k, n ≤ k → k < 2 * n - 1 → ∃ left right weight nl nr,
    Mem.read node k = some (.internal left right weight) ∧
    left.toNat < k ∧ right.toNat < k ∧ left ≠ right ∧
    Mem.read node left.toNat = some nl ∧ Mem.read node right.toNat = some nr ∧
    weight.toNat = nl.weight.toNat + nr.weight.toNat
  refs : ((childRefs node).map BitVec.toNat).Perm (List.range (2 * n - 2))

/-- The code table of a tree (10_state.md R42 (e)): the entry of each leaf packs its depth, at most 57, and the bits of
the path to it, zero above the depth. -/
structure TableOk (n : Nat) (node : Mem Node) (root : NodeIdx) (ct : Mem Codeword) : Prop where
  dom : Mem.dom ct = List.range n
  entry : ∀ i, i < n → ∃ w, Mem.read ct i = some w ∧ (cwLen w).toNat ≤ 57 ∧
    follow node root (codewordSeq w).toList = some (BitVec.ofNat 9 i) ∧
    ∀ d, (cwLen w).toNat ≤ d → (cwBits w).getLsbD d = false

/-- An Encoding of a load state (10_state.md R42 (a) to (e)). -/
structure EncodingOk (l : LoadState) (e : Encoding) : Prop where
  n_pos : 1 ≤ e.n.toNat
  n_le : e.n.toNat ≤ 256
  n_wcnt : e.n = l.wcnt
  n_acnt : e.n = l.acnt
  nnodes : e.nnodes.toNat = 2 * e.n.toNat - 1
  root : e.root.toNat = 2 * e.n.toNat - 2
  tree : TreeOk l.wmem e.n.toNat e.node
  table : TableOk e.n.toNat e.node e.root e.ct

/-- The encoder stream (10_state.md R28): at most 57 bits left, none set above them; the cursor is empty unless the
stream runs, and `E_EOI` is 0 while no stream was opened. -/
structure EncStreamOk (e : EncStream) : Prop where
  len_le : e.len.toNat ≤ 57
  high : ∀ d, e.len.toNat ≤ d → e.val.getLsbD d = false
  idle : e.state ≠ .run → e.val = 0 ∧ e.len = 0
  closed : e.state = .closed → e.eoi = false

/-- The decoder stream (10_state.md R29), given the Encoding: `D_CUR` is a node in use while a stream is open, and the
three invariants of R29. -/
structure DecStreamOk (e : Encoding) (d : DecStream) : Prop where
  cur_lt : d.state ≠ .closed → d.cur.toNat < e.nnodes.toNat
  atRoot : d.state = .atRoot → d.cur = e.root
  trav : d.state = .trav → d.cur ≠ e.root
  exh : d.state = .exh → d.eoi = true ∧ ∃ left right weight,
    Mem.read e.node d.cur.toNat = some (.internal left right weight)
  closed : d.state = .closed → d.eoi = false ∧ d.cur = 0

/-- The error record (10_state.md R31): clear, or the code of an error status with the request it answered. -/
def ErrOk (r : ErrRecord) : Prop := r = { code := 0, opc := 0, arg := 0 } ∨ ∃ st : Status, st.isError ∧ r.code = st.code

/-- The last response: no data unless the status is `OK` (30_encoding.md R103). -/
def PortOk (p : Port) : Prop := ∀ rsp, p.response = some rsp → rsp.st ≠ .ok → rsp.data = 0

/-- The invariant of the block. In phase `LOAD` there is no Encoding and no stream (10_state.md R22, R23); that `NODE` and
`CT` then hold no value, also after a `TreeTooDeep`, is the model's choice (DESIGN CHOICE, log entry 4). In phase `READY` the Encoding is that of the load state (R42) and the streams are as R28 and R29 say. -/
structure BlockInv (s : State) : Prop where
  load : LoadOk s.load
  loadPhase : s.phase = .load → s.enc = State.reset.enc ∧ s.est = State.reset.est ∧ s.dst = State.reset.dst
  readyPhase : s.phase = .ready → EncodingOk s.load s.enc
  encStream : EncStreamOk s.est
  decStream : DecStreamOk s.enc s.dst
  err : ErrOk s.err
  port : PortOk s.port

/-- A safe run: no number of steps ends in a fault or a refusal (70_reset_and_hazards.md R355). -/
def Safe (s : State) : Prop := ∀ k, ∃ t : State, Host.Core.run Sys2Proof.core k s = .next t

end Sys2Proof.Machine
end

