-- ==== Sys2Proof/Certificates/Slice0/Obligations.lean ====
section
/-!
DEFINITION. The statements for the provers, one per rule or group of rules of spec/. `okState`, `errState` and the other
definitions before the obligations are the vocabulary of the statements; they spell out what the rules say and call no
meaning of the machine.
-/

namespace Sys2Proof.Machine

/-- `s` with the response `OK`, `data = d`, at the port. -/
def okState (s : State) (d : Data) : State := { s with port := { s.port with response := some { st := .ok, data := d } } }

/-- `s` after an error (60_exceptions.md R293): the error record holds the code, the opcode and the operand, and the
response has the error status and no data. -/
def errState (s : State) (st : Status) (code : BitVec 8) (opc : Opcode) (arg : Arg) : State :=
  { s with
    err := { code := code, opc := opc, arg := arg }
    port := { s.port with response := some { st := st, data := 0 } } }

/-- The conditions of 30_encoding.md R96, "Step 3 in full". -/
def Step3Holds (s : State) : Instr → Prop
  | .nop | .clr | .stat _ => True
  | .ldw _ | .lda _ | .build => s.phase = .load
  | .enc1 _ | .eopen | .dopen | .rdn _ | .rdc _ => s.phase = .ready
  | .epush _ | .eend | .epull => s.est.state = .run
  | .dpush _ | .dend => s.dst.state = .atRoot ∨ s.dst.state = .trav
  | .dpull => s.dst.state ≠ .closed

/-- The commands of the encoder (00_scope.md R5). -/
def IsEncoder : Instr → Prop
  | .enc1 _ | .eopen | .epush _ | .eend | .epull => True
  | .nop | .clr | .ldw _ | .lda _ | .build | .stat _ | .dopen | .dpush _ | .dend | .dpull | .rdn _ | .rdc _ => False

/-- The commands of the decoder (00_scope.md R5). -/
def IsDecoder : Instr → Prop
  | .dopen | .dpush _ | .dend | .dpull => True
  | .nop | .clr | .ldw _ | .lda _ | .build | .stat _ | .enc1 _ | .eopen | .epush _ | .eend | .epull
  | .rdn _ | .rdc _ => False

/-- The commands that 20_memory.md R68 calls reads without side effects, and `NOP`. -/
def IsReader : Instr → Prop
  | .nop | .stat _ | .rdn _ | .rdc _ | .enc1 _ => True
  | .clr | .ldw _ | .lda _ | .build | .eopen | .epush _ | .eend | .epull | .dopen | .dpush _ | .dend | .dpull => False

/-- The weight of alphabet position `i` as a number. -/
def weightAt (l : LoadState) (i : Nat) : Nat := ((Mem.read l.wmem i).map BitVec.toNat).getD 0

/-- The weight of node `k` as a number. -/
def nodeWeightAt (node : Mem Node) (k : Nat) : Nat := ((Mem.read node k).map fun record => record.weight.toNat).getD 0

/-- The symbol of alphabet position `i`. -/
def symbolAt (s : State) (i : Nat) : Sym := (Mem.read s.load.amem i).getD 0

/-- The symbols of an Encoding are pairwise different (93_implementation_defined.md U5). -/
def DistinctAlphabet (s : State) : Prop :=
  ∀ i j, i < s.enc.n.toNat → j < s.enc.n.toNat → i ≠ j → Mem.read s.load.amem i ≠ Mem.read s.load.amem j

/-- `bits` is the codewords of `indices`, then `tail`, a proper beginning of a codeword (42_code_table.md R185). -/
def SplitsAs (e : Encoding) (bits : List Bool) (indices : List Nat) (tail : List Bool) : Prop :=
  (∀ i ∈ indices, i < e.n.toNat) ∧ bits = indices.flatMap (codewordBits e) ++ tail ∧
  ∃ j rest, j < e.n.toNat ∧ rest ≠ [] ∧ codewordBits e j = tail ++ rest

/-- The stacks and tables that the loop of 42_code_table.md R183 passes through. -/
inductive StackReach (node : Mem Node) (root : NodeIdx) : List Frame → Mem Codeword → Prop where
  | start : StackReach node root [{ node := root, depth := 0, acc := 0 }] []
  | turn {stack stack' : List Frame} {table table' : Mem Codeword} :
      StackReach node root stack table →
      stackTurn Params.hfc node stack table = some (.ok (stack', table')) → StackReach node root stack' table'

end Sys2Proof.Machine

open Sys2Proof Sys2Proof.Machine

/-! ## Encoding -/

/-- Words written out bit by bit from R90, R94, R97, and two illegal ones. -/
def Obligations.WrittenWordsDecode : Prop :=
  decode 0x0000000000 = .ok .nop ∧ decode 0x0200000016 = .ok (.ldw 22) ∧ decode 0x0300000061 = .ok (.lda 0x61) ∧
  decode 0x0500000007 = .ok (.stat 7) ∧ decode 0x0A00000062 = .ok (.epush 0x62) ∧
  decode 0x1100000001 = .ok (.dpush 1) ∧ decode 0x18000001FE = .ok (.rdn 510) ∧
  decode 0x19000000FF = .ok (.rdc 255) ∧ decode 0x0600000000 = .error (.reservedOpcode 0x06) ∧
  decode 0x0400000001 = .error (.operandBits .build 1)

/-- Every command, with every operand, is read back from its request word. -/
def Obligations.DecodeReadsBackEveryCommand : Prop := ∀ i : Instr, decode (encode i) = .ok i

/-- A request word has one reading: a word that decodes is the word of its command. -/
def Obligations.DecodedWordIsTheEncoding : Prop := ∀ (r : Request) (i : Instr), decode r = .ok i → encode i = r

/-- R98: a request is legal iff it matches exactly one row of opcode_table.json. -/
def Obligations.LegalIffExactlyOneRowMatches : Prop :=
  ∀ r : Request,
    (∀ i, decode r = .ok i → ∃ row ∈ opcodeTable, row.mnemonic = i.mnemonic ∧ r &&& row.mask = row.pattern ∧
      ∀ row' ∈ opcodeTable, r &&& row'.mask = row'.pattern → row' = row) ∧
    (∀ e, decode r = .error e → ∀ row ∈ opcodeTable, r &&& row.mask ≠ row.pattern)

/-! ## The step -/

/-- A step runs the decoded command of the host's next request, with the request taken from the port. The queue of host
events is the model's choice (log entry 1). -/
def Obligations.StepRunsDecodedCommand : Prop :=
  ∀ (s : State) (r : Request) (rest : List HostEvent) (i : Instr),
    s.port.pending = .request r :: rest → decode r = .ok i →
    step s = exec i { s with port := { s.port with pending := rest } }

/-- R98: an illegal request is answered `ERR_ILLEGAL` with `data = 0`, records itself, and changes nothing else. -/
def Obligations.IllegalRequestAnswersErrIllegal : Prop :=
  ∀ (s : State) (r : Request) (rest : List HostEvent),
    s.port.pending = .request r :: rest → (∀ row ∈ opcodeTable, r &&& row.mask ≠ row.pattern) →
    step s = .next { s with
      err := { code := 0x10, opc := r.extractLsb' 32 8, arg := r.extractLsb' 0 32 }
      port := { pending := rest, response := some { st := .errIllegal, data := 0 } } }

/-- R305, R341: with nothing pending the block holds its state; R340: a hardware reset, also one that abandons a
command, leaves the reset state, with no response owed. The queue is the model's choice (log entry 1). -/
def Obligations.IdleHoldsAndResetRestores : Prop :=
  (∀ s : State, s.port.pending = [] → step s = .next s) ∧
  (∀ (s : State) (r : Option Request) (rest : List HostEvent), s.port.pending = .reset r :: rest →
    step s = .next { State.reset with port := { pending := rest, response := none } })

/-- R43: the state after a hardware reset, and after `CLR`. -/
def Obligations.ResetStateIsAsSpecified : Prop :=
  State.reset.phase = .load ∧ State.reset.load.wcnt = 0 ∧ State.reset.load.acnt = 0 ∧
  State.reset.enc.n = 0 ∧ State.reset.enc.root = 0 ∧ State.reset.enc.nnodes = 0 ∧
  State.reset.est = { state := .closed, eoi := false, val := 0, len := 0 } ∧
  State.reset.dst = { state := .closed, eoi := false, cur := 0 } ∧
  State.reset.err = { code := 0, opc := 0, arg := 0 } ∧
  (∀ i, Mem.read State.reset.load.wmem i = none ∧ Mem.read State.reset.load.amem i = none ∧
    Mem.read State.reset.enc.node i = none ∧ Mem.read State.reset.enc.ct i = none) ∧
  exec (.stat 0) State.reset = .next (okState State.reset 0x0000000148554646) ∧
  exec (.stat 1) State.reset = .next (okState State.reset 0x0028073920080100) ∧
  (∀ s : State, { hardwareReset s with port := State.reset.port } = State.reset) ∧
  (∀ s : State, ∃ t, exec .clr s = .next t ∧ { t with port := State.reset.port } = State.reset)

/-! ## System and inspection commands -/

/-- R260: `NOP` answers `OK` and writes nothing. -/
def Obligations.NopAnswersOk : Prop := ∀ s : State, exec .nop s = .next (okState s 0)

/-- R261: `CLR` is permitted always and leaves the reset state. -/
def Obligations.ClrLeavesTheResetState : Prop :=
  ∀ s : State, exec .clr s = .next
    { State.reset with port := { pending := s.port.pending, response := some { st := .ok, data := 0 } } }

/-- R33, R34: the constants `ID` and `PARAM`, in every state. -/
def Obligations.StatIdAndParamAreConstant : Prop :=
  ∀ s : State, exec (.stat 0) s = .next (okState s 0x0000000148554646) ∧
    ∃ d : Data, exec (.stat 1) s = .next (okState s d) ∧ d = 0x0028073920080100 ∧
      d.extractLsb' 0 16 = 256 ∧ d.extractLsb' 16 8 = 8 ∧ d.extractLsb' 24 8 = 32 ∧ d.extractLsb' 32 8 = 57 ∧
      d.extractLsb' 40 8 = 7 ∧ d.extractLsb' 48 8 = 40 ∧ d.extractLsb' 56 8 = 0

/-- R35: the fields of `STATUS`. -/
def Obligations.StatStatusShowsPhaseAndStreams : Prop :=
  exec (.stat 2) State.reset = .next (okState State.reset 0) ∧
  ∀ s : State, ∃ d : Data, exec (.stat 2) s = .next (okState s d) ∧
    d.extractLsb' 0 1 = (match s.phase with | .load => 0 | .ready => 1) ∧
    d.extractLsb' 1 2 = (match s.est.state with | .closed => 0 | .run => 1 | .fault => 2) ∧
    d.extractLsb' 3 1 = (if s.est.eoi then 1 else 0) ∧
    d.extractLsb' 4 2 = (match s.dst.state with | .closed => 0 | .atRoot => 1 | .trav => 2 | .exh => 3) ∧
    d.extractLsb' 6 1 = (if s.dst.eoi then 1 else 0) ∧
    d.extractLsb' 7 57 = 0

/-- R36, R37: the fields of `COUNT` and `TREE`; `TREE` reads 0 in phase `LOAD`. -/
def Obligations.StatCountAndTreeShowTheCounts : Prop :=
  exec (.stat 3) State.reset = .next (okState State.reset 0) ∧
  ∀ s : State, ∃ c t : Data, exec (.stat 3) s = .next (okState s c) ∧ exec (.stat 4) s = .next (okState s t) ∧
    c.extractLsb' 0 9 = s.load.wcnt ∧ c.extractLsb' 9 7 = 0 ∧ c.extractLsb' 16 9 = s.load.acnt ∧ c.extractLsb' 25 39 = 0 ∧
    t.extractLsb' 0 9 = s.enc.n ∧ t.extractLsb' 9 7 = 0 ∧ t.extractLsb' 16 9 = s.enc.root ∧ t.extractLsb' 25 7 = 0 ∧
    t.extractLsb' 32 10 = s.enc.nnodes ∧ t.extractLsb' 42 22 = 0 ∧
    (BlockInv s → s.phase = .load → t = 0)

/-- R38, R39, and the fields of R40: `ERR`, `ENC`, `DEC`. -/
def Obligations.StatErrEncDecShowTheCursors : Prop :=
  exec (.stat 5) State.reset = .next (okState State.reset 0) ∧
  exec (.stat 6) State.reset = .next (okState State.reset 0) ∧
  exec (.stat 7) State.reset = .next (okState State.reset 0) ∧
  ∀ s : State, ∃ e c d : Data, exec (.stat 5) s = .next (okState s e) ∧ exec (.stat 6) s = .next (okState s c) ∧
    exec (.stat 7) s = .next (okState s d) ∧
    e.extractLsb' 0 8 = s.err.code ∧ e.extractLsb' 8 8 = s.err.opc ∧ e.extractLsb' 16 32 = s.err.arg ∧
    e.extractLsb' 48 16 = 0 ∧
    c.extractLsb' 0 57 = s.est.val ∧ c.extractLsb' 57 7 = s.est.len ∧
    d.extractLsb' 0 9 = s.dst.cur ∧ d.extractLsb' 9 55 = 0

/-- R262, R263, R264: a number outside the range that has a value answers `ERR_RANGE` and changes nothing but the error
record. -/
def Obligations.OutOfRangeReadsAnswerErrRange : Prop :=
  (∀ (s : State) (r : BitVec 4), 8 ≤ r.toNat →
    exec (.stat r) s = .next (errState s .errRange 0x14 0x05 (r.setWidth 32))) ∧
  (∀ (s : State) (k : NodeIdx), s.phase = .ready → s.enc.nnodes.toNat ≤ k.toNat →
    exec (.rdn k) s = .next (errState s .errRange 0x14 0x18 (k.setWidth 32))) ∧
  (∀ (s : State) (c : AlphaIdx), s.phase = .ready → s.enc.n.toNat ≤ c.toNat →
    exec (.rdc c) s = .next (errState s .errRange 0x14 0x19 (c.setWidth 32)))

/-- R263, R93: `RDN k` answers the node word of record `k`. -/
def Obligations.RdnAnswersTheNodeWord : Prop :=
  ∀ (s : State) (k : NodeIdx), BlockInv s → s.phase = .ready → k.toNat < s.enc.nnodes.toNat →
    ∃ (rec : Node) (d : Data), Mem.read s.enc.node k.toNat = some rec ∧ exec (.rdn k) s = .next (okState s d) ∧
      d.extractLsb' 58 5 = 0 ∧
      (∀ index weight, rec = .leaf index weight → d.extractLsb' 63 1 = 0 ∧ d.extractLsb' 49 9 = 0 ∧
        d.extractLsb' 48 1 = 0 ∧ d.extractLsb' 40 8 = index ∧ d.extractLsb' 0 40 = weight) ∧
      (∀ left right weight, rec = .internal left right weight → d.extractLsb' 63 1 = 1 ∧ d.extractLsb' 49 9 = left ∧
        d.extractLsb' 40 9 = right ∧ d.extractLsb' 0 40 = weight)

/-- R264: `RDC i` answers the packed codeword of alphabet index `i`. -/
def Obligations.RdcAnswersTheCodeword : Prop :=
  ∀ (s : State) (c : AlphaIdx), BlockInv s → s.phase = .ready → c.toNat < s.enc.n.toNat →
    ∃ w, Mem.read s.enc.ct c.toNat = some w ∧ (cwLen w).toNat ≤ 57 ∧ exec (.rdc c) s = .next (okState s w)

/-! ## Rules about all commands -/

/-- R96 step 3: a command that the phase or a stream state does not permit answers `ERR_STATE` and changes nothing but
the error record, in which it stands with its opcode and operand. -/
def Obligations.NotPermittedAnswersErrState : Prop :=
  ∀ (i : Instr) (s : State), ¬ Step3Holds s i →
    exec i s = .next (errState s .errState 0x11 ((encode i).extractLsb' 32 8) ((encode i).extractLsb' 0 32))

/-- R293, R295: a request answered with an error status has written the error record and nothing else, but for `EPUSH`
with an unknown symbol, which sends its stream to `E_FAULT` with an empty cursor. That `NODE` and `CT` are unchanged after
`TreeTooDeep` is the model's choice (DESIGN CHOICE, log entry 4). -/
def Obligations.ErrorsArePrecise : Prop :=
  ∀ (r : Request) (s t : State) (rsp : Response), command r s = .next t → t.port.response = some rsp →
    0x10 ≤ rsp.st.code.toNat →
    rsp.data = 0 ∧ t.err = { code := rsp.st.code, opc := r.extractLsb' 32 8, arg := r.extractLsb' 0 32 } ∧
    t.load = s.load ∧ t.phase = s.phase ∧ t.enc = s.enc ∧ t.dst = s.dst ∧ t.port.pending = s.port.pending ∧
    (t.est = s.est ∨ ((∃ a, decode r = .ok (.epush a)) ∧ rsp.st = .unknownSymbol ∧
      t.est = { s.est with state := .fault, val := 0, len := 0 }))

/-- R31: a request that ends without an error status leaves the error record as it is, unless it is `CLR`. -/
def Obligations.NonErrorsKeepTheErrorRecord : Prop :=
  ∀ (r : Request) (s t : State) (rsp : Response), command r s = .next t → t.port.response = some rsp →
    rsp.st.code.toNat < 0x10 → decode r ≠ .ok .clr → t.err = s.err

/-- R91, R103: every request that is executed is answered by one response, and its data is 0 unless the status is `OK`
and the command is one of those that return something; the host's other events are untouched. -/
def Obligations.EveryRequestHasOneResponse : Prop :=
  ∀ (r : Request) (s t : State), command r s = .next t →
    ∃ rsp, t.port.response = some rsp ∧ t.port.pending = s.port.pending ∧
      (rsp.st ≠ .ok → rsp.data = 0) ∧
      (∀ i, decode r = .ok i → (∀ n, i ≠ .stat n) → (∀ a, i ≠ .enc1 a) → (∀ c, i ≠ .rdc c) → (∀ k, i ≠ .rdn k) →
        i ≠ .epull → i ≠ .dpull → rsp.data = 0) ∧
      (decode r = .ok .epull → rsp.data = 0 ∨ rsp.data = 1) ∧
      (decode r = .ok .dpull → rsp.data.extractLsb' 8 56 = 0)

/-- R22: the phase goes from `LOAD` to `READY` only at a successful `BUILD` and back only by `CLR`; in phase `READY` no
other command writes the weights, the alphabet, the tree or the code table. -/
def Obligations.PhaseAndEncodingChangeOnlyByBuildAndClr : Prop :=
  ∀ (i : Instr) (s t : State), exec i s = .next t →
    (s.phase = .load → t.phase = .ready →
      i = .build ∧ t.port.response = some { st := .ok, data := 0 }) ∧
    (s.phase = .ready → i ≠ .clr → t.phase = .ready ∧ t.load = s.load ∧ t.enc = s.enc)

/-- The frame of every command but `CLR` on registers (R21, R22, R23, R28, R29, R31): each register changes only by the
commands its rule names. -/
def Obligations.RegistersChangeOnlyByTheirCommands : Prop :=
  ∀ (i : Instr) (s t : State), exec i s = .next t → i ≠ .clr →
    ((∀ w, i ≠ .ldw w) → t.load.wcnt = s.load.wcnt) ∧
    ((∀ a, i ≠ .lda a) → t.load.acnt = s.load.acnt) ∧
    (i ≠ .build → t.phase = s.phase ∧ t.enc.n = s.enc.n ∧ t.enc.root = s.enc.root ∧ t.enc.nnodes = s.enc.nnodes) ∧
    (i ≠ .eopen → (∀ a, i ≠ .epush a) → i ≠ .eend → i ≠ .epull → t.est = s.est) ∧
    (¬ IsDecoder i → t.dst = s.dst) ∧
    ((∀ rsp, t.port.response = some rsp → rsp.st.code.toNat < 0x10) → t.err = s.err)

/-- The frame of every command but `CLR` on memory (R21, R24, R25): every word of every space reads as before, but the
word `WCNT` of `WMEM` after `LDW`, the word `ACNT` of `AMEM` after `LDA`, and `NODE` and `CT` after `BUILD`. -/
def Obligations.MemoryChangesOnlyByItsCommands : Prop :=
  ∀ (i : Instr) (s t : State), exec i s = .next t → i ≠ .clr →
    (∀ k, ¬ (∃ w, i = .ldw w ∧ k = s.load.wcnt.toNat) → Mem.read t.load.wmem k = Mem.read s.load.wmem k) ∧
    (∀ k, ¬ (∃ a, i = .lda a ∧ k = s.load.acnt.toNat) → Mem.read t.load.amem k = Mem.read s.load.amem k) ∧
    (i ≠ .build → ∀ k, Mem.read t.enc.node k = Mem.read s.enc.node k ∧ Mem.read t.enc.ct k = Mem.read s.enc.ct k)

/-- R68: reads have no side effects: `NOP`, `STAT`, `RDN`, `RDC` and `ENC1` change no state but the error record on an
error, and issued again they answer the same. -/
def Obligations.ReadsHaveNoSideEffects : Prop :=
  ∀ (i : Instr) (s t : State), IsReader i → exec i s = .next t →
    t.load = s.load ∧ t.phase = s.phase ∧ t.enc = s.enc ∧ t.est = s.est ∧ t.dst = s.dst ∧
    (∀ rsp, t.port.response = some rsp → rsp.st.code.toNat < 0x10 → t.err = s.err) ∧
    (∃ u, exec i t = .next u ∧ u.port.response = t.port.response)

/-- R76: a command of one stream neither reads nor writes the context of the other: with any other context and error
record it answers the same and does the same. -/
def Obligations.StreamsDoNotAffectEachOther : Prop :=
  (∀ (i : Instr) (s t : State) (d : DecStream) (e : ErrRecord), IsEncoder i → exec i s = .next t →
    t.load = s.load ∧ t.phase = s.phase ∧ t.enc = s.enc ∧ t.dst = s.dst ∧
    ∃ e', exec i { s with dst := d, err := e } = .next { t with dst := d, err := e' }) ∧
  (∀ (i : Instr) (s t : State) (c : EncStream) (e : ErrRecord), IsDecoder i → exec i s = .next t →
    t.load = s.load ∧ t.phase = s.phase ∧ t.enc = s.enc ∧ t.est = s.est ∧
    ∃ e', exec i { s with est := c, err := e } = .next { t with est := c, err := e' })

/-! ## Loading and building -/

/-- R150: `LDW w` appends one weight. -/
def Obligations.LdwAppendsAWeight : Prop :=
  ∀ (s : State) (w : Weight), s.phase = .load → s.load.wcnt.toNat < 256 →
    ∃ m, exec (.ldw w) s = .next (okState { s with load := { s.load with wmem := m, wcnt := s.load.wcnt + 1 } } 0) ∧
      (s.load.wcnt + 1).toNat = s.load.wcnt.toNat + 1 ∧
      Mem.read m s.load.wcnt.toNat = some w ∧ ∀ k, k ≠ s.load.wcnt.toNat → Mem.read m k = Mem.read s.load.wmem k

/-- R151: `LDA s` appends one symbol; it is not checked against the symbols already loaded. -/
def Obligations.LdaAppendsASymbol : Prop :=
  ∀ (s : State) (a : Sym), s.phase = .load → s.load.acnt.toNat < 256 →
    ∃ m, exec (.lda a) s = .next (okState { s with load := { s.load with amem := m, acnt := s.load.acnt + 1 } } 0) ∧
      (s.load.acnt + 1).toNat = s.load.acnt.toNat + 1 ∧
      Mem.read m s.load.acnt.toNat = some a ∧ ∀ k, k ≠ s.load.acnt.toNat → Mem.read m k = Mem.read s.load.amem k

/-- R150, R151: with `NMAX` items loaded, a load answers `ERR_CAPACITY` and nothing is written. -/
def Obligations.FullMemoryAnswersErrCapacity : Prop :=
  (∀ (s : State) (w : Weight), s.phase = .load → s.load.wcnt = 256 →
    exec (.ldw w) s = .next (errState s .errCapacity 0x13 0x02 w)) ∧
  (∀ (s : State) (a : Sym), s.phase = .load → s.load.acnt = 256 →
    exec (.lda a) s = .next (errState s .errCapacity 0x13 0x03 (a.setWidth 32)))

/-- R152, R294: `LengthMismatch` comes before `EmptyAlphabet`; both leave everything but the error record. -/
def Obligations.BuildChecksLengthsThenEmptiness : Prop :=
  ∀ s : State, s.phase = .load →
    (s.load.wcnt ≠ s.load.acnt → exec .build s = .next (errState s .lengthMismatch 0x20 0x04 0)) ∧
    (s.load.wcnt = 0 → s.load.acnt = 0 → exec .build s = .next (errState s .emptyAlphabet 0x21 0x04 0))

/-- R152, R42: a `BUILD` of 1 to 58 weights with as many symbols succeeds, and the Encoding is as R42 says: no tree of
at most 58 leaves has a leaf deeper than 57. -/
def Obligations.BuildOfAtMost58WeightsSucceeds : Prop :=
  ∀ s : State, BlockInv s → s.phase = .load → s.load.wcnt = s.load.acnt → 1 ≤ s.load.wcnt.toNat → s.load.wcnt.toNat ≤ 58 →
    ∃ e, exec .build s = .next (okState { s with enc := e, phase := .ready } 0) ∧ EncodingOk s.load e

/-- R152, R42: a `BUILD` of matching nonempty loads either commits an Encoding as R42 says, or answers `TreeTooDeep`
and writes the error record. That `NODE` and `CT` are then unchanged is the model's choice (DESIGN CHOICE, log entry 4):
R152 and R44 leave their words unspecified and unreadable. -/
def Obligations.BuildCommitsAnEncodingOrNothing : Prop :=
  ∀ s : State, BlockInv s → s.phase = .load → s.load.wcnt = s.load.acnt → s.load.wcnt ≠ 0 →
    (∃ e, exec .build s = .next (okState { s with enc := e, phase := .ready } 0) ∧ EncodingOk s.load e) ∨
    exec .build s = .next (errState s .treeTooDeep 0x22 0x04 0)

/-- R182: the build fails with `TreeTooDeep` iff the tree has a leaf at depth greater than 57, which is the same as
having an internal node at depth 57 or more. The next state is given whole; that `NODE` and `CT` are unchanged in it is the
model's choice (DESIGN CHOICE, log entry 4), since R152 and R44 leave their words unspecified. -/
def Obligations.TreeTooDeepIffALeafIsDeeperThan57 : Prop :=
  ∀ s : State, BlockInv s → s.phase = .load → s.load.wcnt = s.load.acnt → s.load.wcnt ≠ 0 →
    ∃ (b : Builder) (root : NodeIdx), buildTree Params.hfc s.load.wmem s.load.wcnt.toNat = .ok b ∧
      TreeOk s.load.wmem s.load.wcnt.toNat b.node ∧ root.toNat = 2 * s.load.wcnt.toNat - 2 ∧
      (exec .build s = .next (errState s .treeTooDeep 0x22 0x04 0) ↔
        ∃ bits c index weight, follow b.node root bits = some c ∧
          Mem.read b.node c.toNat = some (.leaf index weight) ∧ 57 < bits.length) ∧
      ((∃ bits c index weight, follow b.node root bits = some c ∧
          Mem.read b.node c.toNat = some (.leaf index weight) ∧ 57 < bits.length) ↔
        ∃ bits c left right weight, follow b.node root bits = some c ∧
          Mem.read b.node c.toNat = some (.internal left right weight) ∧ 57 ≤ bits.length)

/-- R160: what `BUILD` answers, and the Encoding, depend on the weights and the two counts alone; the symbols do not
influence the tree or the codewords. -/
def Obligations.BuildDependsOnWeightsAndCountsOnly : Prop :=
  ∀ s₁ s₂ t₁ t₂ : State, s₁.phase = .load → s₂.phase = .load →
    s₁.load.wcnt = s₂.load.wcnt → s₁.load.acnt = s₂.load.acnt →
    (∀ i, i < s₁.load.wcnt.toNat → Mem.read s₁.load.wmem i = Mem.read s₂.load.wmem i) →
    exec .build s₁ = .next t₁ → exec .build s₂ = .next t₂ →
    t₁.port.response = t₂.port.response ∧ t₁.phase = t₂.phase ∧ (t₁.phase = .ready → t₁.enc = t₂.enc)

/-- R154: `extract_min` answers the member least in (weight, node index) and the set without it, whatever the order in
which the queue holds its members. -/
def Obligations.ExtractMinIsAFunctionOfTheSet : Prop :=
  ∀ (q q' rest : List Key) (k : Key), (q.map Of.Key.node).Nodup → q.Perm q' → extractMin q = some (k, rest) →
    k ∈ q ∧ q.Perm (k :: rest) ∧
    (∀ x ∈ rest, k.weight.toNat < x.weight.toNat ∨
      (k.weight.toNat = x.weight.toNat ∧ k.node.toNat < x.node.toNat)) ∧
    ∃ rest', extractMin q' = some (k, rest') ∧ rest'.Perm rest

/-- R158: along the order of creation the weights of internal nodes are non-decreasing. -/
def Obligations.InternalWeightsNeverFall : Prop :=
  ∀ s t : State, BlockInv s → s.phase = .load → exec .build s = .next t → t.phase = .ready →
    ∀ k, t.enc.n.toNat ≤ k → k + 1 < 2 * t.enc.n.toNat - 1 →
      nodeWeightAt t.enc.node k ≤ nodeWeightAt t.enc.node (k + 1)

/-- The weighted length of the code is the sum of the weights of the internal nodes (95_test_vectors.md, check (d)). -/
def Obligations.WeightedLengthIsTheSumOfInternalWeights : Prop :=
  ∀ s t : State, BlockInv s → s.phase = .load → exec .build s = .next t → t.phase = .ready →
    ((List.range t.enc.n.toNat).map fun i => weightAt t.load i * (codewordBits t.enc i).length).sum =
      ((List.range (t.enc.n.toNat - 1)).map fun k => nodeWeightAt t.enc.node (t.enc.n.toNat + k)).sum

/-- R159: the sum over all symbols of weight times codeword length is minimal among all prefix codes. -/
def Obligations.BuiltCodeIsOptimal : Prop :=
  ∀ s t : State, BlockInv s → s.phase = .load → exec .build s = .next t → t.phase = .ready →
    ∀ code : Nat → List Bool,
      (∀ i j, i < t.enc.n.toNat → j < t.enc.n.toNat → i ≠ j → ¬ code i <+: code j) →
      ((List.range t.enc.n.toNat).map fun i => weightAt t.load i * (codewordBits t.enc i).length).sum ≤
        ((List.range t.enc.n.toNat).map fun i => weightAt t.load i * (code i).length).sum

/-! ## The code table -/

/-- R185: the code is prefix-free, and for `N >= 2` complete: every infinite bit sequence starts with exactly one
codeword, and every finite bit string is, uniquely, codewords followed by a proper beginning of a codeword. -/
def Obligations.CodeIsPrefixFreeAndComplete : Prop :=
  ∀ (l : LoadState) (e : Encoding), EncodingOk l e →
    (∀ i j, i < e.n.toNat → j < e.n.toNat → i ≠ j → ¬ codewordBits e i <+: codewordBits e j) ∧
    (2 ≤ e.n.toNat → ∀ f : Nat → Bool, ∃ i, (i < e.n.toNat ∧ codewordBits e i ≠ [] ∧
        codewordBits e i = (List.range (codewordBits e i).length).map f) ∧
      ∀ j, j < e.n.toNat → codewordBits e j = (List.range (codewordBits e j).length).map f → j = i) ∧
    (2 ≤ e.n.toNat → ∀ bits : List Bool, ∃ indices tail, SplitsAs e bits indices tail ∧
      ∀ indices' tail', SplitsAs e bits indices' tail' → indices' = indices ∧ tail' = tail)

/-- R186: for one symbol the codeword is the packed word 0, of length 0, and the tree is one leaf. -/
def Obligations.OneSymbolHasTheEmptyCodeword : Prop :=
  ∀ s : State, BlockInv s → s.phase = .load → s.load.wcnt = 1 → s.load.acnt = 1 →
    ∃ e, exec .build s = .next (okState { s with enc := e, phase := .ready } 0) ∧
      e.n = 1 ∧ e.root = 0 ∧ e.nnodes = 1 ∧ Mem.read e.ct 0 = some 0 ∧
      ∃ w, Mem.read s.load.wmem 0 = some w ∧ Mem.read e.node 0 = some (.leaf 0 (w.setWidth 40))

/-- R183: the loop with an explicit stack computes the table of the recursion of R180, on every node memory, and its
stack never holds more than 58 entries. -/
def Obligations.StackTraversalIsTheRecursion : Prop :=
  (∀ (node : Mem Node) (root : NodeIdx), ∃ turns, ∀ more, turns ≤ more →
    stackLoop Params.hfc node more ([{ node := root, depth := 0, acc := 0 }] : List Frame) ([] : Mem Codeword) =
      some (codeTable Params.hfc node root)) ∧
  (∀ (node : Mem Node) (root : NodeIdx) (stack : List Frame) (table : Mem Codeword),
    StackReach node root stack table → stack.length ≤ 58)

/-! ## Opening, ending and refusing, for both streams -/

/-- R202, R230: `EOPEN` and `DOPEN` start a stream, whatever the state of the stream that was open. -/
def Obligations.OpenStartsAFreshStream : Prop :=
  ∀ s : State, s.phase = .ready →
    exec .eopen s = .next (okState { s with est := { state := .run, eoi := false, val := 0, len := 0 } } 0) ∧
    exec .dopen s = .next (okState { s with dst := { state := .atRoot, eoi := false, cur := s.enc.root } } 0)

/-- R204, R232: `EEND` and `DEND` set the end-of-input flag, also while output is waiting; a second one answers
`ERR_STATE`. -/
def Obligations.EndSetsTheFlagOnce : Prop :=
  (∀ s : State, s.est.state = .run →
    (s.est.eoi = false → exec .eend s = .next (okState { s with est := { s.est with eoi := true } } 0)) ∧
    (s.est.eoi = true → exec .eend s = .next (errState s .errState 0x11 0x0B 0))) ∧
  (∀ s : State, (s.dst.state = .atRoot ∨ s.dst.state = .trav) →
    (s.dst.eoi = false → exec .dend s = .next (okState { s with dst := { s.dst with eoi := true } } 0)) ∧
    (s.dst.eoi = true → exec .dend s = .next (errState s .errState 0x11 0x12 0)))

/-- R203, R231, R294: a push after the end of input answers `ERR_STATE`; else with output waiting `ERR_NOT_READY`, and
nothing is consumed; else `EPUSH` of an unknown symbol `UnknownSymbol`, and the stream faults with an empty cursor. -/
def Obligations.PushRefusesInOrder : Prop :=
  (∀ (s : State) (a : Sym), BlockInv s → s.est.state = .run →
    (s.est.eoi = true → exec (.epush a) s = .next (errState s .errState 0x11 0x0A (a.setWidth 32))) ∧
    (s.est.eoi = false → s.est.len ≠ 0 →
      exec (.epush a) s = .next (errState s .errNotReady 0x12 0x0A (a.setWidth 32))) ∧
    (s.est.eoi = false → s.est.len = 0 → NotInAlphabet s a →
      exec (.epush a) s = .next (errState { s with est := { state := .fault, eoi := false, val := 0, len := 0 } }
        .unknownSymbol 0x23 0x0A (a.setWidth 32)))) ∧
  (∀ (s : State) (b : BitVec 1), BlockInv s → (s.dst.state = .atRoot ∨ s.dst.state = .trav) →
    (s.dst.eoi = true → exec (.dpush b) s = .next (errState s .errState 0x11 0x11 (b.setWidth 32))) ∧
    (∀ index weight, s.dst.eoi = false → Mem.read s.enc.node s.dst.cur.toNat = some (.leaf index weight) →
      exec (.dpush b) s = .next (errState s .errNotReady 0x12 0x11 (b.setWidth 32))))

/-! ## The encoder -/

/-- R201: `ENC1 s` answers the codeword of the smallest index that holds `s`, or `UnknownSymbol`; it writes nothing but
the error record on an error. -/
def Obligations.Enc1AnswersTheCodeword : Prop :=
  (∀ (s : State) (a : Sym) (i : Nat), BlockInv s → s.phase = .ready → IsFirstIndex s a i →
    ∃ w, Mem.read s.enc.ct i = some w ∧ exec (.enc1 a) s = .next (okState s w)) ∧
  (∀ (s : State) (a : Sym), BlockInv s → s.phase = .ready → NotInAlphabet s a →
    exec (.enc1 a) s = .next (errState s .unknownSymbol 0x23 0x08 (a.setWidth 32)))

/-- R203: `EPUSH s` on a drained running stream loads the codeword of `s`. -/
def Obligations.EpushLoadsTheCodeword : Prop :=
  ∀ (s : State) (a : Sym) (i : Nat), BlockInv s → s.est.state = .run → s.est.eoi = false → s.est.len = 0 →
    IsFirstIndex s a i →
    ∃ w, Mem.read s.enc.ct i = some w ∧
      exec (.epush a) s = .next (okState { s with est :=
        { state := .run, eoi := false, val := w.extractLsb' 0 57, len := w.extractLsb' 57 7 } } 0)

/-- R205: `EPULL` delivers the next bit, or answers `END` after `EEND`, or `NEED_INPUT`, both without a change.
For an `E_LEN` above 57, which no run reaches, the cursor as a Bit Sequence is the model's choice (log entry 8). -/
def Obligations.EpullDeliversTheNextBit : Prop :=
  ∀ s : State, s.est.state = .run →
    (s.est.len ≠ 0 → ∃ (b : Bool) (v : Payload) (n : CwLen),
      s.est.seq.front = some b ∧ s.est.seq.popFront = some { value := v, len := n.toNat } ∧
      n.toNat + 1 = s.est.len.toNat ∧
      exec .epull s = .next (okState { s with est := { s.est with val := v, len := n } } (if b then 1 else 0))) ∧
    (s.est.len = 0 → s.est.eoi = true → exec .epull s = .next { s with port :=
      { s.port with response := some { st := .endOfSeq, data := 0 } } }) ∧
    (s.est.len = 0 → s.est.eoi = false → exec .epull s = .next { s with port :=
      { s.port with response := some { st := .needInput, data := 0 } } })

/-- R206, R343: the host procedure `encode_all` ends, and gives the concatenation of the codewords of its symbols. -/
def Obligations.EncodeAllConcatenatesCodewords : Prop :=
  ∀ (s : State) (input : List (Sym × Nat)), BlockInv s → s.phase = .ready → (∀ p ∈ input, IsFirstIndex s p.1 p.2) →
    ∃ turns t, encodeAll turns (input.map Prod.fst) s =
      .returned (input.flatMap fun p => codewordBits s.enc p.2) t ∧ t.enc = s.enc ∧ t.load = s.load ∧ t.err = s.err

/-! ## The decoder -/

/-- R231: `DPUSH b` at an internal node moves to the left child on 0 and to the right child on 1. -/
def Obligations.DpushTakesOneEdge : Prop :=
  ∀ (s : State) (left right : NodeIdx) (weight : NodeWeight), BlockInv s →
    (s.dst.state = .atRoot ∨ s.dst.state = .trav) → s.dst.eoi = false →
    Mem.read s.enc.node s.dst.cur.toNat = some (.internal left right weight) →
    exec (.dpush 0) s = .next (okState { s with dst := { state := .trav, eoi := false, cur := left } } 0) ∧
    exec (.dpush 1) s = .next (okState { s with dst := { state := .trav, eoi := false, cur := right } } 0) ∧
    left ≠ s.enc.root ∧ right ≠ s.enc.root

/-- R233: `DPULL` at a leaf delivers its symbol and returns to the root, whether or not the input has ended; at an
internal node it exhausts the stream after `DEND`, and else answers `NEED_INPUT`; exhausted it answers `END`. -/
def Obligations.DpullDeliversTheSymbolOrEnds : Prop :=
  ∀ s : State, BlockInv s →
    (∀ index weight, (s.dst.state = .atRoot ∨ s.dst.state = .trav) →
      Mem.read s.enc.node s.dst.cur.toNat = some (.leaf index weight) →
      ∃ a, Mem.read s.load.amem index.toNat = some a ∧ exec .dpull s = .next
        (okState { s with dst := { s.dst with state := .atRoot, cur := s.enc.root } } (a.setWidth 64))) ∧
    (∀ left right weight, (s.dst.state = .atRoot ∨ s.dst.state = .trav) →
      Mem.read s.enc.node s.dst.cur.toNat = some (.internal left right weight) →
      (s.dst.eoi = true → exec .dpull s = .next { s with
        dst := { s.dst with state := .exh }
        port := { s.port with response := some { st := .endOfSeq, data := 0 } } }) ∧
      (s.dst.eoi = false → exec .dpull s = .next { s with
        port := { s.port with response := some { st := .needInput, data := 0 } } })) ∧
    (s.dst.state = .exh → exec .dpull s = .next { s with
        port := { s.port with response := some { st := .endOfSeq, data := 0 } } })

/-- R237: with one symbol every `DPULL` of an open stream answers `OK` with that symbol, without end and whatever
`D_EOI`, and every `DPUSH` is refused. -/
def Obligations.OneSymbolDecoderRepeatsTheSymbol : Prop :=
  ∀ s : State, BlockInv s → s.phase = .ready → s.enc.n = 1 → s.dst.state ≠ .closed →
    ∃ a, Mem.read s.load.amem 0 = some a ∧ s.dst.state = .atRoot ∧ s.dst.cur = s.enc.root ∧
      exec .dpull s = .next (okState s (a.setWidth 64)) ∧
      (∀ k, ∃ t, pullSymbols k [] s = .returned (List.replicate k a) t) ∧
      (∀ b, s.dst.eoi = false → exec (.dpush b) s = .next (errState s .errNotReady 0x12 0x11 (b.setWidth 32))) ∧
      (∀ b, s.dst.eoi = true → exec (.dpush b) s = .next (errState s .errState 0x11 0x11 (b.setWidth 32)))

/-- R235, R236, R344: for `N >= 2` the host procedure `decode_all` ends on every bit string; the string is a
concatenation of codewords and a tail of at most 56 bits that is a proper beginning of a codeword; the result is the
symbols of the codewords; and the decoder stops off the root exactly where a tail was dropped. -/
def Obligations.DecodeAllSplitsEveryBitString : Prop :=
  ∀ (s : State) (bits : List Bool), BlockInv s → s.phase = .ready → 2 ≤ s.enc.n.toNat →
    ∃ (indices : List Nat) (tail : List Bool) (turns : Nat) (t : State),
      SplitsAs s.enc bits indices tail ∧ tail.length ≤ 56 ∧
      decodeAll turns bits s = .returned (indices.map (symbolAt s)) t ∧
      t.dst.state = .exh ∧ (t.dst.cur = s.enc.root ↔ tail = []) ∧ t.enc = s.enc ∧ t.load = s.load ∧ t.err = s.err

/-- R238 (A): for `N >= 2`, decoding what the encoder gives for a sequence of symbols of the alphabet gives exactly that
sequence; R349: also with duplicate symbols. -/
def Obligations.DecodingTheEncodedGivesTheSymbols : Prop :=
  ∀ (s : State) (syms : List Sym), BlockInv s → s.phase = .ready → 2 ≤ s.enc.n.toNat → (∀ a ∈ syms, ∃ i, IsFirstIndex s a i) →
    ∃ turns bits t turns' u, encodeAll turns syms s = .returned bits t ∧ decodeAll turns' bits t = .returned syms u

/-- R238 (B): for `N >= 2` and distinct symbols, encoding what the decoder gives for an exact concatenation of codewords
gives exactly that bit string. -/
def Obligations.EncodingTheDecodedGivesTheBits : Prop :=
  ∀ (s : State) (indices : List Nat), BlockInv s → s.phase = .ready → 2 ≤ s.enc.n.toNat → DistinctAlphabet s →
    (∀ i ∈ indices, i < s.enc.n.toNat) →
    ∃ turns syms t turns' u, decodeAll turns (indices.flatMap (codewordBits s.enc)) s = .returned syms t ∧
      encodeAll turns' syms t = .returned (indices.flatMap (codewordBits s.enc)) u

/-! ## The invariant and liveness -/

/-- The invariant (R42, R28, R29, R31, R103) holds after reset. -/
def Obligations.InvariantHoldsAtReset : Prop := BlockInv State.reset

/-- The invariant (R42, R28, R29, R31, R103) is kept by every step. Its clause that `NODE` and `CT` hold no value in phase
`LOAD` is the model's choice where a `BUILD` answered `TreeTooDeep` (DESIGN CHOICE, log entry 4): R152 and R44 leave their
words unspecified then. The queue a step takes its event from is the model's (log entry 1). -/
def Obligations.EveryStepKeepsTheInvariant : Prop := ∀ s t : State, BlockInv s → step s = .next t → BlockInv t

/-- R355: in every state of the invariant every request is answered: no step stops. -/
def Obligations.EveryStepAnswers : Prop := ∀ s : State, BlockInv s → ∃ t, step s = .next t

/-- Whatever the host does from reset, in whatever order, no run stops (R355), no memory word without a value is read
(R44), and the invariant holds at its end. The list of host events is the model's choice (DESIGN CHOICE, log entry 1), and so
is the invariant's clause that `NODE` and `CT` hold no value in phase `LOAD` after a `TreeTooDeep` on the run (log entry 4). -/
def Obligations.NoHostCanStopTheBlock : Prop :=
  ∀ events : List HostEvent, Safe (State.reset.withPending events) ∧
    ∀ k t, Host.Core.run Sys2Proof.core k (State.reset.withPending events) = .next t → BlockInv t

/-! ## Bit Sequences -/

/-- R135, R136, R138, R140, R141: the operations of a Bit Sequence on the list it denotes. -/
def Obligations.BitSequenceOperationsActOnTheList : Prop :=
  ∀ (w : Nat) (b : BitSeq w),
    b.toList.length = b.len ∧ (∀ i, b.at i = b.toList[i]?) ∧ b.front = b.toList.head? ∧ b.back = b.toList.getLast? ∧
    (∀ c, b.popFront = some c → c.toList = b.toList.tail) ∧ (∀ c, b.popBack = some c → c.toList = b.toList.dropLast) ∧
    (∀ i j c, b.slice i j = some c → c.toList = (b.toList.drop i).take (j - i)) ∧
    b.reversed.toList = b.toList.reverse ∧
    (∀ bs c, BitSeq.fromList w bs = some c → c.toList = bs) ∧
    (b.len ≤ w → ∃ c, BitSeq.fromList w b.toList = some c ∧ c.sameSeq b = true)

/-- R142: the operations have a value exactly where their preconditions hold. -/
def Obligations.BitSequenceOperationsArePartial : Prop :=
  ∀ (w : Nat) (b : BitSeq w) (v : BitVec w) (len i j : Nat),
    ((BitSeq.bits v len).isSome ↔ len ≤ w) ∧ (b.front.isSome ↔ 1 ≤ b.len) ∧ (b.back.isSome ↔ 1 ≤ b.len) ∧
    (b.popFront.isSome ↔ 1 ≤ b.len) ∧ (b.popBack.isSome ↔ 1 ≤ b.len) ∧ ((b.at i).isSome ↔ i < b.len) ∧
    ((b.slice i j).isSome ↔ i ≤ j ∧ j ≤ b.len)
end

