-- ==== Sys2Proof/Machine/Block.lean ====
section
/-!
DEFINITION. The block with the parameters of 00_scope.md R8 as an argument: its state, a request, one step. The machine of
Dispatch.lean and Step.lean is this block at `Params.hfc` (Laws/Block.lean).
-/

namespace Sys2Proof.Machine

/-- The state of the block with parameters `p`. `NNODES` has one bit more than a node index (DEDUCED from 10_state.md R23,
log entry 2). -/
abbrev BlockState (p : Params) : Type :=
  Of.State p.cntW p.wgtW p.symW p.nodeW (p.nodeW + 1) p.idxW p.wsumW p.cwW p.payW p.lenW p.stW p.opcW p.argW
    (p.opcW + p.argW) p.dataW

/-- The state after a hardware reset (10_state.md R43). -/
def blockReset (p : Params) : BlockState p := Of.State.reset

/-- The rule of a command, with the operand `arg[UW-1:0]` (30_encoding.md R96 steps 3 and 4, R97). -/
def blockRun (p : Params) (m : Mnemonic) (arg : BitVec p.argW) (s : BlockState p) : Of.Outcome (BlockState p) :=
  match m with
  | .nop   => Of.nop s
  | .clr   => Of.clr s
  | .ldw   => Of.ldw p s (arg.setWidth p.wgtW)
  | .lda   => Of.lda p s (arg.setWidth p.symW)
  | .build => Of.build p s
  | .stat  => Of.stat p s (arg.setWidth 4)
  | .enc1  => Of.enc1 p s (arg.setWidth p.symW)
  | .eopen => Of.eopen s
  | .epush => Of.epush p s (arg.setWidth p.symW)
  | .eend  => Of.eend s
  | .epull => Of.epull s
  | .dopen => Of.dopen s
  | .dpush => Of.dpush p s (arg.setWidth 1)
  | .dend  => Of.dend s
  | .dpull => Of.dpull p s
  | .rdn   => Of.rdn p s (arg.setWidth p.nodeW)
  | .rdc   => Of.rdc p s (arg.setWidth p.idxW)

/-- Execute one request (30_encoding.md R96). -/
def blockCommand (p : Params) (r : BitVec (p.opcW + p.argW)) (s : BlockState p) : Of.Outcome (BlockState p) :=
  match decodeFields p (opcField p.opcW p.argW r) (argField p.argW r) with
  | .error _ => raise .errIllegal (opcField p.opcW p.argW r) (argField p.argW r) s
  | .ok m    => blockRun p m (argField p.argW r) s

/-- One step (00_scope.md R6): the next event of the host, or nothing where there is none. -/
def blockStep (p : Params) (s : BlockState p) : Of.Outcome (BlockState p) :=
  match takeEvent s with
  | none                 => .next s
  | some (.reset _, t)   => .next (hardwareReset t)
  | some (.request r, t) => blockCommand p r t

end Sys2Proof.Machine
end

