-- ==== Sys2Proof/Laws/Block.lean ====
section
/-!
SUPPORT. The machine of Step.lean is the block of Block.lean at the parameters of this hardware (00_scope.md R8).
-/

namespace Sys2Proof.Machine

theorem blockState_hfc : BlockState Params.hfc = State := rfl

theorem blockReset_hfc : blockReset Params.hfc = State.reset := rfl

theorem blockRun_hfc (m : Mnemonic) (arg : Arg) (s : State) :
    blockRun Params.hfc m arg s = exec (m.withOperand arg) s := by cases m <;> rfl

theorem blockCommand_hfc (r : Request) (s : State) : blockCommand Params.hfc r s = command r s := by
  unfold blockCommand
  split
  · next e h =>
    have h' : decodeFields Params.hfc r.opc r.arg = .error e := h
    simp only [command, decode, h']
    rfl
  · next m h =>
    have h' : decodeFields Params.hfc r.opc r.arg = .ok m := h
    simp only [command, decode, h']
    exact blockRun_hfc m r.arg s

/-- One step of the block at the parameters of this hardware is `step`. -/
theorem blockStep_hfc (s : State) : blockStep Params.hfc s = step s := by
  cases h : s.port.pending with
  | nil => simp only [blockStep, step, takeEvent, h]; rfl
  | cons e es =>
    cases e with
    | reset r => simp only [blockStep, step, takeEvent, h]; rfl
    | request r =>
      simp only [blockStep, step, takeEvent, h]
      exact blockCommand_hfc r _

end Sys2Proof.Machine
end

