-- ==== Sys2Proof/Laws/Mem.lean ====
section
/-!
SUPPORT. Laws of the memory spaces: a read after a write, the indices that hold a value, the canonical form, and what
`fetch` and `store` answer.
-/

namespace Sys2Proof.Machine

variable {α : Type}

@[simp] theorem Mem.read_nil (i : Nat) : Mem.read ([] : Mem α) i = none := rfl

@[simp] theorem Mem.dom_nil : Mem.dom ([] : Mem α) = [] := rfl

theorem Mem.read_cons (j : Nat) (v : α) (m : Mem α) (i : Nat) :
    Mem.read ((j, v) :: m) i = if i = j then some v else Mem.read m i := rfl

/-- A read after a write: the word written, and every other word as before. -/
theorem Mem.read_write (m : Mem α) (i : Nat) (v : α) (j : Nat) :
    Mem.read (Mem.write m i v) j = if j = i then some v else Mem.read m j := by
  induction m with
  | nil => simp [Mem.write, Mem.read]
  | cons c m ih =>
    obtain ⟨k, w⟩ := c
    by_cases h1 : i < k
    · simp [Mem.write, h1, Mem.read_cons]
    · by_cases h2 : i = k
      · subst h2
        by_cases hj : j = i <;> simp [Mem.write, Mem.read_cons, hj]
      · simp only [Mem.write, h1, h2, if_false, Mem.read_cons, ih]
        by_cases hj : j = i
        · simp [hj, h2]
        · simp [hj]

@[simp] theorem Mem.read_write_same (m : Mem α) (i : Nat) (v : α) : Mem.read (Mem.write m i v) i = some v := by
  simp [Mem.read_write]

theorem Mem.read_write_other (m : Mem α) {i j : Nat} (v : α) (h : j ≠ i) :
    Mem.read (Mem.write m i v) j = Mem.read m j := by
  simp [Mem.read_write, h]

theorem Mem.mem_dom_iff (m : Mem α) (i : Nat) : i ∈ Mem.dom m ↔ ∃ v, Mem.read m i = some v := by
  induction m with
  | nil => simp [Mem.read]
  | cons c m ih =>
    obtain ⟨k, w⟩ := c
    by_cases h : i = k
    · simp [Mem.dom, Mem.read_cons, h]
    · simp only [Mem.read_cons, h, if_false]
      rw [← ih]
      simp [Mem.dom, h]

theorem Mem.read_eq_none_iff (m : Mem α) (i : Nat) : Mem.read m i = none ↔ i ∉ Mem.dom m := by
  rw [Mem.mem_dom_iff]
  cases Mem.read m i <;> simp

/-- A write above every index that holds a value appends. -/
theorem Mem.write_above (m : Mem α) (i : Nat) (v : α) (h : ∀ j ∈ Mem.dom m, j < i) :
    Mem.write m i v = m ++ [(i, v)] := by
  induction m with
  | nil => rfl
  | cons c m ih =>
    obtain ⟨k, w⟩ := c
    have hk : k < i := h k (by simp [Mem.dom])
    have ht : ∀ j ∈ Mem.dom m, j < i := fun j hj => h j (by simp [Mem.dom] at hj ⊢; exact .inr hj)
    simp [Mem.write, Nat.not_lt.mpr hk.le, hk.ne', ih ht]

theorem Mem.dom_write_above (m : Mem α) (i : Nat) (v : α) (h : ∀ j ∈ Mem.dom m, j < i) :
    Mem.dom (Mem.write m i v) = Mem.dom m ++ [i] := by
  simp [Mem.write_above m i v h, Mem.dom]

/-- Writing the next index of a memory filled from 0 fills it one further. -/
theorem Mem.dom_write_next (m : Mem α) (n : Nat) (v : α) (h : Mem.dom m = List.range n) :
    Mem.dom (Mem.write m n v) = List.range (n + 1) := by
  rw [Mem.dom_write_above m n v (by simp [h]), h, List.range_succ]

theorem Mem.mem_dom_write (m : Mem α) (i : Nat) (v : α) (j : Nat) :
    j ∈ Mem.dom (Mem.write m i v) ↔ j = i ∨ j ∈ Mem.dom m := by
  simp only [Mem.mem_dom_iff, Mem.read_write]
  by_cases h : j = i <;> simp [h]

/-- Every write keeps the canonical form. -/
theorem Mem.wf_write (m : Mem α) (i : Nat) (v : α) (h : Mem.wf m = true) : Mem.wf (Mem.write m i v) = true := by
  unfold Mem.wf at *
  simp only [decide_eq_true_eq] at *
  induction m with
  | nil => simp [Mem.write, Mem.dom]
  | cons c m ih =>
    obtain ⟨k, w⟩ := c
    simp only [Mem.dom, List.map_cons, List.pairwise_cons] at h ih
    by_cases h1 : i < k
    · simp only [Mem.write, h1, if_true, Mem.dom, List.map_cons, List.pairwise_cons]
      refine ⟨?_, h.1, h.2⟩
      intro a ha
      rcases List.mem_cons.mp ha with rfl | ha
      · exact h1
      · exact h1.trans (h.1 a ha)
    · by_cases h2 : i = k
      · subst h2
        simp [Mem.write, Mem.dom, h.2]
        simpa using h.1
      · simp only [Mem.write, h1, h2, if_false, Mem.dom, List.map_cons, List.pairwise_cons]
        refine ⟨?_, ih h.2⟩
        intro a ha
        rcases (Mem.mem_dom_write m i v a).mp ha with rfl | ha
        · omega
        · exact h.1 a ha

/-- A memory filled from 0 is in canonical form. -/
theorem Mem.wf_of_dom_range (m : Mem α) (n : Nat) (h : Mem.dom m = List.range n) : Mem.wf m = true := by
  simp [Mem.wf, h, List.pairwise_lt_range]

theorem Mem.mem_of_read {m : Mem α} {i : Nat} {v : α} (h : Mem.read m i = some v) : (i, v) ∈ m := by
  induction m with
  | nil => simp at h
  | cons c m ih =>
    obtain ⟨k, w⟩ := c
    rw [Mem.read_cons] at h
    by_cases hi : i = k
    · simp only [hi, if_true, Option.some.injEq] at h
      simp [hi, h]
    · exact List.mem_cons_of_mem _ (ih (by simpa [hi] using h))

/-- In canonical form a listed pair is what a read answers. -/
theorem Mem.read_of_mem {m : Mem α} {i : Nat} {v : α} (hwf : Mem.wf m = true) (h : (i, v) ∈ m) :
    Mem.read m i = some v := by
  unfold Mem.wf at hwf
  simp only [decide_eq_true_eq] at hwf
  induction m with
  | nil => simp at h
  | cons c m ih =>
    obtain ⟨k, w⟩ := c
    simp only [Mem.dom, List.map_cons, List.pairwise_cons] at hwf
    rcases List.mem_cons.mp h with e | h
    · cases e; simp [Mem.read_cons]
    · have : k < i := hwf.1 i (List.mem_map.mpr ⟨_, h, rfl⟩)
      rw [Mem.read_cons, if_neg (by omega)]
      exact ih h hwf.2

/-- Two memories in canonical form with the same reads are the same list. -/
theorem Mem.ext_of_wf (m m' : Mem α) (h : Mem.wf m = true) (h' : Mem.wf m' = true)
    (hr : ∀ i, Mem.read m i = Mem.read m' i) : m = m' := by
  unfold Mem.wf at h h'
  simp only [decide_eq_true_eq] at h h'
  induction m generalizing m' with
  | nil =>
    cases m' with
    | nil => rfl
    | cons c m' => obtain ⟨k, w⟩ := c; simpa [Mem.read_cons] using hr k
  | cons c m ih =>
    obtain ⟨k, w⟩ := c
    cases m' with
    | nil => simpa [Mem.read_cons] using hr k
    | cons c' m' =>
      obtain ⟨k', w'⟩ := c'
      simp only [Mem.dom, List.map_cons, List.pairwise_cons] at h h'
      have low : ∀ (n : Mem α) (a b : Nat), (∀ x ∈ n.map Prod.fst, a < x) → b ≤ a → Mem.read n b = none := by
        intro n a b hn hb
        rw [Mem.read_eq_none_iff]
        intro hmem
        exact absurd (hn b hmem) (by omega)
      have hk : k = k' := by
        rcases Nat.lt_trichotomy k k' with hlt | heq | hgt
        · have := hr k
          rw [Mem.read_cons, if_pos rfl, Mem.read_cons, if_neg (by omega), low m' k' k h'.1 (by omega)] at this
          exact absurd this (by simp)
        · exact heq
        · have := hr k'
          rw [Mem.read_cons, if_neg (by omega), Mem.read_cons, if_pos rfl, low m k k' h.1 (by omega)] at this
          exact absurd this (by simp)
      subst hk
      have hw : w = w' := by simpa [Mem.read_cons] using hr k
      subst hw
      refine congrArg _ (ih m' (fun i => ?_) h.2 h'.2)
      by_cases hi : i = k
      · subst hi
        rw [low m i i h.1 le_rfl, low m' i i h'.1 le_rfl]
      · simpa [Mem.read_cons, hi] using hr i

/-! ## `fetch` and `store` -/

/-- `fetch` answers a word exactly where the space has the index and the index holds that word. -/
theorem fetch_ok_iff {p : Params} {sp : Space} {m : Mem α} {i : Nat} {v : α} :
    fetch p sp m i = .ok v ↔ i < sp.size p ∧ Mem.read m i = some v := by
  unfold fetch
  by_cases h : sp.size p ≤ i
  · simp [h]
  · simp only [h, if_false]
    cases hm : Mem.read m i
    · simp
    · simp; omega

theorem fetch_of_read {p : Params} {sp : Space} {m : Mem α} {i : Nat} {v : α} (hi : i < sp.size p)
    (h : Mem.read m i = some v) : fetch p sp m i = .ok v := fetch_ok_iff.mpr ⟨hi, h⟩

theorem store_of_lt {p : Params} {sp : Space} {m : Mem α} {i : Nat} (v : α) (hi : i < sp.size p) :
    store p sp m i v = .ok (Mem.write m i v) := by
  simp [store, Nat.not_le.mpr hi]

theorem store_ok_iff {p : Params} {sp : Space} {m m' : Mem α} {i : Nat} {v : α} :
    store p sp m i v = .ok m' ↔ i < sp.size p ∧ m' = Mem.write m i v := by
  unfold store
  by_cases h : sp.size p ≤ i
  · simp [h]
  · simp [h, eq_comm]; omega

@[simp] theorem size_wmem : Space.size Params.hfc .wmem = 256 := rfl
@[simp] theorem size_amem : Space.size Params.hfc .amem = 256 := rfl
@[simp] theorem size_node : Space.size Params.hfc .node = 511 := rfl
@[simp] theorem size_ct : Space.size Params.hfc .ct = 256 := rfl

end Sys2Proof.Machine
end

