-- ==== Sys2Proof/Laws/Queue.lean ====
section
/-!
SUPPORT. Laws of the priority queue (41_tree_builder.md R154): the key order is the order of one number, and
`extractMin` removes the least member.
-/

namespace Sys2Proof.Machine

/-- The key order as the order of one number: weight above node index. -/
def Of.Key.rank (k : Of.Key 40 9) : Nat := k.weight.toNat * 512 + k.node.toNat

theorem Key.before_iff (a b : Key) : a.before b = true ↔ a.rank < b.rank := by
  have ha := a.node.isLt
  have hb := b.node.isLt
  simp only [Of.Key.before, Of.Key.rank, decide_eq_true_eq]
  omega

theorem Key.rank_injective {a b : Key} (h : a.rank = b.rank) : a = b := by
  obtain ⟨wa, na⟩ := a
  obtain ⟨wb, nb⟩ := b
  have ha := na.isLt
  have hb := nb.isLt
  simp only [Of.Key.rank] at h
  have hw : wa = wb := BitVec.eq_of_toNat_eq (by omega)
  have hn : na = nb := BitVec.eq_of_toNat_eq (by omega)
  rw [hw, hn]

theorem Key.rank_least (a b : Key) : (Of.Key.least a b).rank = min a.rank b.rank := by
  unfold Of.Key.least
  by_cases h : b.before a = true
  · simp only [h, if_true]
    have := (Key.before_iff b a).mp h
    omega
  · simp only [h]
    have := mt (Key.before_iff b a).mpr h
    simp only [Bool.false_eq_true, if_false]
    omega

theorem Key.least_eq (a b : Key) : Of.Key.least a b = a ∨ Of.Key.least a b = b := by
  unfold Of.Key.least; split <;> simp

theorem foldl_least_mem (q : List Key) (k : Key) : q.foldl Of.Key.least k ∈ k :: q := by
  induction q generalizing k with
  | nil => simp
  | cons x q ih =>
    rcases Key.least_eq k x with h | h
    · have := ih (Of.Key.least k x)
      simp only [List.foldl_cons]
      rw [h] at this ⊢
      rcases List.mem_cons.mp this with e | e
      · rw [e]; simp
      · exact List.mem_cons_of_mem _ (List.mem_cons_of_mem _ e)
    · have := ih (Of.Key.least k x)
      simp only [List.foldl_cons]
      rw [h] at this ⊢
      exact List.mem_cons_of_mem _ this

theorem foldl_least_le (q : List Key) (k : Key) : ∀ x ∈ k :: q, (q.foldl Of.Key.least k).rank ≤ x.rank := by
  induction q generalizing k with
  | nil => simp
  | cons y q ih =>
    intro x hx
    have h := ih (Of.Key.least k y)
    have h0 := h _ List.mem_cons_self
    rw [Key.rank_least] at h0
    simp only [List.foldl_cons]
    rcases List.mem_cons.mp hx with rfl | hx
    · omega
    · rcases List.mem_cons.mp hx with rfl | hx
      · omega
      · exact h x (List.mem_cons_of_mem _ hx)

/-- `extractMin` answers a least member, and the queue without it. -/
theorem extractMin_spec {q rest : List Key} {k : Key} (h : extractMin q = some (k, rest)) :
    k ∈ q ∧ q.Perm (k :: rest) ∧ ∀ x ∈ q, k.rank ≤ x.rank := by
  cases q with
  | nil => simp [extractMin] at h
  | cons a q =>
    simp only [extractMin, Option.some.injEq, Prod.mk.injEq] at h
    obtain ⟨rfl, rfl⟩ := h
    exact ⟨foldl_least_mem q a, List.perm_cons_erase (foldl_least_mem q a), foldl_least_le q a⟩

theorem extractMin_eq_none {q : List Key} : extractMin q = none ↔ q = [] := by
  cases q <;> simp [extractMin]

theorem extractMin_singleton (k : Key) : extractMin [k] = some (k, []) := by
  simp [extractMin]

end Sys2Proof.Machine
end

