-- ==== Sys2Proof/Laws/TreeBuilder.lean ====
section
/-!
SUPPORT. What the tree builder computes (41_tree_builder.md R153 to R158): the invariant of its working state, kept by
leaf creation and by every merge, and the tree it ends with.
-/

namespace Sys2Proof.Machine

theorem childRefs_append (m m' : Mem Node) : childRefs (m ++ m') = childRefs m ++ childRefs m' := by
  simp [childRefs]

@[simp] theorem childRefs_leaf (k : Nat) (i : AlphaIdx) (w : NodeWeight) : childRefs [(k, .leaf i w)] = [] := rfl

@[simp] theorem childRefs_internal (k : Nat) (l r : NodeIdx) (w : NodeWeight) :
    childRefs [(k, .internal l r w)] = [l, r] := rfl

/-- A node is in `childRefs` exactly where some record names it as a child. -/
theorem mem_childRefs_iff {m : Mem Node} (hwf : Mem.wf m = true) (c : NodeIdx) :
    c ∈ childRefs m ↔ ∃ k l r w, Mem.read m k = some (.internal l r w) ∧ (c = l ∨ c = r) := by
  constructor
  · intro hc
    obtain ⟨⟨k, rec⟩, hcell, hin⟩ := List.mem_flatMap.mp hc
    cases rec with
    | leaf i w => simp at hin
    | internal l r w => exact ⟨k, l, r, w, Mem.read_of_mem hwf hcell, by simpa using hin⟩
  · rintro ⟨k, l, r, w, hr, hc⟩
    exact List.mem_flatMap.mpr ⟨(k, .internal l r w), Mem.mem_of_read hr, by simpa using hc⟩

/-- The working state of the tree builder over `n` weights, `leaves` of whose leaves exist: which records are written,
that the queue holds exactly the nodes that are no child yet, and that its weights sum to those of the leaves. -/
structure BuilderOk (wmem : Mem Weight) (leaves : Nat) (b : Builder) : Prop where
  dom : Mem.dom b.node = List.range b.next
  leaves_le : leaves ≤ b.next
  leaf : ∀ i, i < leaves → ∃ w, Mem.read wmem i = some w ∧
    Mem.read b.node i = some (.leaf (BitVec.ofNat 8 i) (w.setWidth 40))
  internal : ∀ k, leaves ≤ k → k < b.next → ∃ left right weight nl nr,
    Mem.read b.node k = some (.internal left right weight) ∧
    left.toNat < k ∧ right.toNat < k ∧ left ≠ right ∧
    Mem.read b.node left.toNat = some nl ∧ Mem.read b.node right.toNat = some nr ∧
    weight.toNat = nl.weight.toNat + nr.weight.toNat
  queue : ∀ k ∈ b.queue, ∃ rec, Mem.read b.node k.node.toNat = some rec ∧ rec.weight = k.weight
  nodes : ((b.queue.map fun k => k.node.toNat) ++ (childRefs b.node).map BitVec.toNat).Perm (List.range b.next)
  count : b.queue.length + b.next = 2 * leaves
  sum : (b.queue.map fun k => k.weight.toNat).sum ≤ leaves * (2 ^ 32 - 1)

/-- The new node of `Of.Builder.add` is above every node there is, so its record is appended. -/
theorem add_node {b : Builder} (h : Mem.dom b.node = List.range b.next) (rec : Node) :
    (b.add rec).node = b.node ++ [(b.next, rec)] :=
  Mem.write_above _ _ _ (by simp [h])

theorem read_add_old {b : Builder} (rec : Node) {k : Nat} (hk : k < b.next) :
    Mem.read (b.add rec).node k = Mem.read b.node k :=
  Mem.read_write_other _ _ (by omega)

theorem read_add_new (b : Builder) (rec : Node) : Mem.read (b.add rec).node b.next = some rec :=
  Mem.read_write_same _ _ _

theorem lt_next_of_read {b : Builder} (h : Mem.dom b.node = List.range b.next) {k : Nat} {rec : Node}
    (hr : Mem.read b.node k = some rec) : k < b.next := by
  have := (Mem.mem_dom_iff b.node k).mpr ⟨rec, hr⟩
  simpa [h] using this

/-- R153: with every weight present, leaf creation answers a builder of `n` leaves and no internal node. -/
theorem createLeaves_spec {wmem : Mem Weight} {n : Nat} (hn : n ≤ 256)
    (hw : ∀ i, i < n → ∃ w, Mem.read wmem i = some w) :
    ∃ b, createLeaves Params.hfc wmem n = .ok b ∧ b.next = n ∧ BuilderOk wmem n b := by
  induction n with
  | zero =>
    exact ⟨Of.Builder.empty, rfl, rfl, ⟨rfl, le_rfl, by simp, by simp [Of.Builder.empty], by simp [Of.Builder.empty],
      by simp [Of.Builder.empty, childRefs], rfl, by simp [Of.Builder.empty]⟩⟩
  | succ n ih =>
    obtain ⟨b, hb, hnext, ok⟩ := ih (by omega) fun i hi => hw i (by omega)
    obtain ⟨w, hwn⟩ := hw n (by omega)
    refine ⟨b.add (.leaf (BitVec.ofNat 8 n) (w.setWidth 40)), ?_, by simp [Of.Builder.add, hnext], ?_⟩
    · simp [createLeaves, hb, fetch_of_read (by simp; omega : n < Space.size Params.hfc .wmem) hwn]
    · have hdom : Mem.dom (b.add (.leaf (BitVec.ofNat 8 n) (w.setWidth 40))).node = List.range (b.next + 1) :=
        Mem.dom_write_next _ _ _ ok.dom
      refine ⟨hdom, by simp [Of.Builder.add, hnext], ?_, ?_, ?_, ?_, ?_, ?_⟩
      · intro i hi
        by_cases h : i = n
        · subst h
          exact ⟨w, hwn, by rw [← hnext]; exact read_add_new _ _⟩
        · obtain ⟨v, h1, h2⟩ := ok.leaf i (by omega)
          exact ⟨v, h1, by rw [read_add_old _ (by omega), h2]⟩
      · intro k h1 h2
        simp [Of.Builder.add, hnext] at h2
        omega
      · intro k hk
        simp only [Of.Builder.add, List.mem_cons] at hk
        rcases hk with rfl | hk
        · refine ⟨.leaf (BitVec.ofNat 8 n) (w.setWidth 40), ?_, rfl⟩
          have : (BitVec.ofNat 9 b.next).toNat = b.next := by
            simp [BitVec.toNat_ofNat]; omega
          simp only [this]
          exact read_add_new _ _
        · obtain ⟨rec, h1, h2⟩ := ok.queue k hk
          exact ⟨rec, by rw [read_add_old _ (lt_next_of_read ok.dom h1), h1], h2⟩
      · rw [add_node ok.dom, childRefs_append]
        have : (BitVec.ofNat 9 b.next).toNat = b.next := by
          simp [BitVec.toNat_ofNat]; omega
        simp only [Of.Builder.add, List.map_cons, this, childRefs_leaf, List.append_nil, List.range_succ, List.cons_append]
        exact (ok.nodes.cons b.next).trans (List.perm_append_singleton _ _).symm
      · have := ok.count
        simp [Of.Builder.add]
        omega
      · have h1 := ok.sum
        have h2 := w.isLt
        have h3 : (w.setWidth 40).toNat = w.toNat := by
          simp [BitVec.toNat_setWidth]; omega
        simp only [Of.Builder.add, List.map_cons, List.sum_cons, Of.Node.weight, h3]
        omega

/-- R155, R156: one turn of the merge loop on a builder with at least two members. -/
theorem mergeStep_spec {wmem : Mem Weight} {n : Nat} (hn : n ≤ 256) {b : Builder} (ok : BuilderOk wmem n b)
    (hq : 2 ≤ b.queue.length) : ∃ b', mergeStep b = some b' ∧ b'.next = b.next + 1 ∧ BuilderOk wmem n b' := by
  unfold mergeStep
  cases h1 : extractMin b.queue with
  | none => rw [extractMin_eq_none] at h1; simp [h1] at hq
  | some x =>
    obtain ⟨k1, q1⟩ := x
    obtain ⟨hm1, hp1, -⟩ := extractMin_spec h1
    have hl1 := hp1.length_eq
    simp only [List.length_cons] at hl1
    cases h2 : extractMin q1 with
    | none => rw [extractMin_eq_none] at h2; simp [h2] at hl1; omega
    | some y =>
      obtain ⟨k2, q2⟩ := y
      obtain ⟨hm2, hp2, -⟩ := extractMin_spec h2
      have hl2 := hp2.length_eq
      simp only [List.length_cons] at hl2
      have hp : b.queue.Perm (k1 :: k2 :: q2) := hp1.trans (hp2.cons k1)
      have hsum := ok.sum
      rw [(hp.map _).sum_eq] at hsum
      simp only [List.map_cons, List.sum_cons] at hsum
      have hcount := ok.count
      have hnext : b.next < 511 := by omega
      have hidx : (BitVec.ofNat 9 b.next).toNat = b.next := by
        simp [BitVec.toNat_ofNat]; omega
      have hw : (k1.weight + k2.weight).toNat = k1.weight.toNat + k2.weight.toNat := by
        rw [BitVec.toNat_add]; apply Nat.mod_eq_of_lt
        have : n * (2 ^ 32 - 1) ≤ 256 * (2 ^ 32 - 1) := Nat.mul_le_mul_right _ hn
        omega
      obtain ⟨n1, hr1, hw1⟩ := ok.queue k1 hm1
      obtain ⟨n2, hr2, hw2⟩ := ok.queue k2 (hp.symm.subset (by simp))
      have hlt1 := lt_next_of_read ok.dom hr1
      have hlt2 := lt_next_of_read ok.dom hr2
      have hnodes := ((hp.map fun k => k.node.toNat).append_right ((childRefs b.node).map BitVec.toNat)).symm.trans ok.nodes
      have hne : k1.node ≠ k2.node := by
        intro e
        have := hnodes.nodup_iff.mpr List.nodup_range
        simp [e] at this
      have dom' : Mem.dom ({ b with queue := q2 } : Builder).node = List.range ({ b with queue := q2 } : Builder).next := ok.dom
      have old : ∀ {k : Nat}, k < b.next →
          Mem.read (({ b with queue := q2 } : Builder).add (.internal k1.node k2.node (k1.weight + k2.weight))).node k =
            Mem.read b.node k := fun hk => read_add_old (b := { b with queue := q2 }) _ hk
      refine ⟨({ b with queue := q2 } : Builder).add (.internal k1.node k2.node (k1.weight + k2.weight)), by simp [h2], rfl, ?_⟩
      refine ⟨Mem.dom_write_next _ _ _ ok.dom, ?_, ?_, ?_, ?_, ?_, ?_, ?_⟩
      · have := ok.leaves_le
        simp only [Of.Builder.add]; omega
      · intro i hi
        obtain ⟨v, h1, h2⟩ := ok.leaf i hi
        exact ⟨v, h1, (old (by have := ok.leaves_le; omega)).trans h2⟩
      · intro k hk1 hk2
        by_cases hk : k = b.next
        · subst hk
          refine ⟨_, _, _, n1, n2, read_add_new _ _, hlt1, hlt2, hne, ?_, ?_, ?_⟩
          · exact (old hlt1).trans hr1
          · exact (old hlt2).trans hr2
          · rw [hw, hw1, hw2]
        · simp only [Of.Builder.add] at hk2
          obtain ⟨l, r, w, nl, nr, g1, g2, g3, g4, g5, g6, g7⟩ := ok.internal k hk1 (by omega)
          refine ⟨l, r, w, nl, nr, ?_, g2, g3, g4, ?_, ?_, g7⟩
          · exact (old (by omega)).trans g1
          · exact (old (by omega)).trans g5
          · exact (old (by omega)).trans g6
      · intro k hk
        simp only [Of.Builder.add, List.mem_cons] at hk
        rcases hk with rfl | hk
        · refine ⟨.internal k1.node k2.node (k1.weight + k2.weight), ?_, rfl⟩
          simp only [hidx]
          exact read_add_new _ _
        · obtain ⟨rec, g1, g2⟩ := ok.queue k (hp.symm.subset (by simp [hk]))
          refine ⟨rec, ?_, g2⟩
          exact (old (lt_next_of_read ok.dom g1)).trans g1
      · rw [add_node dom', childRefs_append]
        simp only [Of.Builder.add, List.map_cons, hidx, childRefs_internal, List.range_succ, List.map_append, List.map_nil,
          List.cons_append]
        refine List.Perm.trans ?_ (List.perm_append_singleton _ _).symm
        refine List.Perm.cons _ (List.Perm.trans ?_ hnodes)
        simp only [List.map_cons, List.cons_append]
        refine (List.append_assoc _ _ _).symm ▸ ?_
        exact (List.perm_append_comm (l₁ := List.map (fun k => k.node.toNat) q2 ++ List.map BitVec.toNat (childRefs b.node))
          (l₂ := [k1.node.toNat, k2.node.toNat]))
      · simp only [Of.Builder.add, List.length_cons]; omega
      · simp only [Of.Builder.add, List.map_cons, List.sum_cons, Of.Node.weight, hw]; omega

/-- With fewer than two members the merge loop ends. -/
theorem mergeStep_single {b : Builder} (hq : b.queue.length ≤ 1) : mergeStep b = none := by
  unfold mergeStep
  cases h1 : extractMin b.queue with
  | none => rfl
  | some x =>
    obtain ⟨k1, q1⟩ := x
    have := (extractMin_spec h1).2.1.length_eq
    simp only [List.length_cons] at this
    have hq1 : q1 = [] := List.length_eq_zero_iff.mp (by omega)
    simp [hq1, extractMin]

/-- R155: the loop leaves one member, after one turn less than there are members. -/
theorem mergeLoop_spec {wmem : Mem Weight} {n : Nat} (hn : n ≤ 256) (turns : Nat) {b : Builder}
    (ok : BuilderOk wmem n b) (h1 : 1 ≤ b.queue.length) (ht : b.queue.length ≤ turns + 1) :
    BuilderOk wmem n (mergeLoop turns b) ∧ (mergeLoop turns b).queue.length = 1 := by
  induction turns generalizing b with
  | zero => exact ⟨ok, by simp [mergeLoop]; omega⟩
  | succ turns ih =>
    unfold mergeLoop
    by_cases h2 : 2 ≤ b.queue.length
    · obtain ⟨b', hb', hnext, ok'⟩ := mergeStep_spec hn ok h2
      rw [hb']
      have c := ok.count
      have c' := ok'.count
      exact ih ok' (by omega) (by omega)
    · rw [mergeStep_single (by omega)]
      exact ⟨ok, by simp; omega⟩

/-- A key of the queue's last member, and the tree under it (R157, R158). -/
theorem buildTree_spec {wmem : Mem Weight} {n : Nat} (h1 : 1 ≤ n) (hn : n ≤ 256)
    (hw : ∀ i, i < n → ∃ w, Mem.read wmem i = some w) :
    ∃ b root, buildTree Params.hfc wmem n = .ok b ∧ b.queue = [root] ∧ b.next = 2 * n - 1 ∧
      root.node.toNat = 2 * n - 2 ∧ TreeOk wmem n b.node ∧ BuilderOk wmem n b := by
  obtain ⟨b0, hb0, hnext0, ok0⟩ := createLeaves_spec hn hw
  have c0 := ok0.count
  obtain ⟨ok, hlen⟩ := mergeLoop_spec hn n ok0 (by omega) (by omega)
  obtain ⟨root, hroot⟩ := List.length_eq_one_iff.mp hlen
  have c := ok.count
  have hnext : (mergeLoop n b0).next = 2 * n - 1 := by omega
  refine ⟨_, root, by simp [buildTree, hb0], hroot, hnext, ?_⟩
  have hnodes := ok.nodes
  rw [hroot, hnext] at hnodes
  simp only [List.map_cons, List.map_nil, List.singleton_append] at hnodes
  have hnot : 2 * n - 2 ∉ (childRefs (mergeLoop n b0).node).map BitVec.toNat := by
    intro hmem
    obtain ⟨c, hc, hcn⟩ := List.mem_map.mp hmem
    obtain ⟨k, l, r, w, hread, hlr⟩ := (mem_childRefs_iff (Mem.wf_of_dom_range _ _ ok.dom) c).mp hc
    have hk : k < 2 * n - 1 := by rw [← hnext]; exact lt_next_of_read ok.dom hread
    by_cases hkn : k < n
    · obtain ⟨w, -, hl⟩ := ok.leaf k hkn
      rw [hread] at hl
      cases hl
    · obtain ⟨l, r, w, nl, nr, g1, g2, g3, -⟩ := ok.internal k (by omega) (by omega)
      rw [hread] at g1
      cases g1
      rcases hlr with rfl | rfl <;> omega
  have hrootIdx : root.node.toNat = 2 * n - 2 := by
    have : 2 * n - 2 ∈ root.node.toNat :: (childRefs (mergeLoop n b0).node).map BitVec.toNat :=
      hnodes.symm.subset (by simp; omega)
    rcases List.mem_cons.mp this with h | h
    · exact h.symm
    · exact absurd h hnot
  refine ⟨hrootIdx, ⟨by rw [ok.dom, hnext], ok.leaf, fun k hk1 hk2 => ok.internal k hk1 (by omega), ?_⟩, ok⟩
  rw [hrootIdx, show 2 * n - 1 = (2 * n - 2) + 1 by omega, List.range_succ] at hnodes
  exact ((hnodes.trans (List.perm_append_singleton _ _)).cons_inv)

end Sys2Proof.Machine
end

