-- ==== Sys2Proof/Laws/Paths.lean ====
section
/-!
SUPPORT. Paths in a tree: `follow` along a concatenation, nodes on a path fall in index, every node lies on a path from
the root, and two different leaves are on paths that part, and a node lies on one path.
-/

namespace Sys2Proof.Machine

@[simp] theorem follow_nil (node : Mem Node) (k : NodeIdx) : follow node k [] = some k := rfl

theorem follow_cons_internal {node : Mem Node} {k l r : NodeIdx} {w : NodeWeight} (b : Bool) (bs : List Bool)
    (h : Mem.read node k.toNat = some (.internal l r w)) :
    follow node k (b :: bs) = follow node (if b then r else l) bs := by
  simp [follow, h]

theorem follow_cons_leaf {node : Mem Node} {k : NodeIdx} {i : AlphaIdx} {w : NodeWeight} (b : Bool) (bs : List Bool)
    (h : Mem.read node k.toNat = some (.leaf i w)) : follow node k (b :: bs) = none := by
  simp [follow, h]

/-- A nonempty path starts at an internal node. -/
theorem follow_cons_some {node : Mem Node} {k c : NodeIdx} {b : Bool} {bs : List Bool}
    (h : follow node k (b :: bs) = some c) :
    ∃ l r w, Mem.read node k.toNat = some (.internal l r w) ∧ follow node (if b then r else l) bs = some c := by
  unfold follow at h
  cases hr : Mem.read node k.toNat with
  | none => simp [hr] at h
  | some rec =>
    cases rec with
    | leaf i w => simp [hr] at h
    | internal l r w => exact ⟨l, r, w, rfl, by simpa [hr] using h⟩

theorem follow_append (node : Mem Node) (k : NodeIdx) (bs cs : List Bool) :
    follow node k (bs ++ cs) = (follow node k bs).bind fun c => follow node c cs := by
  induction bs generalizing k with
  | nil => rfl
  | cons b bs ih =>
    simp only [List.cons_append, follow]
    cases Mem.read node k.toNat with
    | none => rfl
    | some rec => cases rec with
      | leaf i w => rfl
      | internal l r w => exact ih _

/-- Two paths to leaves, one of which is the beginning of the other, are the same path. -/
theorem follow_prefix_leaf {node : Mem Node} {k c d : NodeIdx} {bs cs : List Bool} {i : AlphaIdx} {w : NodeWeight}
    (hc : follow node k bs = some c) (hl : Mem.read node c.toNat = some (.leaf i w))
    (hd : follow node k (bs ++ cs) = some d) : cs = [] := by
  rw [follow_append, hc] at hd
  cases cs with
  | nil => rfl
  | cons b cs => simp [follow_cons_leaf b cs hl] at hd

namespace TreeOk

variable {wmem : Mem Weight} {n : Nat} {node : Mem Node}

theorem read_of_lt (t : TreeOk wmem n node) {k : Nat} (hk : k < 2 * n - 1) : ∃ rec, Mem.read node k = some rec :=
  (Mem.mem_dom_iff node k).mp (by simp [t.dom, hk])

theorem lt_of_read (t : TreeOk wmem n node) {k : Nat} {rec : Node} (h : Mem.read node k = some rec) :
    k < 2 * n - 1 := by
  have := (Mem.mem_dom_iff node k).mpr ⟨rec, h⟩
  simpa [t.dom] using this

/-- A leaf record is one of the leaves, and names itself. -/
theorem leaf_inv (t : TreeOk wmem n node) {k : Nat} {i : AlphaIdx} {w : NodeWeight}
    (h : Mem.read node k = some (.leaf i w)) : k < n ∧ i = BitVec.ofNat 8 k := by
  have hk := t.lt_of_read h
  by_cases hn : k < n
  · obtain ⟨w', -, h'⟩ := t.leaf k hn
    rw [h] at h'
    cases h'
    exact ⟨hn, rfl⟩
  · obtain ⟨l, r, w', _, _, h', -⟩ := t.internal k (by omega) hk
    rw [h] at h'
    cases h'

/-- An internal record is above the leaves and its children are below it. -/
theorem internal_inv (t : TreeOk wmem n node) {k : Nat} {l r : NodeIdx} {w : NodeWeight}
    (h : Mem.read node k = some (.internal l r w)) : n ≤ k ∧ k < 2 * n - 1 ∧ l.toNat < k ∧ r.toNat < k ∧ l ≠ r := by
  have hk := t.lt_of_read h
  by_cases hn : k < n
  · obtain ⟨w', -, h'⟩ := t.leaf k hn
    rw [h] at h'
    cases h'
  · obtain ⟨l', r', w', _, _, h', h1, h2, h3, -⟩ := t.internal k (by omega) hk
    rw [h] at h'
    cases h'
    exact ⟨by omega, hk, h1, h2, h3⟩

/-- Every edge of a path lowers the node index, and the last node is a node of the tree. -/
theorem follow_le (t : TreeOk wmem n node) {k c : NodeIdx} {bs : List Bool} (h : follow node k bs = some c)
    (hk : k.toNat < 2 * n - 1) : c.toNat + bs.length ≤ k.toNat := by
  induction bs generalizing k with
  | nil => simp at h; subst h; simp
  | cons b bs ih =>
    obtain ⟨l, r, w, hr, hf⟩ := follow_cons_some h
    obtain ⟨-, -, h1, h2, -⟩ := t.internal_inv hr
    have hlt : (if b then r else l).toNat < k.toNat := by split <;> assumption
    have := ih hf (by omega)
    simp only [List.length_cons]
    omega

theorem follow_lt (t : TreeOk wmem n node) {k c : NodeIdx} {bs : List Bool} (h : follow node k bs = some c)
    (hk : k.toNat < 2 * n - 1) : c.toNat < 2 * n - 1 := by
  have := t.follow_le h hk
  omega

/-- Every node but the root is the child of some node. -/
theorem parent (t : TreeOk wmem n node) {j : Nat} (hj : j < 2 * n - 2) :
    ∃ k l r w, Mem.read node k = some (.internal l r w) ∧ (j = l.toNat ∨ j = r.toNat) := by
  have : j ∈ (childRefs node).map BitVec.toNat := t.refs.symm.subset (by simp [hj])
  obtain ⟨c, hc, rfl⟩ := List.mem_map.mp this
  obtain ⟨k, l, r, w, h, hlr⟩ := (mem_childRefs_iff (Mem.wf_of_dom_range _ _ t.dom) c).mp hc
  exact ⟨k, l, r, w, h, hlr.imp (congrArg _) (congrArg _)⟩

/-- Every node lies on a path from the root. -/
theorem reachable (t : TreeOk wmem n node) (hn : n ≤ 256) {root : NodeIdx} (hroot : root.toNat = 2 * n - 2) (j : Nat)
    (hj : j < 2 * n - 1) : ∃ bs, follow node root bs = some (BitVec.ofNat 9 j) := by
  induction hm : 2 * n - 2 - j using Nat.strong_induction_on generalizing j with
  | _ m ih =>
    by_cases he : j = 2 * n - 2
    · refine ⟨[], ?_⟩
      simp only [follow_nil, Option.some.injEq]
      apply BitVec.eq_of_toNat_eq
      simp [BitVec.toNat_ofNat]
      omega
    · obtain ⟨k, l, r, w, hr, hlr⟩ := t.parent (j := j) (by omega)
      obtain ⟨h1, h2, h3, h4, -⟩ := t.internal_inv hr
      obtain ⟨bs, hbs⟩ := ih (2 * n - 2 - k) (by omega) k h2 rfl
      have hk : (BitVec.ofNat 9 k).toNat = k := by simp [BitVec.toNat_ofNat]; omega
      rcases hlr with e | e
      · refine ⟨bs ++ [false], ?_⟩
        rw [follow_append, hbs, Option.bind_some, follow_cons_internal false [] (by rw [hk]; exact hr)]
        simp [e]
      · refine ⟨bs ++ [true], ?_⟩
        rw [follow_append, hbs, Option.bind_some, follow_cons_internal true [] (by rw [hk]; exact hr)]
        simp [e]

/-- R185: from an internal node every long enough bit sequence starts with exactly one path to a leaf; here its
existence, for the bits of a function from position `d` on. -/
theorem leaf_on_path (t : TreeOk wmem n node) (f : Nat → Bool) (k : NodeIdx) (d : Nat) (hk : k.toNat < 2 * n - 1) :
    ∃ m c i w, follow node k ((List.range m).map fun e => f (d + e)) = some c ∧
      Mem.read node c.toNat = some (.leaf i w) := by
  induction hm : k.toNat using Nat.strong_induction_on generalizing k d with
  | _ m ih =>
    obtain ⟨rec, hr⟩ := t.read_of_lt hk
    cases rec with
    | leaf i w => exact ⟨0, k, i, w, rfl, hr⟩
    | internal l r w =>
      obtain ⟨-, -, h1, h2, -⟩ := t.internal_inv hr
      have hlt : (if f d then r else l).toNat < k.toNat := by split <;> assumption
      obtain ⟨m', c, i, w', hf, hl⟩ := ih _ (by omega) (if f d then r else l) (d + 1) (by omega) rfl
      refine ⟨m' + 1, c, i, w', ?_, hl⟩
      rw [List.range_succ_eq_map, List.map_cons, follow_cons_internal _ _ hr]
      simp only [List.map_map, Nat.add_zero]
      rw [← hf]
      congr 1
      apply List.map_congr_left
      intro e _
      simp only [Function.comp]
      congr 1
      omega

end TreeOk

/-- The last edge of a path. -/
theorem follow_concat {node : Mem Node} {k c : NodeIdx} {bs : List Bool} {b : Bool}
    (h : follow node k (bs ++ [b]) = some c) : ∃ p l r w, follow node k bs = some p ∧
      Mem.read node p.toNat = some (.internal l r w) ∧ c = if b then r else l := by
  rw [follow_append] at h
  cases hp : follow node k bs with
  | none => simp [hp] at h
  | some p =>
    rw [hp, Option.bind_some] at h
    obtain ⟨l, r, w, h1, h2⟩ := follow_cons_some h
    exact ⟨p, l, r, w, rfl, h1, by simpa using h2.symm⟩

theorem child_mem_childRefs {m : Mem Node} {k : Nat} {l r : NodeIdx} {w : NodeWeight} (b : Bool)
    (h : (k, Of.Node.internal l r w) ∈ m) : (if b then r else l) ∈ childRefs m :=
  List.mem_flatMap.mpr ⟨_, h, by cases b <;> simp⟩

/-- Where the child references are pairwise different, a node has one parent, on one side (R158). -/
theorem parent_unique {m : Mem Node} (hnd : (childRefs m).Nodup) {k k' : Nat} {l r l' r' : NodeIdx}
    {w w' : NodeWeight} {b b' : Bool} (h : (k, Of.Node.internal l r w) ∈ m) (h' : (k', Of.Node.internal l' r' w') ∈ m)
    (he : (if b then r else l) = if b' then r' else l') :
    ((k, .internal l r w) : Nat × Node) = (k', .internal l' r' w') ∧ b = b' := by
  induction m with
  | nil => simp at h
  | cons cell m ih =>
    rw [show cell :: m = [cell] ++ m from rfl, childRefs_append, List.nodup_append] at hnd
    rcases List.mem_cons.mp h with rfl | h1 <;> rcases List.mem_cons.mp h' with h2 | h2
    · cases h2
      have := hnd.1
      simp only [childRefs_internal, List.nodup_cons, List.mem_singleton] at this
      refine ⟨rfl, ?_⟩
      cases b <;> cases b' <;> simp_all
    · refine absurd he (hnd.2.2 _ ?_ _ (child_mem_childRefs b' h2))
      cases b <;> simp
    · subst h2
      refine absurd he.symm (hnd.2.2 _ ?_ _ (child_mem_childRefs b h1))
      cases b' <;> simp
    · exact ih hnd.2.1 h1 h2

/-- A node of a tree lies on one path from the root. -/
theorem TreeOk.path_unique {wmem : Mem Weight} {n : Nat} {node : Mem Node} (t : TreeOk wmem n node) {root c : NodeIdx}
    (hroot : root.toNat = 2 * n - 2) (h1 : 1 ≤ n) {bs cs : List Bool}
    (hb : follow node root bs = some c) (hc : follow node root cs = some c) :
    bs = cs := by
  have hnd : (childRefs node).Nodup := (t.refs.nodup_iff.mpr List.nodup_range).of_map
  have top : ∀ {bs : List Bool}, follow node root bs = some root → bs = [] := by
    intro bs h
    have := t.follow_le h (by omega)
    exact List.length_eq_zero_iff.mp (by omega)
  induction bs using List.reverseRecOn generalizing c cs with
  | nil =>
    simp only [follow_nil, Option.some.injEq] at hb
    subst hb
    exact (top hc).symm
  | append_singleton bs b ih =>
    rcases List.eq_nil_or_concat cs with rfl | ⟨cs, b', rfl⟩
    · simp only [follow_nil, Option.some.injEq] at hc
      subst hc
      exact top hb
    · rw [List.concat_eq_append] at hc ⊢
      obtain ⟨p, l, r, w, f1, g1, e1⟩ := follow_concat hb
      obtain ⟨p', l', r', w', f2, g2, e2⟩ := follow_concat hc
      obtain ⟨hp, hbb⟩ := parent_unique hnd (Mem.mem_of_read g1) (Mem.mem_of_read g2) (e1.symm.trans e2)
      have hpp : p = p' := BitVec.eq_of_toNat_eq (Prod.mk.inj hp).1
      rw [ih f1 (hpp ▸ f2), hbb]

end Sys2Proof.Machine
end

