-- ==== Sys2Proof/Laws/CodeTable.lean ====
section
/-!
SUPPORT. What the traversal computes (42_code_table.md R180 to R184): the bits of a path as a payload, the table of a
tree, when the traversal ends with `TreeTooDeep`, and that it never meets a record without a value.
-/

namespace Sys2Proof.Machine

/-- The accumulator at the end of a path that starts at depth `depth` with accumulator `acc` (R180). -/
def pathAcc : Nat → Payload → List Bool → Payload
  | _, acc, [] => acc
  | depth, acc, b :: bs => pathAcc (depth + 1) (if b then rightPath depth acc else acc) bs

theorem getLsbD_rightPath (depth d : Nat) (acc : Payload) (h : depth < 57) :
    (rightPath depth acc).getLsbD d = (acc.getLsbD d || decide (d = depth)) := by
  unfold rightPath
  simp only [BitVec.getLsbD_or, BitVec.getLsbD_shiftLeft, BitVec.getLsbD_one]
  by_cases hd : d = depth
  · subst hd; simp [h]
  · by_cases h1 : d < depth
    · simp [h1, hd]
    · have : d - depth ≠ 0 := by omega
      simp [hd, this]

/-- R184: bit `d` of the accumulator is the edge at depth `d`. -/
theorem getLsbD_pathAcc (depth : Nat) (acc : Payload) (bs : List Bool) (hlen : depth + bs.length ≤ 57)
    (hacc : ∀ d, depth ≤ d → acc.getLsbD d = false) (d : Nat) :
    (pathAcc depth acc bs).getLsbD d =
      if d < depth then acc.getLsbD d else bs.getD (d - depth) false := by
  induction bs generalizing depth acc with
  | nil =>
    by_cases h : d < depth
    · simp [pathAcc, h]
    · simp [pathAcc, h, hacc d (by omega)]
  | cons b bs ih =>
    simp only [List.length_cons] at hlen
    have hacc' : ∀ d, depth + 1 ≤ d → (if b then rightPath depth acc else acc).getLsbD d = false := by
      intro e he
      cases b
      · simpa using hacc e (by omega)
      · simp [getLsbD_rightPath depth e acc (by omega), hacc e (by omega)]; omega
    rw [pathAcc, ih (depth + 1) _ (by omega) hacc']
    by_cases h1 : d < depth
    · have h2 : d < depth + 1 := by omega
      simp only [h1, h2, if_true]
      cases b
      · simp
      · simp [getLsbD_rightPath depth d acc (by omega)]; omega
    · by_cases h2 : d = depth
      · subst h2
        cases b
        · simp [hacc d le_rfl]
        · simp [getLsbD_rightPath d d acc (by omega)]
      · have h3 : ¬ d < depth + 1 := by omega
        have h4 : d - depth = (d - (depth + 1)) + 1 := by omega
        simp [h1, h3, h4]

theorem pack_eq (len : CwLen) (bits : Payload) : pack len bits = len ++ bits := BitVec.setWidth_eq _

theorem cwLen_eq (w : Codeword) : cwLen w = w.extractLsb' 57 7 := rfl

theorem cwBits_eq (w : Codeword) : cwBits w = w.extractLsb' 0 57 := rfl

theorem codeTable_eq (node : Mem Node) (root : NodeIdx) : codeTable Params.hfc node root =
    visit Params.hfc node 57 root 0 (0 : Payload) ([] : Mem Codeword) := rfl

theorem getLsbD_pack (len : CwLen) (bits : Payload) (i : Nat) :
    (pack len bits).getLsbD i = if i < 57 then bits.getLsbD i else len.getLsbD (i - 57) := by
  rw [pack_eq]; exact BitVec.getLsbD_append

@[simp] theorem cwLen_pack (len : CwLen) (bits : Payload) : cwLen (pack len bits) = len := by
  apply BitVec.eq_of_getLsbD_eq
  intro i hi
  rw [cwLen_eq, BitVec.getLsbD_extractLsb', getLsbD_pack]
  simp [hi]

@[simp] theorem cwBits_pack (len : CwLen) (bits : Payload) : cwBits (pack len bits) = bits := by
  apply BitVec.eq_of_getLsbD_eq
  intro i hi
  rw [cwBits_eq, BitVec.getLsbD_extractLsb', Nat.zero_add, getLsbD_pack]
  simp [hi]

theorem pack_cwLen_cwBits (w : Codeword) : pack (cwLen w) (cwBits w) = w := by
  apply BitVec.eq_of_getLsbD_eq
  intro i hi
  rw [getLsbD_pack, cwLen_eq, cwBits_eq, BitVec.getLsbD_extractLsb', BitVec.getLsbD_extractLsb']
  by_cases h : i < 57
  · simp [h]
  · have h1 : i - 57 < 7 := by omega
    have h2 : 57 + (i - 57) = i := by omega
    simp [h, h1, h2]

/-- R62: the codeword recorded for a path from the root enumerates the edges of the path. -/
theorem toList_pack_pathAcc (bs : List Bool) (h : bs.length ≤ 57) :
    (codewordSeq (pack (BitVec.ofNat 7 bs.length) (pathAcc 0 0 bs))).toList = bs := by
  have hlen : (BitVec.ofNat 7 bs.length).toNat = bs.length := by simp [BitVec.toNat_ofNat]; omega
  apply List.ext_getElem
  · simp [BitSeq.toList, codewordSeq, hlen]
  · intro i h1 h2
    simp only [BitSeq.toList, codewordSeq, cwBits_pack, cwLen_pack, hlen, List.getElem_map, List.getElem_range]
    rw [getLsbD_pathAcc 0 0 bs (by omega) (by simp)]
    simp [h2]

/-- What a table may hold after a traversal from `k`, beside what it held before: the entry of a leaf below `k`. -/
def EntryFrom (node : Mem Node) (room : Nat) (k : NodeIdx) (depth : Nat) (acc : Payload) (i : Nat) (w : Codeword) : Prop :=
  ∃ bs c index weight, bs.length ≤ room ∧ follow node k bs = some c ∧
    Mem.read node c.toNat = some (.leaf index weight) ∧ index.toNat = i ∧
    w = pack (BitVec.ofNat 7 (depth + bs.length)) (pathAcc depth acc bs)

/-- R180, R181: a traversal that ends with a table. -/
theorem visit_ok {node : Mem Node} {room : Nat} {k : NodeIdx} {depth : Nat} {acc : Payload} {table table' : Mem Codeword}
    (h : visit Params.hfc node room k depth acc table = .ok table') :
    (Mem.wf table = true → Mem.wf table' = true) ∧
    (∀ i w, Mem.read table' i = some w → Mem.read table i = some w ∨ EntryFrom node room k depth acc i w) ∧
    (∀ i, i ∈ Mem.dom table → i ∈ Mem.dom table') ∧
    (∀ bs c index weight, follow node k bs = some c → Mem.read node c.toNat = some (.leaf index weight) →
      index.toNat ∈ Mem.dom table') := by
  have leafCase : ∀ (room : Nat) (k : NodeIdx) (depth : Nat) (acc : Payload) (table : Mem Codeword) (index : AlphaIdx)
      (weight : NodeWeight), Mem.read node k.toNat = some (.leaf index weight) →
      (Mem.wf table = true → Mem.wf (Mem.write table index.toNat (pack (BitVec.ofNat 7 depth) acc)) = true) ∧
      (∀ i w, Mem.read (Mem.write table index.toNat (pack (BitVec.ofNat 7 depth) acc)) i = some w →
        Mem.read table i = some w ∨ EntryFrom node room k depth acc i w) ∧
      (∀ i, i ∈ Mem.dom table → i ∈ Mem.dom (Mem.write table index.toNat (pack (BitVec.ofNat 7 depth) acc))) ∧
      (∀ bs c index' weight', follow node k bs = some c → Mem.read node c.toNat = some (.leaf index' weight') →
        index'.toNat ∈ Mem.dom (Mem.write table index.toNat (pack (BitVec.ofNat 7 depth) acc))) := by
    intro room k depth acc table index weight hl
    refine ⟨Mem.wf_write _ _ _, ?_, fun i hi => (Mem.mem_dom_write _ _ _ _).mpr (.inr hi), ?_⟩
    · intro i w hr
      rw [Mem.read_write] at hr
      by_cases hi : i = index.toNat
      · simp only [hi, if_true, Option.some.injEq] at hr
        exact .inr ⟨[], k, index, weight, by simp, rfl, hl, hi.symm, by simp [pathAcc, hr]⟩
      · exact .inl (by simpa [hi] using hr)
    · intro bs c index' weight' hf hc
      cases bs with
      | nil =>
        simp only [follow_nil, Option.some.injEq] at hf
        subst hf
        rw [hl] at hc
        cases hc
        exact (Mem.mem_dom_write _ _ _ _).mpr (.inl rfl)
      | cons b bs => simp [follow_cons_leaf b bs hl] at hf
  induction room generalizing k depth acc table table' with
  | zero =>
    unfold visit at h
    cases hf : fetch Params.hfc .node node k.toNat with
    | error f => simp [hf] at h
    | ok rec =>
      cases rec with
      | leaf index weight =>
        simp only [hf, Except.ok.injEq] at h
        subst h
        exact leafCase 0 k depth acc table index weight (fetch_ok_iff.mp hf).2
      | internal l r w => simp [hf] at h
  | succ room ih =>
    unfold visit at h
    cases hf : fetch Params.hfc .node node k.toNat with
    | error f => simp [hf] at h
    | ok rec =>
      cases rec with
      | leaf index weight =>
        simp only [hf, Except.ok.injEq] at h
        subst h
        exact leafCase (room + 1) k depth acc table index weight (fetch_ok_iff.mp hf).2
      | internal l r w =>
        have hr := (fetch_ok_iff.mp hf).2
        simp only [hf] at h
        cases hl : visit Params.hfc node room l (depth + 1) acc table with
        | error e => simp [hl] at h
        | ok mid =>
          simp only [hl] at h
          obtain ⟨a1, a2, a3, a4⟩ := ih hl
          obtain ⟨b1, b2, b3, b4⟩ := ih h
          have lift : ∀ (b : Bool) i w', EntryFrom node room (if b then r else l) (depth + 1)
              (if b then rightPath depth acc else acc) i w' → EntryFrom node (room + 1) k depth acc i w' := by
            rintro b i w' ⟨bs, c, index, weight, e1, e2, e3, e4, e5⟩
            refine ⟨b :: bs, c, index, weight, by simp; omega, ?_, e3, e4, ?_⟩
            · rw [follow_cons_internal b bs hr, e2]
            · rw [e5, pathAcc, List.length_cons]
              congr 2
              omega
          refine ⟨fun hwf => b1 (a1 hwf), ?_, fun i hi => b3 i (a3 i hi), ?_⟩
          · intro i w' hi
            rcases b2 i w' hi with h1 | h1
            · rcases a2 i w' h1 with h2 | h2
              · exact .inl h2
              · exact .inr (lift false i w' h2)
            · exact .inr (lift true i w' h1)
          · intro bs c index weight hf' hc
            cases bs with
            | nil =>
              simp only [follow_nil, Option.some.injEq] at hf'
              subst hf'
              rw [hr] at hc
              cases hc
            | cons b bs =>
              rw [follow_cons_internal b bs hr] at hf'
              cases b with
              | false => exact b3 _ (a4 bs c index weight hf' hc)
              | true => exact b4 bs c index weight hf' hc

/-- R182: a traversal ends with `TreeTooDeep` only at an internal node at the last depth. -/
theorem visit_tooDeep {node : Mem Node} {room : Nat} {k : NodeIdx} {depth : Nat} {acc : Payload} {table : Mem Codeword}
    (h : visit Params.hfc node room k depth acc table = .error .tooDeep) :
    ∃ bs c l r w, bs.length = room ∧ follow node k bs = some c ∧ Mem.read node c.toNat = some (.internal l r w) := by
  induction room generalizing k depth acc table with
  | zero =>
    unfold visit at h
    cases hf : fetch Params.hfc .node node k.toNat with
    | error f => simp [hf] at h
    | ok rec =>
      cases rec with
      | leaf index weight => simp [hf] at h
      | internal l r w => exact ⟨[], k, l, r, w, rfl, rfl, (fetch_ok_iff.mp hf).2⟩
  | succ room ih =>
    unfold visit at h
    cases hf : fetch Params.hfc .node node k.toNat with
    | error f => simp [hf] at h
    | ok rec =>
      cases rec with
      | leaf index weight => simp [hf] at h
      | internal l r w =>
        have hr := (fetch_ok_iff.mp hf).2
        simp only [hf] at h
        cases hl : visit Params.hfc node room l (depth + 1) acc table with
        | error e =>
          simp only [hl, Except.error.injEq] at h
          subst h
          obtain ⟨bs, c, l', r', w', h1, h2, h3⟩ := ih hl
          exact ⟨false :: bs, c, l', r', w', by simp [h1], by rw [follow_cons_internal false bs hr]; exact h2, h3⟩
        | ok mid =>
          simp only [hl] at h
          obtain ⟨bs, c, l', r', w', h1, h2, h3⟩ := ih h
          exact ⟨true :: bs, c, l', r', w', by simp [h1], by rw [follow_cons_internal true bs hr]; exact h2, h3⟩

/-- In a tree the traversal meets no record without a value. -/
theorem visit_no_fault {wmem : Mem Weight} {n : Nat} {node : Mem Node} (t : TreeOk wmem n node) (hn : n ≤ 256)
    {room : Nat} {k : NodeIdx} (hk : k.toNat < 2 * n - 1) (depth : Nat) (acc : Payload) (table : Mem Codeword) (f : Fault) :
    visit Params.hfc node room k depth acc table ≠ .error (.fault f) := by
  induction room generalizing k depth acc table with
  | zero =>
    obtain ⟨rec, hr⟩ := t.read_of_lt hk
    rw [visit, fetch_of_read (by simp; omega) hr]
    cases rec <;> simp
  | succ room ih =>
    obtain ⟨rec, hr⟩ := t.read_of_lt hk
    rw [visit, fetch_of_read (by simp; omega) hr]
    cases rec with
    | leaf index weight => simp
    | internal l r w =>
      obtain ⟨-, -, h1, h2, -⟩ := t.internal_inv hr
      have hl := ih (k := l) (by omega) (depth + 1) acc table
      cases hv : visit Params.hfc node room l (depth + 1) acc table with
      | error e =>
        intro he
        simp only [hv, Except.error.injEq] at he
        exact hl (by rw [hv, he])
      | ok mid =>
        simp only [hv]
        exact ih (k := r) (by omega) (depth + 1) (rightPath depth acc) mid

/-- In a tree, an internal node at the last depth ends the traversal with `TreeTooDeep` (R182). -/
theorem visit_of_deep {wmem : Mem Weight} {n : Nat} {node : Mem Node} (t : TreeOk wmem n node) (hn : n ≤ 256)
    {room : Nat} {k : NodeIdx} (hk : k.toNat < 2 * n - 1) (depth : Nat) (acc : Payload) (table : Mem Codeword)
    {bs : List Bool} {c l r : NodeIdx} {w : NodeWeight} (hlen : bs.length = room) (hf : follow node k bs = some c)
    (hc : Mem.read node c.toNat = some (.internal l r w)) :
    visit Params.hfc node room k depth acc table = .error .tooDeep := by
  induction room generalizing k depth acc table bs with
  | zero =>
    cases bs with
    | cons b bs => simp at hlen
    | nil =>
      simp only [follow_nil, Option.some.injEq] at hf
      subst hf
      rw [visit, fetch_of_read (by simp; omega) hc]
  | succ room ih =>
    cases bs with
    | nil => simp at hlen
    | cons b bs =>
      obtain ⟨l', r', w', hr, hf'⟩ := follow_cons_some hf
      obtain ⟨-, -, h1, h2, -⟩ := t.internal_inv hr
      rw [visit, fetch_of_read (by simp; omega) hr]
      have hlen' : bs.length = room := by simpa using hlen
      cases b with
      | false =>
        simp only [ih (k := l') (by omega) (depth + 1) acc table hlen' hf']
      | true =>
        cases hv : visit Params.hfc node room l' (depth + 1) acc table with
        | ok mid => simpa [hv] using ih (k := r') (by omega) (depth + 1) (rightPath depth acc) mid hlen' hf'
        | error e =>
          cases e with
          | tooDeep => simp [hv]
          | fault f => exact absurd hv (visit_no_fault t hn (by omega) _ _ _ f)

/-- Two strictly rising lists with the same members are the same list. -/
theorem eq_of_rising {a b : List Nat} (ha : a.Pairwise (· < ·)) (hb : b.Pairwise (· < ·)) (h : ∀ x, x ∈ a ↔ x ∈ b) :
    a = b := by
  have hperm : a.Perm b := (List.perm_ext_iff_of_nodup (ha.imp (fun h => Nat.ne_of_lt h)) (hb.imp (fun h => Nat.ne_of_lt h))).mpr h
  exact hperm.eq_of_pairwise (fun x y _ _ h1 h2 => absurd h1 (by omega)) ha hb

/-- R181, R184: the table of a tree whose traversal succeeds. -/
theorem codeTable_ok {wmem : Mem Weight} {n : Nat} {node : Mem Node} (t : TreeOk wmem n node) (hn : n ≤ 256)
    {root : NodeIdx} (hroot : root.toNat = 2 * n - 2) (h1 : 1 ≤ n) {ct : Mem Codeword}
    (h : codeTable Params.hfc node root = .ok ct) : TableOk n node root ct := by
  rw [codeTable_eq] at h
  obtain ⟨a1, a2, -, a4⟩ := visit_ok h
  have entry : ∀ i w, Mem.read ct i = some w → i < n ∧ (cwLen w).toNat ≤ 57 ∧
      follow node root (codewordSeq w).toList = some (BitVec.ofNat 9 i) ∧
      ∀ d, (cwLen w).toNat ≤ d → (cwBits w).getLsbD d = false := by
    intro i w hr
    rcases a2 i w hr with h0 | ⟨bs, c, index, weight, e1, e2, e3, e4, e5⟩
    · simp at h0
    · obtain ⟨hcn, hidx⟩ := t.leaf_inv e3
      have hi : i = c.toNat := by rw [← e4, hidx]; simp; omega
      have e1' : bs.length ≤ 57 := e1
      have hlen : (BitVec.ofNat 7 bs.length).toNat = bs.length := by simp [BitVec.toNat_ofNat]; omega
      rw [Nat.zero_add] at e5
      refine ⟨by omega, ?_, ?_, ?_⟩
      · rw [e5, cwLen_pack, hlen]; exact e1'
      · rw [e5, toList_pack_pathAcc bs e1', e2, hi]; simp
      · intro d hd
        rw [e5, cwLen_pack, hlen] at hd
        rw [e5, cwBits_pack, getLsbD_pathAcc 0 0 bs (by omega) (by simp)]
        simp [hd]
  have hdom : ∀ i, i ∈ Mem.dom ct ↔ i < n := by
    intro i
    constructor
    · intro hi
      obtain ⟨w, hw⟩ := (Mem.mem_dom_iff ct i).mp hi
      exact (entry i w hw).1
    · intro hi
      obtain ⟨bs, hbs⟩ := t.reachable hn hroot i (by omega)
      obtain ⟨w, -, hl⟩ := t.leaf i hi
      have h9 : (BitVec.ofNat 9 i).toNat = i := by simp [BitVec.toNat_ofNat]; omega
      have h8 : (BitVec.ofNat 8 i).toNat = i := by simp [BitVec.toNat_ofNat]; omega
      have := a4 bs _ _ _ hbs (by rw [h9]; exact hl)
      rwa [h8] at this
  have hwf : Mem.wf ct = true := a1 rfl
  refine ⟨?_, ?_⟩
  · refine eq_of_rising (by simpa [Mem.wf] using hwf) List.pairwise_lt_range (by simpa using hdom)
  · intro i hi
    obtain ⟨w, hw⟩ := (Mem.mem_dom_iff ct i).mp ((hdom i).mpr hi)
    exact ⟨w, hw, (entry i w hw).2⟩

end Sys2Proof.Machine
end

