-- ==== Sys2Proof/Laws/Build.lean ====
section
/-!
SUPPORT. What `construct` answers for a load state (41_tree_builder.md R152): an Encoding as 10_state.md R42 says, or
`TreeTooDeep` with a path of 57 edges to an internal node; never a fault. With at most 58 weights it answers an Encoding.
-/

namespace Sys2Proof.Machine

/-- The tree of a load state is built, and what `construct` then answers is what the traversal answers. -/
theorem construct_eq {l : LoadState} (ok : LoadOk l) (h1 : 1 ≤ l.wcnt.toNat) :
    ∃ (b : Builder) (root : NodeIdx), buildTree Params.hfc l.wmem l.wcnt.toNat = .ok b ∧ root.toNat = 2 * l.wcnt.toNat - 2 ∧
      b.next = 2 * l.wcnt.toNat - 1 ∧ TreeOk l.wmem l.wcnt.toNat b.node ∧
      construct Params.hfc l.wmem l.wcnt =
        match (codeTable Params.hfc b.node root : Except BuildStop (Mem Codeword)) with
        | .error e => .error e
        | .ok table =>
          .ok { n := l.wcnt, root := root, nnodes := BitVec.ofNat 10 b.next, node := b.node, ct := table } := by
  have hw : ∀ i, i < l.wcnt.toNat → ∃ w, Mem.read l.wmem i = some w := fun i hi =>
    (Mem.mem_dom_iff _ _).mp (by simp [ok.wmem_dom, hi])
  obtain ⟨b, root, hb, hq, hnext, hroot, tree, -⟩ := buildTree_spec h1 ok.wcnt_le hw
  refine ⟨b, root.node, hb, hroot, hnext, tree, ?_⟩
  rw [construct, Of.construct, hb]
  simp only [hq, extractMin_singleton]
  cases codeTable Params.hfc b.node root.node <;> rfl

theorem construct_spec {l : LoadState} (ok : LoadOk l) (heq : l.wcnt = l.acnt) (h1 : 1 ≤ l.wcnt.toNat) :
    (∃ e, construct Params.hfc l.wmem l.wcnt = .ok e ∧ EncodingOk l e) ∨
    (construct Params.hfc l.wmem l.wcnt = .error .tooDeep ∧
      ∃ (b : Builder) (root : NodeIdx) (bs : List Bool) (c left right : NodeIdx) (w : NodeWeight), buildTree Params.hfc l.wmem l.wcnt.toNat = .ok b ∧
        root.toNat = 2 * l.wcnt.toNat - 2 ∧ TreeOk l.wmem l.wcnt.toNat b.node ∧ bs.length = 57 ∧
        follow b.node root bs = some c ∧ Mem.read b.node c.toNat = some (.internal left right w)) := by
  obtain ⟨b, root, hb, hroot, hnext, tree, hc⟩ := construct_eq ok h1
  have hn := ok.wcnt_le
  cases ht : codeTable Params.hfc b.node root with
  | ok table =>
    refine .inl ⟨_, by rw [hc, ht], ?_⟩
    refine ⟨h1, hn, rfl, heq, ?_, hroot, tree, codeTable_ok tree hn hroot h1 ht⟩
    simp [hnext]
    omega
  | error e =>
    cases e with
    | fault f => exact absurd ht (visit_no_fault tree hn (by omega) _ _ _ f)
    | tooDeep =>
      obtain ⟨bs, c, left, right, w, g1, g2, g3⟩ := visit_tooDeep ht
      exact .inr ⟨by rw [hc, ht], b, root, bs, c, left, right, w, hb, hroot, tree, g1, g2, g3⟩

/-- A tree of at most 58 leaves has no leaf deeper than 57. -/
theorem construct_of_small {l : LoadState} (ok : LoadOk l) (heq : l.wcnt = l.acnt) (h1 : 1 ≤ l.wcnt.toNat)
    (h58 : l.wcnt.toNat ≤ 58) : ∃ e, construct Params.hfc l.wmem l.wcnt = .ok e ∧ EncodingOk l e := by
  rcases construct_spec ok heq h1 with h | ⟨-, b, root, bs, c, left, right, w, -, hroot, tree, hlen, hf, hc⟩
  · exact h
  · have h2 := tree.follow_le hf (by omega)
    have h3 := (tree.internal_inv hc).1
    omega

end Sys2Proof.Machine
end

