-- ==== Sys2Proof/Laws/Decode.lean ====
section
/-!
SUPPORT. Laws of request words and of the decoder (30_encoding.md R90, R94, R96 to R98): the two fields and the word made
of them, rows and opcodes, and when a word decodes.
-/

namespace Sys2Proof

/-- A concatenation as a number, in the form linear arithmetic reads. -/
theorem toNat_append_eq {v w : Nat} (a : BitVec v) (b : BitVec w) : (a ++ b).toNat = a.toNat * 2 ^ w + b.toNat := by
  rw [BitVec.toNat_append, ← Nat.shiftLeft_add_eq_or_of_lt b.isLt, Nat.shiftLeft_eq]

theorem Request.opc_toNat (r : Request) : r.opc.toNat = r.toNat / 2 ^ 32 := by
  have := r.isLt
  simp [Request.opc, opcField, BitVec.extractLsb'_toNat, Nat.shiftRight_eq_div_pow]
  omega

theorem Request.arg_toNat (r : Request) : r.arg.toNat = r.toNat % 2 ^ 32 := by
  simp [Request.arg, argField, BitVec.extractLsb'_toNat]

theorem Request.make_toNat (opc : Opcode) (arg : Arg) :
    (Request.make opc arg).toNat = opc.toNat * 2 ^ 32 + arg.toNat := toNat_append_eq opc arg

@[simp] theorem Request.opc_make (opc : Opcode) (arg : Arg) : (Request.make opc arg).opc = opc := by
  have := arg.isLt
  apply BitVec.eq_of_toNat_eq
  rw [opc_toNat, make_toNat]; omega

@[simp] theorem Request.arg_make (opc : Opcode) (arg : Arg) : (Request.make opc arg).arg = arg := by
  have := arg.isLt
  apply BitVec.eq_of_toNat_eq
  rw [arg_toNat, make_toNat]; omega

@[simp] theorem Request.make_opc_arg (r : Request) : Request.make r.opc r.arg = r := by
  apply BitVec.eq_of_toNat_eq
  rw [make_toNat, opc_toNat, arg_toNat]; omega

/-- The mask of every row leaves the opcode and the operand bits the command does not use; so a request matches a row
exactly where the opcode is the command's and no bit above `UW` is set (R97, R98). -/
theorem TableRow.hits_iff (row : TableRow) (h : row ∈ opcodeTable) (r : Request) :
    row.hits r = true ↔ r.opc = row.mnemonic.opc ∧ r.arg >>> row.mnemonic.operandWidth = 0 := by
  have masks : ∀ row ∈ opcodeTable, row.mask = BitVec.allOnes 40 <<< row.mnemonic.operandWidth ∧
      row.pattern.toNat = row.mnemonic.opc.toNat * 2 ^ 32 ∧ row.mnemonic.operandWidth ≤ 32 := by decide
  obtain ⟨hm, hp, hw⟩ := masks row h
  have hr := r.isLt
  simp only [TableRow.hits, beq_iff_eq, hm, ← BitVec.shiftLeft_ushiftRight, ← BitVec.toNat_inj, hp, BitVec.toNat_shiftLeft,
    BitVec.toNat_ushiftRight, Nat.shiftLeft_eq, Nat.shiftRight_eq_div_pow, Request.opc_toNat, Request.arg_toNat]
  generalize row.mnemonic.operandWidth = k at hw
  have ho := row.mnemonic.opc.isLt
  generalize row.mnemonic.opc.toNat = o at ho
  generalize r.toNat = x at hr
  rw [Nat.mod_eq_of_lt (lt_of_le_of_lt (Nat.div_mul_le_self x (2 ^ k)) hr)]
  interval_cases k <;> rw [show BitVec.toNat (0 : Arg) = 0 from rfl] <;> omega

@[simp] theorem opc_encode (i : Instr) : (encode i).opc = i.mnemonic.opc := by simp [encode]

@[simp] theorem arg_encode (i : Instr) : (encode i).arg = i.operand := by simp [encode]

/-- Each command is the one with its opcode, and no reserved opcode has one (R94). -/
theorem Mnemonic.ofOpc_eq_some_iff (opc : Opcode) (m : Mnemonic) : Mnemonic.ofOpc opc = some m ↔ opc = m.opc := by
  constructor
  · revert opc m
    have : ∀ n : Fin 256, ∀ m : Mnemonic, Mnemonic.ofOpc (BitVec.ofFin n : Opcode) = some m → BitVec.ofFin n = m.opc := by
      intro n m
      revert n
      cases m <;> decide +kernel
    exact fun opc m => this opc.toFin m
  · rintro rfl
    cases m <;> rfl

/-- A request of this hardware decodes by its opcode, where no bit above `UW` is set (R96 steps 1 and 2). -/
theorem decode_eq (r : Request) : decode r =
    match Mnemonic.ofOpc r.opc with
    | none => .error (.reservedOpcode r.opc)
    | some m => if r.arg >>> m.operandWidth = 0 then .ok (m.withOperand r.arg) else .error (.operandBits m r.arg) := by
  unfold decode decodeFields Mnemonic.operandWidth
  cases Mnemonic.ofOpc r.opc with
  | none => rfl
  | some m => by_cases h : r.arg >>> m.usedBits Params.hfc = 0 <;> simp only [h, if_true, if_false]

theorem decode_eq_ok_iff (r : Request) (i : Instr) :
    decode r = .ok i ↔ ∃ m : Mnemonic, r.opc = m.opc ∧ r.arg >>> m.operandWidth = 0 ∧ m.withOperand r.arg = i := by
  rw [decode_eq]
  cases h : Mnemonic.ofOpc r.opc with
  | none =>
    simp only [reduceCtorEq, false_iff, not_exists, not_and]
    intro m hm
    rw [(Mnemonic.ofOpc_eq_some_iff _ m).mpr hm] at h
    cases h
  | some m =>
    have hm := (Mnemonic.ofOpc_eq_some_iff _ _).mp h
    constructor
    · intro hd
      by_cases hs : r.arg >>> m.operandWidth = 0
      · exact ⟨m, hm, hs, by simpa only [if_pos hs, Except.ok.injEq] using hd⟩
      · simp only [if_neg hs, reduceCtorEq] at hd
    · rintro ⟨m', h1, h2, h3⟩
      rw [(Mnemonic.ofOpc_eq_some_iff _ m').mpr h1, Option.some.injEq] at h
      subst h
      simp [h2, h3]

/-- A request is rejected exactly where it matches no row (R98). -/
theorem decode_error_iff (r : Request) :
    (∃ e, decode r = .error e) ↔ ¬ ∃ m : Mnemonic, r.opc = m.opc ∧ r.arg >>> m.operandWidth = 0 := by
  cases h : decode r with
  | ok i =>
    obtain ⟨m, h1, h2, -⟩ := (decode_eq_ok_iff r i).mp h
    simp only [reduceCtorEq, exists_false, false_iff, not_not]
    exact ⟨m, h1, h2⟩
  | error e =>
    simp only [Except.error.injEq, exists_eq', true_iff]
    rintro ⟨m, h1, h2⟩
    rw [(decode_eq_ok_iff r _).mpr ⟨m, h1, h2, rfl⟩] at h
    cases h

theorem mnemonic_withOperand (m : Mnemonic) (arg : Arg) : (m.withOperand arg).mnemonic = m := by cases m <;> rfl
end Sys2Proof
end

