-- ==== Sys2Proof/Laws/State.lean ====
section
/-!
SUPPORT. One lemma per part of the state per shared update: the part after the update, by `rfl`.
-/

namespace Sys2Proof.Machine

variable (s : State) (st : Status) (d : Data) (opc : Opcode) (arg : Arg) (es : List HostEvent)

@[simp] theorem answered_load : (s.answered st d).load = s.load := rfl
@[simp] theorem answered_phase : (s.answered st d).phase = s.phase := rfl
@[simp] theorem answered_enc : (s.answered st d).enc = s.enc := rfl
@[simp] theorem answered_est : (s.answered st d).est = s.est := rfl
@[simp] theorem answered_dst : (s.answered st d).dst = s.dst := rfl
@[simp] theorem answered_err : (s.answered st d).err = s.err := rfl
@[simp] theorem answered_pending : (s.answered st d).port.pending = s.port.pending := rfl
@[simp] theorem answered_response : (s.answered st d).port.response = some { st := st, data := d } := rfl

@[simp] theorem recorded_load : (s.recorded st opc arg).load = s.load := rfl
@[simp] theorem recorded_phase : (s.recorded st opc arg).phase = s.phase := rfl
@[simp] theorem recorded_enc : (s.recorded st opc arg).enc = s.enc := rfl
@[simp] theorem recorded_est : (s.recorded st opc arg).est = s.est := rfl
@[simp] theorem recorded_dst : (s.recorded st opc arg).dst = s.dst := rfl
@[simp] theorem recorded_err : (s.recorded st opc arg).err = { code := st.code, opc := opc, arg := arg } := rfl
@[simp] theorem recorded_port : (s.recorded st opc arg).port = s.port := rfl

@[simp] theorem withPending_load : (s.withPending es).load = s.load := rfl
@[simp] theorem withPending_phase : (s.withPending es).phase = s.phase := rfl
@[simp] theorem withPending_enc : (s.withPending es).enc = s.enc := rfl
@[simp] theorem withPending_est : (s.withPending es).est = s.est := rfl
@[simp] theorem withPending_dst : (s.withPending es).dst = s.dst := rfl
@[simp] theorem withPending_err : (s.withPending es).err = s.err := rfl
@[simp] theorem withPending_pending : (s.withPending es).port.pending = es := rfl
@[simp] theorem withPending_response : (s.withPending es).port.response = s.port.response := rfl

@[simp] theorem hardwareReset_load : (hardwareReset s).load = State.reset.load := rfl
@[simp] theorem hardwareReset_phase : (hardwareReset s).phase = .load := rfl
@[simp] theorem hardwareReset_enc : (hardwareReset s).enc = State.reset.enc := rfl
@[simp] theorem hardwareReset_est : (hardwareReset s).est = State.reset.est := rfl
@[simp] theorem hardwareReset_dst : (hardwareReset s).dst = State.reset.dst := rfl
@[simp] theorem hardwareReset_err : (hardwareReset s).err = State.reset.err := rfl
@[simp] theorem hardwareReset_pending : (hardwareReset s).port.pending = s.port.pending := rfl
@[simp] theorem hardwareReset_response : (hardwareReset s).port.response = none := rfl

end Sys2Proof.Machine
end

