-- ==== Sys2Proof/Laws/Ops.lean ====
section
/-!
SUPPORT. What each shared operation can do, said once: `respond`, `raise`, `fail`, `guarded`, `withWord`, `lookup`, `takeEvent`.
-/

namespace Sys2Proof.Machine

@[simp] theorem respond_next (st : Status) (d : Data) (s t : State) :
    respond st d s = .next t ↔ t = s.answered st d := by
  simp [respond, eq_comm]

@[simp] theorem raise_next (st : Status) (opc : Opcode) (arg : Arg) (s t : State) :
    raise st opc arg s = .next t ↔ t = (s.recorded st opc arg).answered st 0 := by
  simp [raise]

@[simp] theorem fail_next (st : Status) (m : Mnemonic) (arg : Arg) (s t : State) :
    fail st m arg s = .next t ↔ t = (s.recorded st m.opc arg).answered st 0 := raise_next st m.opc arg s t

@[simp] theorem withWord_ok {α σ : Type} (v : α) (k : α → Of.Outcome σ) : withWord (.ok v) k = k v := rfl

@[simp] theorem withWord_error {α σ : Type} (f : Fault) (k : α → Of.Outcome σ) :
    withWord (.error f : Except Fault α) k = .fault f := rfl

/-- A memory access answers next only by going on with the word it found. -/
theorem withWord_next {α σ : Type} {x : Except Fault α} {k : α → Of.Outcome σ} {t : σ} :
    withWord x k = .next t ↔ ∃ v, x = .ok v ∧ k v = .next t := by
  cases x <;> simp

theorem guarded_of_permitted {m : Mnemonic} {arg : Arg} {s : State} (h : permitted m s = true) (body : StepOutcome) :
    guarded m arg s body = body := by simp [guarded, h]

theorem guarded_of_not_permitted {m : Mnemonic} {arg : Arg} {s : State} (h : permitted m s = false) (body : StepOutcome) :
    guarded m arg s body = fail .errState m arg s := by simp [guarded, h]

/-- A guarded command answers next either by its own rule, where it is permitted, or by `ERR_STATE`. -/
theorem guarded_next {m : Mnemonic} {arg : Arg} {s t : State} {body : StepOutcome} :
    guarded m arg s body = .next t ↔
      (permitted m s = true ∧ body = .next t) ∨
      (permitted m s = false ∧ t = (s.recorded .errState m.opc arg).answered .errState 0) := by
  by_cases h : permitted m s = true
  · simp [guarded, h]
  · simp only [Bool.not_eq_true] at h
    simp [guarded, h]

/-- `scan` finds the smallest matching index of a range that holds symbols. -/
theorem scan_eq_some_iff {amem : Mem Sym} {a : Sym} {k i j : Nat} (hk : i + k ≤ 256) :
    scan Params.hfc amem a k i = .ok (some j) →
      i ≤ j ∧ j < i + k ∧ Mem.read amem j = some a ∧ ∀ l, i ≤ l → l < j → Mem.read amem l ≠ some a := by
  induction k generalizing i with
  | zero => simp [scan]
  | succ k ih =>
    unfold scan
    cases hf : fetch Params.hfc .amem amem i with
    | error f => simp
    | ok v =>
      obtain ⟨-, hr⟩ := fetch_ok_iff.mp hf
      by_cases hv : v = a
      · subst hv
        simp only [if_true, Except.ok.injEq, Option.some.injEq]
        rintro rfl
        exact ⟨le_rfl, by omega, hr, fun l h1 h2 => absurd h1 (by omega)⟩
      · simp only [hv, if_false]
        intro h
        obtain ⟨h1, h2, h3, h4⟩ := ih (by omega) h
        refine ⟨by omega, by omega, h3, fun l hl1 hl2 => ?_⟩
        rcases Nat.eq_or_lt_of_le hl1 with rfl | hlt
        · rw [hr]; simpa using hv
        · exact h4 l hlt hl2

/-- Where every index of the range holds a symbol, `scan` answers the smallest match. -/
theorem scan_of_first {amem : Mem Sym} {a : Sym} {k i j : Nat} (hk : i + k ≤ 256)
    (hv : ∀ l, i ≤ l → l < i + k → ∃ v, Mem.read amem l = some v)
    (h1 : i ≤ j) (h2 : j < i + k) (hj : Mem.read amem j = some a)
    (hmin : ∀ l, i ≤ l → l < j → Mem.read amem l ≠ some a) :
    scan Params.hfc amem a k i = .ok (some j) := by
  induction k generalizing i with
  | zero => omega
  | succ k ih =>
    obtain ⟨v, hr⟩ := hv i le_rfl (by omega)
    rw [scan, fetch_of_read (by simp; omega) hr]
    by_cases hij : i = j
    · subst hij
      rw [hj] at hr
      simp [Option.some.inj hr]
    · have hne : v ≠ a := by
        rintro rfl
        exact hmin i le_rfl (by omega) hr
      simp only [hne, if_false]
      exact ih (by omega) (fun l hl1 hl2 => hv l (by omega) (by omega)) (by omega) (by omega)
        fun l hl1 hl2 => hmin l (by omega) hl2

/-- Where every index of the range holds a symbol other than `a`, `scan` answers `none`. -/
theorem scan_of_absent {amem : Mem Sym} {a : Sym} {k i : Nat} (hk : i + k ≤ 256)
    (hv : ∀ l, i ≤ l → l < i + k → ∃ v, Mem.read amem l = some v ∧ v ≠ a) :
    scan Params.hfc amem a k i = .ok none := by
  induction k generalizing i with
  | zero => rfl
  | succ k ih =>
    obtain ⟨v, hr, hne⟩ := hv i le_rfl (by omega)
    rw [scan, fetch_of_read (by simp; omega) hr]
    simp only [hne, if_false]
    exact ih (by omega) fun l hl1 hl2 => hv l (by omega) (by omega)

theorem takeEvent_nil {s : State} (h : s.port.pending = []) : takeEvent s = none := by simp [takeEvent, h]

theorem takeEvent_cons {s : State} {e : HostEvent} {es : List HostEvent} (h : s.port.pending = e :: es) :
    takeEvent s = some (e, s.withPending es) := by simp [takeEvent, h]

end Sys2Proof.Machine
end

