-- ==== Sys2Proof/Laws/Meanings.lean ====
section
/-!
SUPPORT. What each command can do when it answers next, guards included: one lemma per command of 30_encoding.md R94.
A command that is not permitted, or that its rule turns away, ends in `failed`.
-/

namespace Sys2Proof.Machine

/-- `s` after the error `st` of command `i` (60_exceptions.md R293). -/
def Of.State.failed (s : Of.State 9 32 8 9 10 8 40 64 57 7 8 8 32 40 64) (st : Status) (i : Instr) : Machine.State :=
  (s.recorded st i.mnemonic.opc i.operand).answered st 0

section Failed
variable (s : State) (st : Status) (i : Instr)

@[simp] theorem failed_load : (s.failed st i).load = s.load := rfl
@[simp] theorem failed_phase : (s.failed st i).phase = s.phase := rfl
@[simp] theorem failed_enc : (s.failed st i).enc = s.enc := rfl
@[simp] theorem failed_est : (s.failed st i).est = s.est := rfl
@[simp] theorem failed_dst : (s.failed st i).dst = s.dst := rfl
@[simp] theorem failed_pending : (s.failed st i).port.pending = s.port.pending := rfl
@[simp] theorem failed_response : (s.failed st i).port.response = some { st := st, data := 0 } := rfl
@[simp] theorem failed_err : (s.failed st i).err = { code := st.code, opc := i.mnemonic.opc, arg := i.operand } := by
  simp [Of.State.failed]

end Failed

@[simp] theorem nMax_hfc : Params.hfc.nMax = 256 := rfl

theorem execNop_next {s t : State} : execNop s = .next t ↔ t = s.answered .ok 0 := by
  simp [execNop, Of.nop, guarded, permitted, Mnemonic.need, Need.met]

theorem execClr_next {s t : State} : execClr s = .next t ↔ t = (hardwareReset s).answered .ok 0 := by
  simp [execClr, Of.clr, guarded, permitted, Mnemonic.need, Need.met]

theorem execStat_next {r : BitVec 4} {s t : State} : execStat r s = .next t ↔
    (∃ d, statusRegister s Params.hfc r = some d ∧ t = s.answered .ok d) ∨
    (statusRegister s Params.hfc r = none ∧ t = s.failed .errRange (.stat r)) := by
  simp only [execStat, Of.stat, guarded, permitted, Mnemonic.need, Need.met, if_true]
  cases statusRegister s Params.hfc r <;> simp [Of.State.failed, Instr.mnemonic, Instr.operand]

theorem execRdn_next {k : NodeIdx} {s t : State} : execRdn k s = .next t ↔
    (s.phase ≠ .ready ∧ t = s.failed .errState (.rdn k)) ∨
    (s.phase = .ready ∧ s.enc.nnodes.toNat ≤ k.toNat ∧ t = s.failed .errRange (.rdn k)) ∨
    (s.phase = .ready ∧ k.toNat < s.enc.nnodes.toNat ∧
      ∃ rec, fetch Params.hfc .node s.enc.node k.toNat = .ok rec ∧ t = s.answered .ok (nodeWord rec)) := by
  simp only [execRdn, Of.rdn, guarded, permitted, Mnemonic.need, Need.met]
  by_cases hp : s.phase = .ready <;> by_cases hk : s.enc.nnodes.toNat ≤ k.toNat <;>
    simp [hp, hk, Of.State.failed, Instr.mnemonic, Instr.operand, withWord_next, Nat.not_lt.mpr, Nat.lt_of_not_le]

theorem execRdc_next {c : AlphaIdx} {s t : State} : execRdc c s = .next t ↔
    (s.phase ≠ .ready ∧ t = s.failed .errState (.rdc c)) ∨
    (s.phase = .ready ∧ s.enc.n.toNat ≤ c.toNat ∧ t = s.failed .errRange (.rdc c)) ∨
    (s.phase = .ready ∧ c.toNat < s.enc.n.toNat ∧
      ∃ w, fetch Params.hfc .ct s.enc.ct c.toNat = .ok w ∧ t = s.answered .ok w) := by
  simp only [execRdc, Of.rdc, guarded, permitted, Mnemonic.need, Need.met]
  by_cases hp : s.phase = .ready <;> by_cases hk : s.enc.n.toNat ≤ c.toNat <;>
    simp [hp, hk, Of.State.failed, Instr.mnemonic, Instr.operand, withWord_next, Nat.not_lt.mpr, Nat.lt_of_not_le]

theorem execLdw_next {w : Weight} {s t : State} : execLdw w s = .next t ↔
    (s.phase ≠ .load ∧ t = s.failed .errState (.ldw w)) ∨
    (s.phase = .load ∧ s.load.wcnt.toNat = 256 ∧ t = s.failed .errCapacity (.ldw w)) ∨
    (s.phase = .load ∧ s.load.wcnt.toNat < 256 ∧ t = Of.State.answered { s with load :=
      { s.load with wmem := Mem.write s.load.wmem s.load.wcnt.toNat w, wcnt := s.load.wcnt + 1 } } .ok 0) := by
  simp only [execLdw, Of.ldw, guarded, permitted, Mnemonic.need, Need.met]
  by_cases hp : s.phase = .load <;> by_cases hk : s.load.wcnt.toNat = 256 <;>
    simp [hp, hk, Of.State.failed, Instr.mnemonic, Instr.operand, withWord_next, store_ok_iff, and_comm]

theorem execLda_next {a : Sym} {s t : State} : execLda a s = .next t ↔
    (s.phase ≠ .load ∧ t = s.failed .errState (.lda a)) ∨
    (s.phase = .load ∧ s.load.acnt.toNat = 256 ∧ t = s.failed .errCapacity (.lda a)) ∨
    (s.phase = .load ∧ s.load.acnt.toNat < 256 ∧ t = Of.State.answered { s with load :=
      { s.load with amem := Mem.write s.load.amem s.load.acnt.toNat a, acnt := s.load.acnt + 1 } } .ok 0) := by
  simp only [execLda, Of.lda, guarded, permitted, Mnemonic.need, Need.met]
  by_cases hp : s.phase = .load <;> by_cases hk : s.load.acnt.toNat = 256 <;>
    simp [hp, hk, Of.State.failed, Instr.mnemonic, Instr.operand, withWord_next, store_ok_iff, and_comm]

theorem execBuild_next {s t : State} : execBuild s = .next t ↔
    (s.phase ≠ .load ∧ t = s.failed .errState .build) ∨
    (s.phase = .load ∧ s.load.wcnt ≠ s.load.acnt ∧ t = s.failed .lengthMismatch .build) ∨
    (s.phase = .load ∧ s.load.wcnt = s.load.acnt ∧ s.load.wcnt = 0 ∧ t = s.failed .emptyAlphabet .build) ∨
    (s.phase = .load ∧ s.load.wcnt = s.load.acnt ∧ s.load.wcnt ≠ 0 ∧
      construct Params.hfc s.load.wmem s.load.wcnt = .error .tooDeep ∧ t = s.failed .treeTooDeep .build) ∨
    (s.phase = .load ∧ s.load.wcnt = s.load.acnt ∧ s.load.wcnt ≠ 0 ∧
      ∃ e, construct Params.hfc s.load.wmem s.load.wcnt = .ok e ∧
        t = Of.State.answered { s with enc := e, phase := .ready } .ok 0) := by
  simp only [execBuild, Of.build, guarded, permitted, Mnemonic.need, Need.met]
  by_cases hp : s.phase = .load
  · by_cases hk : s.load.wcnt = s.load.acnt
    · by_cases h0 : s.load.wcnt = 0#9
      · simp [hp, ← hk, h0, Of.State.failed, Instr.mnemonic, Instr.operand]
      · simp only [hp, ← hk, Of.State.failed, Instr.mnemonic, Instr.operand, construct]
        cases hc : Of.construct Params.hfc s.load.wmem s.load.wcnt with
        | ok e => simp [h0]
        | error e => cases e <;> simp [h0]
    · simp [hp, hk, Of.State.failed, Instr.mnemonic, Instr.operand]
  · simp [hp, Of.State.failed, Instr.mnemonic, Instr.operand]

theorem execEnc1_next {a : Sym} {s t : State} : execEnc1 a s = .next t ↔
    (s.phase ≠ .ready ∧ t = s.failed .errState (.enc1 a)) ∨
    (s.phase = .ready ∧ lookup Params.hfc a s = .ok none ∧ t = s.failed .unknownSymbol (.enc1 a)) ∨
    (s.phase = .ready ∧ ∃ i w, lookup Params.hfc a s = .ok (some i) ∧ fetch Params.hfc .ct s.enc.ct i = .ok w ∧
      t = s.answered .ok w) := by
  simp only [execEnc1, Of.enc1, guarded, permitted, Mnemonic.need, Need.met]
  by_cases hp : s.phase = .ready
  · simp only [hp, decide_true, if_true, withWord_next]
    cases lookup Params.hfc a s with
    | error f => simp
    | ok o => cases o <;> simp [Of.State.failed, Instr.mnemonic, Instr.operand, withWord_next]
  · simp [hp, Of.State.failed, Instr.mnemonic, Instr.operand]

theorem execEopen_next {s t : State} : execEopen s = .next t ↔
    (s.phase ≠ .ready ∧ t = s.failed .errState .eopen) ∨
    (s.phase = .ready ∧
      t = Of.State.answered { s with est := { state := .run, eoi := false, val := 0, len := 0 } } .ok 0) := by
  simp only [execEopen, Of.eopen, guarded, permitted, Mnemonic.need, Need.met]
  by_cases hp : s.phase = .ready <;> simp [hp, Of.State.failed, Instr.mnemonic, Instr.operand]

theorem execEpush_next {a : Sym} {s t : State} : execEpush a s = .next t ↔
    ((s.est.state ≠ .run ∨ s.est.eoi = true) ∧ t = s.failed .errState (.epush a)) ∨
    (s.est.state = .run ∧ s.est.eoi = false ∧ s.est.len ≠ 0 ∧ t = s.failed .errNotReady (.epush a)) ∨
    (s.est.state = .run ∧ s.est.eoi = false ∧ s.est.len = 0 ∧ lookup Params.hfc a s = .ok none ∧
      t = Of.State.failed { s with est := { s.est with state := .fault, val := 0, len := 0 } } .unknownSymbol (.epush a)) ∨
    (s.est.state = .run ∧ s.est.eoi = false ∧ s.est.len = 0 ∧
      ∃ i w, lookup Params.hfc a s = .ok (some i) ∧ fetch Params.hfc .ct s.enc.ct i = .ok w ∧
        t = Of.State.answered { s with est := { s.est with val := cwBits w, len := cwLen w } } .ok 0) := by
  simp only [execEpush, Of.epush, guarded, permitted, Mnemonic.need, Need.met]
  by_cases hp : s.est.state = .run
  · by_cases he : s.est.eoi = true
    · simp [hp, he, Of.State.failed, Instr.mnemonic, Instr.operand]
    · by_cases hl : s.est.len = 0#7
      · simp only [hp, he, hl, decide_true, if_true]
        cases lookup Params.hfc a s with
        | error f => simp
        | ok o => cases o <;> simp [cwBits, cwLen, Of.State.failed, Instr.mnemonic, Instr.operand, withWord_next]
      · simp [hp, he, hl, Of.State.failed, Instr.mnemonic, Instr.operand]
  · simp [hp, Of.State.failed, Instr.mnemonic, Instr.operand]

theorem execEend_next {s t : State} : execEend s = .next t ↔
    ((s.est.state ≠ .run ∨ s.est.eoi = true) ∧ t = s.failed .errState .eend) ∨
    (s.est.state = .run ∧ s.est.eoi = false ∧ t = Of.State.answered { s with est := { s.est with eoi := true } } .ok 0) := by
  simp only [execEend, Of.eend, guarded, permitted, Mnemonic.need, Need.met]
  by_cases hp : s.est.state = .run <;> by_cases he : s.est.eoi = true <;> simp [hp, he, Of.State.failed, Instr.mnemonic, Instr.operand]

theorem execEpull_next {s t : State} : execEpull s = .next t ↔
    (s.est.state ≠ .run ∧ t = s.failed .errState .epull) ∨
    (s.est.state = .run ∧ 0 < s.est.len.toNat ∧ t = Of.State.answered
      { s with est := { s.est with val := s.est.val >>> 1, len := s.est.len - 1 } } .ok (bitData (s.est.val.getLsbD 0))) ∨
    (s.est.state = .run ∧ s.est.len.toNat = 0 ∧ s.est.eoi = true ∧ t = s.answered .endOfSeq 0) ∨
    (s.est.state = .run ∧ s.est.len.toNat = 0 ∧ s.est.eoi = false ∧ t = s.answered .needInput 0) := by
  simp only [execEpull, Of.epull, guarded, permitted, Mnemonic.need, Need.met]
  by_cases hp : s.est.state = .run
  · rcases Nat.eq_zero_or_pos s.est.len.toNat with hl | hl
    · by_cases he : s.est.eoi = true <;> simp [hp, hl, he]
    · simp [hp, hl, Nat.pos_iff_ne_zero.mp hl]
  · simp [hp, Of.State.failed, Instr.mnemonic, Instr.operand]

theorem execDopen_next {s t : State} : execDopen s = .next t ↔
    (s.phase ≠ .ready ∧ t = s.failed .errState .dopen) ∨
    (s.phase = .ready ∧
      t = Of.State.answered { s with dst := { state := .atRoot, eoi := false, cur := s.enc.root } } .ok 0) := by
  simp only [execDopen, Of.dopen, guarded, permitted, Mnemonic.need, Need.met]
  by_cases hp : s.phase = .ready <;> simp [hp, Of.State.failed, Instr.mnemonic, Instr.operand]

/-- The decoder takes input (30_encoding.md R96). -/
def Of.DecStream.Active (d : Of.DecStream 9) : Prop := d.state = .atRoot ∨ d.state = .trav

theorem execDpush_next {b : BitVec 1} {s t : State} : execDpush b s = .next t ↔
    ((¬ s.dst.Active ∨ s.dst.eoi = true) ∧ t = s.failed .errState (.dpush b)) ∨
    (s.dst.Active ∧ s.dst.eoi = false ∧ ∃ rec, fetch Params.hfc .node s.enc.node s.dst.cur.toNat = .ok rec ∧
      ((∃ index weight, rec = .leaf index weight ∧ t = s.failed .errNotReady (.dpush b)) ∨
       (∃ left right weight, rec = .internal left right weight ∧ t = Of.State.answered
        { s with dst := { s.dst with cur := if b = 0 then left else right, state := .trav } } .ok 0))) := by
  simp only [execDpush, Of.dpush, guarded, permitted, Mnemonic.need, Need.met, Of.DecStream.Active]
  by_cases hp : s.dst.state = .atRoot ∨ s.dst.state = .trav
  · by_cases he : s.dst.eoi = true
    · simp [hp, he, Of.State.failed, Instr.mnemonic, Instr.operand]
    · simp only [hp, he, decide_true, if_true]
      cases fetch Params.hfc .node s.enc.node s.dst.cur.toNat with
      | error f => simp
      | ok rec => cases rec <;> simp [Of.State.failed, Instr.mnemonic, Instr.operand]
  · simp [hp, Of.State.failed, Instr.mnemonic, Instr.operand]

theorem execDend_next {s t : State} : execDend s = .next t ↔
    ((¬ s.dst.Active ∨ s.dst.eoi = true) ∧ t = s.failed .errState .dend) ∨
    (s.dst.Active ∧ s.dst.eoi = false ∧ t = Of.State.answered { s with dst := { s.dst with eoi := true } } .ok 0) := by
  simp only [execDend, Of.dend, guarded, permitted, Mnemonic.need, Need.met, Of.DecStream.Active]
  by_cases hp : s.dst.state = .atRoot ∨ s.dst.state = .trav <;> by_cases he : s.dst.eoi = true <;>
    simp [hp, he, Of.State.failed, Instr.mnemonic, Instr.operand]

theorem execDpull_next {s t : State} : execDpull s = .next t ↔
    (s.dst.state = .closed ∧ t = s.failed .errState .dpull) ∨
    (s.dst.state = .exh ∧ t = s.answered .endOfSeq 0) ∨
    (s.dst.Active ∧ ∃ rec, fetch Params.hfc .node s.enc.node s.dst.cur.toNat = .ok rec ∧
      ((∃ index weight a, rec = .leaf index weight ∧ fetch Params.hfc .amem s.load.amem index.toNat = .ok a ∧
        t = Of.State.answered { s with dst := { s.dst with cur := s.enc.root, state := .atRoot } } .ok (symData a)) ∨
       (∃ left right weight, rec = .internal left right weight ∧
        ((s.dst.eoi = true ∧ t = Of.State.answered { s with dst := { s.dst with state := .exh } } .endOfSeq 0) ∨
         (s.dst.eoi = false ∧ t = s.answered .needInput 0))))) := by
  simp only [execDpull, Of.dpull, guarded, permitted, Mnemonic.need, Need.met, Of.DecStream.Active]
  cases hp : s.dst.state with
  | closed => simp [Of.State.failed, Instr.mnemonic, Instr.operand]
  | exh => simp
  | atRoot | trav =>
    simp only [decide_not, reduceCtorEq, decide_false, Bool.not_false, if_true, if_false, false_and, or_true, true_or,
      true_and, false_or, withWord_next]
    cases fetch Params.hfc .node s.enc.node s.dst.cur.toNat with
    | error f => simp
    | ok rec =>
      cases rec with
      | leaf index weight => simp [withWord_next]
      | internal l r w => by_cases he : s.dst.eoi = true <;> simp [he]

end Sys2Proof.Machine
end

