-- ==== Sys2Proof/Laws/Invariant.lean ====
section
/-!
SUPPORT. What the invariant of Safety.lean gives a command: a stream is open only in phase `READY`, every record in use
and every table entry can be read, the lookup ends with the smallest index or with none, and two codewords of an
Encoding are on paths that part.
-/

namespace Sys2Proof.Machine

theorem BlockInv.answered {s : State} (hi : BlockInv s) (st : Status) (d : Data) (h : st ≠ .ok → d = 0) :
    BlockInv (s.answered st d) :=
  ⟨hi.load, hi.loadPhase, hi.readyPhase, hi.encStream, hi.decStream, hi.err, by rintro rsp ⟨⟩; exact h⟩

theorem BlockInv.failed {s : State} (hi : BlockInv s) (st : Status) (i : Instr) (h : st.isError = true) :
    BlockInv (s.failed st i) :=
  ⟨hi.load, hi.loadPhase, hi.readyPhase, hi.encStream, hi.decStream, .inr ⟨st, h, rfl⟩, by rintro rsp ⟨⟩ _; rfl⟩

theorem BlockInv.withPending {s : State} (hi : BlockInv s) (es : List HostEvent) : BlockInv (s.withPending es) :=
  ⟨hi.load, hi.loadPhase, hi.readyPhase, hi.encStream, hi.decStream, hi.err, hi.port⟩

theorem BlockInv.ready_of_est {s : State} (hi : BlockInv s) (h : s.est.state ≠ .closed) : s.phase = .ready := by
  cases hp : s.phase with
  | ready => rfl
  | load => rw [(hi.loadPhase hp).2.1] at h; simp [State.reset, Of.State.reset] at h

theorem BlockInv.ready_of_dst {s : State} (hi : BlockInv s) (h : s.dst.state ≠ .closed) : s.phase = .ready := by
  cases hp : s.phase with
  | ready => rfl
  | load => rw [(hi.loadPhase hp).2.2] at h; simp [State.reset, Of.State.reset] at h

theorem Of.DecStream.Active.ne_closed {d : Of.DecStream 9} (h : d.Active) : d.state ≠ .closed := by
  rcases h with h | h <;> simp [h]

/-- Neither child of a node is the root, and both are in use. -/
theorem EncodingOk.children {l : LoadState} {e : Encoding} (ok : EncodingOk l e) {k : Nat} {a b : NodeIdx}
    {w : NodeWeight} (h : Mem.read e.node k = some (.internal a b w)) :
    a ≠ e.root ∧ b ≠ e.root ∧ a.toNat < e.nnodes.toNat ∧ b.toNat < e.nnodes.toNat := by
  obtain ⟨h1, h2, h3, h4, h5⟩ := ok.tree.internal_inv h
  have := ok.root
  have := ok.nnodes
  refine ⟨?_, ?_, by omega, by omega⟩ <;> rintro rfl <;> omega

/-- A table entry that can be read is a packed codeword of at most 57 bits, zero above its length. -/
theorem EncodingOk.entry {l : LoadState} {e : Encoding} (ok : EncodingOk l e) {i : Nat} {w : Codeword}
    (h : Mem.read e.ct i = some w) :
    i < e.n.toNat ∧ (cwLen w).toNat ≤ 57 ∧ ∀ d, (cwLen w).toNat ≤ d → (cwBits w).getLsbD d = false := by
  have hi : i < e.n.toNat := by
    have := (Mem.mem_dom_iff _ _).mpr ⟨w, h⟩
    simpa [ok.table.dom] using this
  obtain ⟨w', h1, h2, -, h4⟩ := ok.table.entry i hi
  rw [h] at h1
  cases h1
  exact ⟨hi, h2, h4⟩

/-- The codeword of an index leads from the root to its leaf. -/
theorem EncodingOk.codeword_path {l : LoadState} {e : Encoding} (ok : EncodingOk l e) {i : Nat} (hi : i < e.n.toNat) :
    ∃ w, follow e.node e.root (codewordBits e i) = some (BitVec.ofNat 9 i) ∧
      Mem.read e.node i = some (.leaf (BitVec.ofNat 8 i) w) ∧ (codewordBits e i).length ≤ 57 := by
  obtain ⟨w, h1, h2, h3, -⟩ := ok.table.entry i hi
  obtain ⟨w', -, h4⟩ := ok.tree.leaf i hi
  refine ⟨_, by simpa [codewordBits, h1] using h3, h4, ?_⟩
  simpa [codewordBits, h1, BitSeq.toList, codewordSeq] using h2

theorem EncodingOk.toNat_idx {l : LoadState} {e : Encoding} (ok : EncodingOk l e) {i : Nat} (hi : i < e.n.toNat) :
    (BitVec.ofNat 9 i).toNat = i := by
  have := ok.n_le
  simp
  omega

/-- In phase `READY` every node in use can be read. -/
theorem BlockInv.node_read {s : State} (hi : BlockInv s) (hr : s.phase = .ready) {k : Nat}
    (hk : k < s.enc.nnodes.toNat) :
    ∃ rec, fetch Params.hfc .node s.enc.node k = .ok rec ∧ Mem.read s.enc.node k = some rec := by
  have ok := hi.readyPhase hr
  have := ok.nnodes
  have := ok.n_le
  have := ok.n_pos
  obtain ⟨rec, h⟩ := ok.tree.read_of_lt (k := k) (by omega)
  exact ⟨rec, fetch_of_read (by simp; omega) h, h⟩

/-- In phase `READY` every table entry can be read. -/
theorem BlockInv.ct_read {s : State} (hi : BlockInv s) (hr : s.phase = .ready) {i : Nat} (h : i < s.enc.n.toNat) :
    ∃ w, fetch Params.hfc .ct s.enc.ct i = .ok w ∧ Mem.read s.enc.ct i = some w := by
  have ok := hi.readyPhase hr
  have := ok.n_le
  obtain ⟨w, h1, -⟩ := ok.table.entry i h
  exact ⟨w, fetch_of_read (by simp; omega) h1, h1⟩

/-- In phase `READY` every symbol of the alphabet can be read. -/
theorem BlockInv.amem_read {s : State} (hi : BlockInv s) (hr : s.phase = .ready) {i : Nat} (h : i < s.enc.n.toNat) :
    ∃ a, fetch Params.hfc .amem s.load.amem i = .ok a ∧ Mem.read s.load.amem i = some a := by
  have ok := hi.readyPhase hr
  have := ok.n_le
  obtain ⟨a, ha⟩ := (Mem.mem_dom_iff s.load.amem i).mp (by rw [hi.load.amem_dom, ← ok.n_acnt]; simpa using h)
  exact ⟨a, fetch_of_read (by simp; omega) ha, ha⟩

/-- The index of a leaf of the Encoding is the leaf's own, and its symbol can be read. -/
theorem BlockInv.leaf_symbol {s : State} (hi : BlockInv s) (hr : s.phase = .ready) {k : Nat} {i : AlphaIdx}
    {w : NodeWeight} (h : Mem.read s.enc.node k = some (.leaf i w)) :
    i.toNat = k ∧ k < s.enc.n.toNat ∧
      ∃ a, fetch Params.hfc .amem s.load.amem k = .ok a ∧ Mem.read s.load.amem k = some a := by
  have ok := hi.readyPhase hr
  have := ok.n_le
  obtain ⟨h3, h4⟩ := ok.tree.leaf_inv h
  exact ⟨by rw [h4]; simp; omega, h3, hi.amem_read hr h3⟩

/-- R200: in phase `READY` the lookup ends with the smallest index that holds the symbol, or with none. -/
theorem BlockInv.lookup_cases {s : State} (hi : BlockInv s) (hr : s.phase = .ready) (a : Sym) :
    (∃ i, lookup Params.hfc a s = .ok (some i) ∧ IsFirstIndex s a i) ∨
    (lookup Params.hfc a s = .ok none ∧ NotInAlphabet s a) := by
  have := (hi.readyPhase hr).n_le
  by_cases hx : ∃ i, IsFirstIndex s a i
  · obtain ⟨i, h1, h2, h3⟩ := hx
    refine .inl ⟨i, scan_of_first (by omega) (fun l _ hl => ?_) (by omega) (by omega) h2 (fun l _ hl => h3 l hl),
      h1, h2, h3⟩
    obtain ⟨v, -, h⟩ := hi.amem_read hr (i := l) (by omega)
    exact ⟨v, h⟩
  · have hn : NotInAlphabet s a := by
      intro i
      induction i using Nat.strong_induction_on with
      | _ i ih => exact fun hin hr => hx ⟨i, hin, hr, fun j hj => ih j hj (by omega)⟩
    refine .inr ⟨scan_of_absent (by omega) (fun l _ hl => ?_), hn⟩
    obtain ⟨v, -, h⟩ := hi.amem_read hr (i := l) (by omega)
    exact ⟨v, h, by rintro rfl; exact hn l (by omega) h⟩

theorem BlockInv.lookup_of_first {s : State} (hi : BlockInv s) (hr : s.phase = .ready) {a : Sym} {i : Nat}
    (h : IsFirstIndex s a i) : lookup Params.hfc a s = .ok (some i) := by
  rcases hi.lookup_cases hr a with ⟨j, hj, h1, h2, h3⟩ | ⟨-, hn⟩
  · rcases Nat.lt_trichotomy i j with hlt | rfl | hgt
    · exact absurd h.2.1 (h3 i hlt)
    · exact hj
    · exact absurd h2 (h.2.2 j hgt)
  · exact absurd h.2.1 (hn i h.1)

theorem BlockInv.lookup_of_absent {s : State} (hi : BlockInv s) (hr : s.phase = .ready) {a : Sym}
    (h : NotInAlphabet s a) : lookup Params.hfc a s = .ok none := by
  rcases hi.lookup_cases hr a with ⟨j, -, hj⟩ | ⟨hn, -⟩
  · exact absurd hj.2.1 (h j hj.1)
  · exact hn

end Sys2Proof.Machine
end

