-- ==== Sys2Proof/Laws/Params.lean ====
section
/-!
SUPPORT. The parameters of this hardware satisfy the constraints of 00_scope.md R8, and the widths that stand as
literals in Word.lean are theirs.
-/

namespace Sys2Proof

theorem hfc_wellFormed : Params.hfc.wellFormed = true := by decide

theorem word_widths_are_hfc :
    Opcode = BitVec Params.hfc.opcW ∧ Arg = BitVec Params.hfc.argW ∧
    Request = BitVec (Params.hfc.opcW + Params.hfc.argW) ∧ Data = BitVec Params.hfc.dataW ∧
    Sym = BitVec Params.hfc.symW ∧ Weight = BitVec Params.hfc.wgtW ∧ NodeWeight = BitVec Params.hfc.wsumW ∧
    AlphaIdx = BitVec Params.hfc.idxW ∧ NodeIdx = BitVec Params.hfc.nodeW ∧ Count = BitVec Params.hfc.cntW ∧
    Payload = BitVec Params.hfc.payW ∧ CwLen = BitVec Params.hfc.lenW ∧ Codeword = BitVec Params.hfc.cwW :=
  ⟨rfl, rfl, rfl, rfl, rfl, rfl, rfl, rfl, rfl, rfl, rfl, rfl, rfl⟩

end Sys2Proof
end

