-- ==== Sys2Proof/Laws/PerInstr.lean ====
section
/-!
SUPPORT. Per-instruction laws. Family `EncodedWord`: the encoding of a command has the opcode of its row of R94, and a
set bit of its operand lies below `UW` (R97).
-/

namespace Sys2Proof.Laws.EncodedWord

/-- The operand of a command fits in the `UW` bits the command uses (R97). -/
def Statement (i : Instr) : Prop := i.operand.toNat < 2 ^ i.mnemonic.operandWidth

theorem nop : Statement .nop := Nat.two_pow_pos _
theorem clr : Statement .clr := Nat.two_pow_pos _
theorem ldw (w : Weight) : Statement (.ldw w) := w.isLt
theorem lda (a : Sym) : Statement (.lda a) := by
  simpa [Statement, Instr.operand, Instr.mnemonic, Mnemonic.operandWidth, Mnemonic.usedBits, Params.hfc] using (Nat.mod_le _ _).trans_lt a.isLt
theorem build : Statement .build := Nat.two_pow_pos _
theorem stat (r : BitVec 4) : Statement (.stat r) := by
  simpa [Statement, Instr.operand, Instr.mnemonic, Mnemonic.operandWidth, Mnemonic.usedBits, Params.hfc] using (Nat.mod_le _ _).trans_lt r.isLt
theorem enc1 (a : Sym) : Statement (.enc1 a) := by
  simpa [Statement, Instr.operand, Instr.mnemonic, Mnemonic.operandWidth, Mnemonic.usedBits, Params.hfc] using (Nat.mod_le _ _).trans_lt a.isLt
theorem eopen : Statement .eopen := Nat.two_pow_pos _
theorem epush (a : Sym) : Statement (.epush a) := by
  simpa [Statement, Instr.operand, Instr.mnemonic, Mnemonic.operandWidth, Mnemonic.usedBits, Params.hfc] using (Nat.mod_le _ _).trans_lt a.isLt
theorem eend : Statement .eend := Nat.two_pow_pos _
theorem epull : Statement .epull := Nat.two_pow_pos _
theorem dopen : Statement .dopen := Nat.two_pow_pos _
theorem dpush (b : BitVec 1) : Statement (.dpush b) := by
  simpa [Statement, Instr.operand, Instr.mnemonic, Mnemonic.operandWidth, Mnemonic.usedBits, Params.hfc] using (Nat.mod_le _ _).trans_lt b.isLt
theorem dend : Statement .dend := Nat.two_pow_pos _
theorem dpull : Statement .dpull := Nat.two_pow_pos _
theorem rdn (k : NodeIdx) : Statement (.rdn k) := by
  simpa [Statement, Instr.operand, Instr.mnemonic, Mnemonic.operandWidth, Mnemonic.usedBits, Params.hfc] using (Nat.mod_le _ _).trans_lt k.isLt
theorem rdc (c : AlphaIdx) : Statement (.rdc c) := by
  simpa [Statement, Instr.operand, Instr.mnemonic, Mnemonic.operandWidth, Mnemonic.usedBits, Params.hfc] using (Nat.mod_le _ _).trans_lt c.isLt

end Sys2Proof.Laws.EncodedWord
end

