-- ==== Sys2Proof/Tests/Slice0.lean ====
section
/-!
SUPPORT. Tests on fixed values, with their sources in spec/95_test_vectors.md (X1 to X3, T1 to T20) and the encodings of
30_encoding.md, and one witness per statement of the certificates that has hypotheses: a state and operands that meet
them all.
-/

namespace Sys2Proof.Tests

open Sys2Proof.Machine

/-! ## Decoding: one word per command, written out from R90, R94, R97 -/

theorem test_decode_nop : decode 0b00000000_00000000000000000000000000000000 = .ok .nop := by decide
theorem test_decode_clr : decode 0b00000001_00000000000000000000000000000000 = .ok .clr := by decide
theorem test_decode_ldw : decode 0b00000010_11111111111111111111111111111110 = .ok (.ldw 4294967294) := by decide
theorem test_decode_lda : decode 0b00000011_00000000000000000000000001100001 = .ok (.lda 0x61) := by decide
theorem test_decode_build : decode 0b00000100_00000000000000000000000000000000 = .ok .build := by decide
theorem test_decode_stat : decode 0b00000101_00000000000000000000000000001000 = .ok (.stat 8) := by decide
theorem test_decode_enc1 : decode 0b00001000_00000000000000000000000001111010 = .ok (.enc1 0x7A) := by decide
theorem test_decode_eopen : decode 0b00001001_00000000000000000000000000000000 = .ok .eopen := by decide
theorem test_decode_epush : decode 0b00001010_00000000000000000000000001100010 = .ok (.epush 0x62) := by decide
theorem test_decode_eend : decode 0b00001011_00000000000000000000000000000000 = .ok .eend := by decide
theorem test_decode_epull : decode 0b00001100_00000000000000000000000000000000 = .ok .epull := by decide
theorem test_decode_dopen : decode 0b00010000_00000000000000000000000000000000 = .ok .dopen := by decide
theorem test_decode_dpush : decode 0b00010001_00000000000000000000000000000001 = .ok (.dpush 1) := by decide
theorem test_decode_dend : decode 0b00010010_00000000000000000000000000000000 = .ok .dend := by decide
theorem test_decode_dpull : decode 0b00010011_00000000000000000000000000000000 = .ok .dpull := by decide
theorem test_decode_rdn : decode 0b00011000_00000000000000000000000111111110 = .ok (.rdn 510) := by decide
theorem test_decode_rdc : decode 0b00011001_00000000000000000000000011111111 = .ok (.rdc 255) := by decide

/-- T16: the words it names as illegal are rejected, and by what. -/
theorem test_decode_rejects :
    decode 0x0000000001 = .error (.operandBits .nop 1) ∧ decode 0x0600000000 = .error (.reservedOpcode 0x06) ∧
    decode 0x0D00000000 = .error (.reservedOpcode 0x0D) ∧ decode 0x1400000000 = .error (.reservedOpcode 0x14) ∧
    decode 0x1A00000000 = .error (.reservedOpcode 0x1A) ∧ decode 0xFF00000000 = .error (.reservedOpcode 0xFF) ∧
    decode 0x0300000100 = .error (.operandBits .lda 0x100) ∧ decode 0x0500000010 = .error (.operandBits .stat 0x10) ∧
    decode 0x1100000002 = .error (.operandBits .dpush 2) ∧ decode 0x1800000200 = .error (.operandBits .rdn 0x200) ∧
    decode 0x1900000100 = .error (.operandBits .rdc 0x100) := by decide

/-- The table word of `LDW` and its 40-bit numbering; a bit above `nbits` is 0. -/
theorem test_decodeTableWord :
    decodeTableWord 40 0x0200000016 = some (.ldw 22) ∧ decodeTableWord 40 0x0600000000 = none ∧
    decodeTableWord 32 0x0200000016 = none := by decide

/-! ## Well-formedness: an ill-formed term for each check -/

theorem test_request_reserved_opcode_refused : Request.wellFormed 0x0700000000 = false := by decide
theorem test_request_operand_bit_refused : Request.wellFormed 0x0A00000100 = false := by decide
theorem test_request_wellFormed : Request.wellFormed 0x0A000000FF = true := by decide

theorem test_params_hfc_wellFormed : Params.hfc.wellFormed = true := by decide
theorem test_params_nMax_low : ({ Params.hfc with nMax := 0 } : Params).wellFormed = false := by decide
theorem test_params_idxW : ({ Params.hfc with idxW := 7 } : Params).wellFormed = false := by decide
theorem test_params_cntW : ({ Params.hfc with cntW := 8 } : Params).wellFormed = false := by decide
theorem test_params_nodeMax : ({ Params.hfc with nodeMax := 510 } : Params).wellFormed = false := by decide
theorem test_params_nodeW : ({ Params.hfc with nodeW := 8 } : Params).wellFormed = false := by decide
theorem test_params_symW : ({ Params.hfc with symW := 33 } : Params).wellFormed = false := by decide
theorem test_params_wgtW : ({ Params.hfc with wgtW := 0 } : Params).wellFormed = false := by decide
theorem test_params_wsumW : ({ Params.hfc with wsumW := 39 } : Params).wellFormed = false := by decide
theorem test_params_cwW : ({ Params.hfc with cwW := 63 } : Params).wellFormed = false := by decide
theorem test_params_lenW : ({ Params.hfc with lenW := 5, payW := 59, maxDepth := 59 } : Params).wellFormed = false := by
  decide
theorem test_params_maxDepth : ({ Params.hfc with maxDepth := 56 } : Params).wellFormed = false := by decide
theorem test_params_dataW : ({ Params.hfc with dataW := 63 } : Params).wellFormed = false := by decide

/-- The rows of the opcode table are pairwise disjoint. -/
theorem test_rows_disjoint : opcodeTable.Pairwise fun a b => a.pattern &&& (a.mask &&& b.mask) ≠ b.pattern &&& (a.mask &&& b.mask) := by
  decide +kernel

/-! ## States for the tests, from X1 and T6 -/

/-- The words of a memory filled from index 0. -/
def cells {α : Type} (words : List α) : Mem α := words.zipIdx.map fun p => (p.2, p.1)

/-- X1 loaded: weights `22, 12, 29, 6, 21, 9` over `abcdef`. -/
def loadX1 : LoadState :=
  { wmem := cells [22, 12, 29, 6, 21, 9], wcnt := 6, amem := cells [0x61, 0x62, 0x63, 0x64, 0x65, 0x66], acnt := 6 }

/-- The Encoding of X1, written out from its tables. -/
def encX1 : Encoding where
  n := 6
  root := 10
  nnodes := 11
  node := cells [.leaf 0 22, .leaf 1 12, .leaf 2 29, .leaf 3 6, .leaf 4 21, .leaf 5 9, .internal 3 5 15,
    .internal 1 6 27, .internal 4 0 43, .internal 7 2 56, .internal 8 9 99]
  ct := cells [0x0400000000000002, 0x0600000000000001, 0x0400000000000003, 0x0800000000000005, 0x0400000000000000,
    0x080000000000000D]

def loadedX1 : State := { State.reset with load := loadX1 }
def readyX1 : State := { loadedX1 with phase := .ready, enc := encX1 }

/-- X1 with an encoder stream. -/
def encodingX1 (eoi : Bool) (val : Payload) (len : CwLen) : State :=
  { readyX1 with est := { state := .run, eoi := eoi, val := val, len := len } }

/-- X1 with a decoder stream. -/
def decodingX1 (state : DState) (eoi : Bool) (cur : NodeIdx) : State :=
  { readyX1 with dst := { state := state, eoi := eoi, cur := cur } }

/-- T6: one symbol. -/
def loadedOne : State := { State.reset with load := { wmem := cells [5], wcnt := 1, amem := cells [0x71], acnt := 1 } }
def encOne : Encoding := { n := 1, root := 0, nnodes := 1, node := cells [.leaf 0 5], ct := cells [0] }
def decodingOne (eoi : Bool) : State :=
  { loadedOne with phase := .ready, enc := encOne, dst := { state := .atRoot, eoi := eoi, cur := 0 } }

/-- The status and data answered, if the command answers. -/
def answer (x : StepOutcome) : Option (Status × Data) :=
  match x with
  | .next t => t.port.response.map fun rsp => (rsp.st, rsp.data)
  | _ => none

/-- A part of the state after a command, if it answers. -/
def after {α : Type} (part : State → α) (x : StepOutcome) : Option α :=
  match x with
  | .next t => some (part t)
  | _ => none

/-! ## One step per test -/

theorem test_nop_keeps_error : after Of.State.err (exec .nop { loadedX1 with err := ⟨0x13, 2, 7⟩ }) = some ⟨0x13, 2, 7⟩ := by
  decide
/-- T17. -/
theorem test_clr : after id (exec .clr (encodingX1 false 5 4)) = some (okState State.reset 0) := by decide
/-- T16: the largest weight. -/
theorem test_ldw : after Of.State.load (exec (.ldw 4294967295) State.reset) =
    some { wmem := [(0, 4294967295)], wcnt := 1, amem := [], acnt := 0 } := by decide
/-- T10. -/
theorem test_ldw_full : answer (exec (.ldw 7) { State.reset with load := { State.reset.load with wcnt := 256 } }) =
    some (.errCapacity, 0) := by decide
theorem test_lda : after Of.State.load (exec (.lda 0x63) { loadedX1 with load := { loadX1 with amem := cells [0x61, 0x62], acnt := 2 } }) =
    some { loadX1 with amem := cells [0x61, 0x62, 0x63], acnt := 3 } := by decide
/-- T15 has the converse for phase `LOAD`; a load in phase `READY` is T7. -/
theorem test_lda_ready : answer (exec (.lda 0x63) readyX1) = some (.errState, 0) := by decide
/-- X1. -/
theorem test_build : after id (exec .build loadedX1) = some (okState readyX1 0) := by decide +kernel
/-- T7: the lengths differ before the alphabet is empty. -/
theorem test_build_length_first :
    after Of.State.err (exec .build { State.reset with load := { State.reset.load with wmem := [(0, 1)], wcnt := 1 } }) =
      some ⟨0x20, 0x04, 0⟩ := by decide
/-- P1 row 17. -/
theorem test_stat_tree : answer (exec (.stat 4) readyX1) = some (.ok, 0x0000000B000A0006) := by decide
/-- T14: `D_TRAV`, `D_EOI`. -/
theorem test_stat_status : answer (exec (.stat 2) (decodingX1 .trav true 6)) = some (.ok, 0x61) := by decide
/-- P1 row 22, T12. -/
theorem test_enc1 : answer (exec (.enc1 0x64) readyX1) = some (.ok, 0x0800000000000005) := by decide
/-- T18: the smallest index of a duplicate symbol. -/
theorem test_enc1_duplicate :
    answer (exec (.enc1 0x61) { readyX1 with load := { loadX1 with amem := cells [0x61, 0x62, 0x61, 0x64, 0x65, 0x66] } }) =
      some (.ok, 0x0400000000000002) := by decide
/-- T17: reopening discards bits. -/
theorem test_eopen : after Of.State.est (exec .eopen (encodingX1 false 2 3)) =
    some { state := .run, eoi := false, val := 0, len := 0 } := by decide
/-- T11. -/
theorem test_epush : after Of.State.est (exec (.epush 0x62) (encodingX1 false 0 0)) =
    some { state := .run, eoi := false, val := 1, len := 3 } := by decide
/-- T12. -/
theorem test_epush_unknown : after (fun s => (s.est.state, statErr s)) (exec (.epush 0x7A) (encodingX1 false 0 0)) =
    some (.fault, 0x00000000007A0A23) := by decide
/-- T11: permitted with bits left. -/
theorem test_eend : after Of.State.est (exec .eend (encodingX1 false 5 4)) =
    some { state := .run, eoi := true, val := 5, len := 4 } := by decide
/-- T11: the second `EPULL` of `b = 100`. -/
theorem test_epull : answer (exec .epull (encodingX1 false 1 3)) = some (.ok, 1) ∧
    after Of.State.est (exec .epull (encodingX1 false 1 3)) = some { state := .run, eoi := false, val := 0, len := 2 } := by
  decide
theorem test_epull_end : answer (exec .epull (encodingX1 true 0 0)) = some (.endOfSeq, 0) := by decide
/-- T14. -/
theorem test_dopen : after Of.State.dst (exec .dopen readyX1) = some { state := .atRoot, eoi := false, cur := 10 } := by
  decide
theorem test_dpush : after Of.State.dst (exec (.dpush 1) (decodingX1 .atRoot false 10)) =
    some { state := .trav, eoi := false, cur := 9 } := by decide
theorem test_dpush_leaf : answer (exec (.dpush 0) (decodingX1 .trav false 2)) = some (.errNotReady, 0) := by decide
theorem test_dend : after Of.State.dst (exec .dend (decodingX1 .trav false 6)) =
    some { state := .trav, eoi := true, cur := 6 } := by decide
theorem test_dend_again : after Of.State.err (exec .dend (decodingX1 .exh true 6)) = some ⟨0x11, 0x12, 0⟩ := by decide
theorem test_dpull_symbol : answer (exec .dpull (decodingX1 .trav false 2)) = some (.ok, 0x63) := by decide
theorem test_dpull_exhausts : after Of.State.dst (exec .dpull (decodingX1 .trav true 6)) =
    some { state := .exh, eoi := true, cur := 6 } := by decide
/-- P1 rows 18 and 19. -/
theorem test_rdn : answer (exec (.rdn 10) readyX1) = some (.ok, 0x8010090000000063) := by decide
theorem test_rdn_leaf : answer (exec (.rdn 5) readyX1) = some (.ok, 0x0000050000000009) := by decide
/-- P1 rows 20 and 21. -/
theorem test_rdc : answer (exec (.rdc 3) readyX1) = some (.ok, 0x0800000000000005) := by decide
theorem test_rdc_range : answer (exec (.rdc 6) readyX1) = some (.errRange, 0) := by decide
/-- T16: the request word reaches the error record whole. -/
theorem test_step_illegal : after Of.State.err (step (State.reset.withFetchWord 40 0x01FFFFFFFF)) =
    some ⟨0x10, 0x01, 0xFFFFFFFF⟩ := by decide
theorem test_step_runs : after id (step (loadedX1.withFetchWord 40 0x0400000000)) = some (okState readyX1 0) := by decide +kernel

/-! ## The builder at the corners -/

/-- T3: among equal weights the lower node index, here the leaf, comes first. -/
theorem test_build_tie : (construct Params.hfc (cells [1, 1, 2]) 3).toOption.map (fun e => (e.node.drop 3, e.ct)) =
    some ([(3, .internal 0 1 2), (4, .internal 2 3 4)],
      cells [0x0400000000000001, 0x0400000000000003, 0x0200000000000000]) := by decide +kernel
/-- T5: the lighter of two is the left child. -/
theorem test_build_two : (construct Params.hfc (cells [5, 3]) 2).toOption.map (fun e => (e.node.drop 2, e.ct)) =
    some ([(2, .internal 1 0 8)], cells [0x0200000000000001, 0x0200000000000000]) := by decide +kernel
/-- T6. -/
theorem test_build_one : (construct Params.hfc (cells [5]) 1).toOption = some encOne := by decide +kernel
/-- T20: node weights are exact above 32 bits. -/
theorem test_build_largest :
    (construct Params.hfc (cells [4294967295, 4294967295, 4294967295, 4294967295]) 4).toOption.map (fun e => e.node.drop 6) =
      some [(6, .internal 4 5 0x3FFFFFFFC)] := by decide +kernel
/-- The parameters of T19: a payload of `d` bits. -/
def paramsT19 (d : Nat) : Params := { Params.hfc with payW := d, maxDepth := d, lenW := 3, cwW := d + 3 }
theorem paramsT19_wellFormed : (paramsT19 3).wellFormed = true ∧ (paramsT19 4).wellFormed = true := by decide
/-- The block of T19 with the weights of T4 loaded. -/
def loadedT19 (d : Nat) : BlockState (paramsT19 d) :=
  let s := blockReset (paramsT19 d)
  { s with load := { wmem := cells [1, 1, 2, 4, 8], wcnt := 5, amem := cells [0x61, 0x62, 0x63, 0x64, 0x65], acnt := 5 } }
/-- The status `BUILD` answers at the parameters of T19. -/
def buildT19 (d : Nat) : Option Status :=
  match blockCommand (paramsT19 d) (0x04#8 ++ 0#32) (loadedT19 d) with
  | .next t => t.port.response.map fun rsp => rsp.st
  | _       => none
/-- T19: with `MAXDEPTH = 4` the tree of T4 is not too deep; with 3 it is. -/
theorem test_too_deep : buildT19 4 = some .ok ∧ buildT19 3 = some .treeTooDeep := by decide +kernel
/-- R183 on X1. -/
theorem test_stack_loop : stackLoop Params.hfc encX1.node 12 ([⟨10, 0, 0⟩] : List Frame) [] = some (.ok encX1.ct) := by decide +kernel

/-! ## Bit Sequences (T1) -/

theorem test_bitseq_pops :
    (BitSeq.full (5 : BitVec 4)).popFront = some ⟨2, 3⟩ ∧ (BitSeq.full (5 : BitVec 4)).popBack = some ⟨5, 3⟩ ∧
    (BitSeq.full (5 : BitVec 4)).front = some true ∧ (BitSeq.full (5 : BitVec 4)).back = some false := by decide
theorem test_bitseq_slice : (BitSeq.full (13 : BitVec 4)).slice 1 3 = some ⟨6, 2⟩ ∧
    (BitSeq.full (13 : BitVec 4)).slice 3 2 = none := by decide
theorem test_bitseq_lists : (BitSeq.full (13 : BitVec 4)).toList = [true, false, true, true] ∧
    (BitSeq.full (13 : BitVec 4)).reversed.toList = [true, true, false, true] ∧
    BitSeq.fromList 4 [true, false, true, true] = some ⟨13, 4⟩ := by decide
theorem test_bitseq_equal : (⟨0xFF, 3⟩ : BitSeq 8).sameSeq (⟨7, 3⟩ : BitSeq 8) = true := by decide

/-! ## Programs of the host and the notation -/

/-- The first symbol `e` of X2 and a dropped bit. -/
theorem test_decodeAll :
    (match decodeAll 7 [false, false, true] readyX1 with
      | .returned out t => some (out, t.dst.state, t.dst.cur)
      | _ => none) = some ([0x65], .exh, 9) := by decide +kernel
/-- T11: `a` is `01`. -/
theorem test_encodeAll :
    (match encodeAll 5 [0x61] readyX1 with
      | .returned out _ => some out
      | _ => none) = some [false, true] := by decide +kernel
theorem test_assemble : assemble "EPUSH 'b' ; push".toList = some [0x0A00000062] ∧
    assemble "LDWS 1, 0x1F, 0b11".toList = some [0x0200000001, 0x020000001F, 0x0200000003] ∧
    assemble "LDAS \"ab\"".toList = some [0x0300000061, 0x0300000062] ∧ assemble "RESET".toList = some [0x0100000000] ∧
    assemble "LOAD 22, 'a'".toList = some [0x0200000016, 0x0300000061] ∧ assemble "JUMP 3".toList = none := by
  decide +kernel
/-- Log entry 12: no number without a digit, no character without an ASCII code, no quoted weight. -/
theorem test_assemble_rejects : assemble "LDW _".toList = none ∧ assemble "LDW 0x_".toList = none ∧
    assemble "LDW 1__0".toList = none ∧ assemble "LDA 'é'".toList = none ∧ assemble "LDW 'a'".toList = none ∧
    assemble "LDW 0b00_100_100".toList = some [0x0200000024] := by decide +kernel
/-- Log entry 12: how quotes meet `;` and `,`. -/
theorem test_assemble_quotes : assemble "LDA ''' ; x".toList = some [0x0300000027] ∧
    assemble "LDA ';' ; x".toList = some [0x030000003B] ∧ assemble "LOAD 1, ','".toList = some [0x0200000001, 0x030000002C] ∧
    assemble "LDAS \"a;\" ; \"".toList = some [0x0300000061, 0x030000003B] ∧
    assemble "LDAS \"a\"b\"".toList = none := by decide +kernel
/-- The written request word is R101's. -/
theorem test_request_text : Request.text 0x0200000016 = "0x0200000016".toList := by decide +kernel
theorem test_response_text : Of.Response.text { st := .ok, data := 0x63 } = "OK 0x0000000000000063".toList ∧
    Of.Response.text { st := .unknownSymbol, data := 0 } = "UnknownSymbol".toList := by decide +kernel

/-! ## Witnesses: states that meet the hypotheses of the statements -/

theorem loadOk_X1 : LoadOk loadX1 := ⟨by decide, by decide, by decide, by decide⟩

theorem encodingOk_X1 : EncodingOk loadX1 encX1 := by
  have built : construct Params.hfc loadX1.wmem loadX1.wcnt = .ok encX1 := by decide +kernel
  obtain ⟨e, he, ok⟩ := construct_of_small loadOk_X1 rfl (by decide) (by decide)
  rw [built] at he
  cases he
  exact ok

theorem encStreamOk_closed : EncStreamOk State.reset.est :=
  ⟨by decide, fun d _ => by simp [State.reset, Of.State.reset], fun _ => ⟨rfl, rfl⟩, fun _ => rfl⟩

theorem decStreamOk_closed (e : Encoding) : DecStreamOk e State.reset.dst :=
  ⟨fun h => absurd rfl h, by simp [State.reset, Of.State.reset], by simp [State.reset, Of.State.reset], by simp [State.reset, Of.State.reset], fun _ => ⟨rfl, rfl⟩⟩

theorem inv_reset : BlockInv State.reset :=
  ⟨⟨by decide, by decide, rfl, rfl⟩, fun _ => ⟨rfl, rfl, rfl⟩, by simp [State.reset, Of.State.reset], encStreamOk_closed,
    decStreamOk_closed _, .inl rfl, by simp [PortOk, State.reset, Of.State.reset]⟩

theorem inv_loadedX1 : BlockInv loadedX1 :=
  ⟨loadOk_X1, fun _ => ⟨rfl, rfl, rfl⟩, by simp [loadedX1, State.reset, Of.State.reset], encStreamOk_closed, decStreamOk_closed _,
    .inl rfl, by simp [PortOk, loadedX1, State.reset, Of.State.reset]⟩

theorem inv_streams {est : EncStream} {dst : DecStream} (he : EncStreamOk est) (hd : DecStreamOk encX1 dst) :
    BlockInv { readyX1 with est := est, dst := dst } :=
  ⟨loadOk_X1, by simp [readyX1], fun _ => encodingOk_X1, he, hd, .inl rfl, by simp [PortOk, readyX1, loadedX1, State.reset, Of.State.reset]⟩

theorem inv_readyX1 : BlockInv readyX1 := inv_streams encStreamOk_closed (decStreamOk_closed _)

theorem inv_encodingX1 (eoi : Bool) {val : Payload} {len : CwLen} (hl : len.toNat ≤ 57)
    (hv : ∀ d : Fin 57, len.toNat ≤ d → val.getLsbD d = false) : BlockInv (encodingX1 eoi val len) :=
  inv_streams (est := { state := .run, eoi := eoi, val := val, len := len })
    ⟨hl, fun d hd => by
      by_cases h : d < 57
      · exact hv ⟨d, h⟩ hd
      · exact BitVec.getLsbD_of_ge _ _ (by omega), by simp, by simp⟩ (decStreamOk_closed _)

theorem inv_decodingX1_root (eoi : Bool) : BlockInv (decodingX1 .atRoot eoi 10) :=
  inv_streams (dst := { state := .atRoot, eoi := eoi, cur := 10 }) encStreamOk_closed
    ⟨fun _ => (by decide : (10 : NodeIdx).toNat < encX1.nnodes.toNat), fun _ => rfl, by simp, by simp, by simp⟩

theorem inv_decodingX1_trav (eoi : Bool) {cur : NodeIdx} (h1 : cur.toNat < 11) (h2 : cur ≠ 10) :
    BlockInv (decodingX1 .trav eoi cur) :=
  inv_streams (dst := { state := .trav, eoi := eoi, cur := cur }) encStreamOk_closed
    ⟨fun _ => h1, by simp, fun _ => h2, by simp, by simp⟩

theorem inv_decodingX1_exh : BlockInv (decodingX1 .exh true 6) :=
  inv_streams (dst := { state := .exh, eoi := true, cur := 6 }) encStreamOk_closed
    ⟨fun _ => by decide, by simp, by simp, fun _ => ⟨rfl, 3, 5, 15, rfl⟩, by simp⟩

theorem inv_one : BlockInv loadedOne ∧ ∀ eoi, BlockInv (decodingOne eoi) := by
  have load : LoadOk loadedOne.load := ⟨by decide, by decide, by decide, by decide⟩
  have built : construct Params.hfc loadedOne.load.wmem loadedOne.load.wcnt = .ok encOne := by decide +kernel
  obtain ⟨e, he, ok⟩ := construct_of_small load rfl (by decide) (by decide)
  rw [built] at he
  cases he
  refine ⟨⟨load, fun _ => ⟨rfl, rfl, rfl⟩, by simp [loadedOne, State.reset, Of.State.reset], encStreamOk_closed, decStreamOk_closed _,
    .inl rfl, by simp [PortOk, loadedOne, State.reset, Of.State.reset]⟩, fun eoi => ?_⟩
  exact ⟨load, by simp [decodingOne], fun _ => ok, encStreamOk_closed,
    ⟨fun _ => (by decide : (0 : NodeIdx).toNat < encOne.nnodes.toNat), fun _ => rfl, by simp [decodingOne], by simp [decodingOne], by simp [decodingOne]⟩, .inl rfl,
    by simp [PortOk, decodingOne, loadedOne, State.reset, Of.State.reset]⟩

/-- `b` of X1 is the symbol of index 1 and of no other. -/
theorem first_b (s : State) (h : s.load = loadX1) (h' : s.enc = encX1) : IsFirstIndex s 0x62 1 := by
  unfold IsFirstIndex
  rw [h, h']
  decide

theorem absent_z (s : State) (h : s.load = loadX1) (h' : s.enc = encX1) : NotInAlphabet s 0x7A := by
  unfold NotInAlphabet
  rw [h, h']
  decide

theorem witness_DecodedWordIsTheEncoding : decode 0x0A00000062 = .ok (.epush 0x62) := by decide

theorem witness_LegalIffExactlyOneRowMatches :
    (∃ i, decode 0x18000001FF = .ok i) ∧ ∃ e, decode 0x1800000200 = .error e := ⟨⟨.rdn 511, by decide⟩, _, rfl⟩

theorem witness_StepRunsDecodedCommand :
    (readyX1.withPending [.request 0x0900000000, .reset none]).port.pending = .request 0x0900000000 :: [.reset none] ∧
    decode 0x0900000000 = .ok .eopen := ⟨rfl, by decide⟩

theorem witness_IllegalRequestAnswersErrIllegal :
    (readyX1.withPending [.request 0x0400000001]).port.pending = .request 0x0400000001 :: [] ∧
    ∀ row ∈ opcodeTable, 0x0400000001#40 &&& row.mask ≠ row.pattern := ⟨rfl, by decide +kernel⟩

theorem witness_IdleHoldsAndResetRestores : readyX1.port.pending = [] ∧
    (readyX1.withPending [.reset (some 0x0400000000)]).port.pending = .reset (some 0x0400000000) :: [] := ⟨rfl, rfl⟩

theorem witness_StatCountAndTreeShowTheCounts : BlockInv loadedX1 ∧ loadedX1.phase = .load := ⟨inv_loadedX1, rfl⟩

theorem witness_OutOfRangeReadsAnswerErrRange : 8 ≤ (8 : BitVec 4).toNat ∧ readyX1.phase = .ready ∧
    readyX1.enc.nnodes.toNat ≤ (11 : NodeIdx).toNat ∧ readyX1.enc.n.toNat ≤ (6 : AlphaIdx).toNat := by decide

theorem witness_RdnAnswersTheNodeWord : BlockInv readyX1 ∧ readyX1.phase = .ready ∧
    (10 : NodeIdx).toNat < readyX1.enc.nnodes.toNat ∧ (0 : NodeIdx).toNat < readyX1.enc.nnodes.toNat ∧
    Mem.read readyX1.enc.node 0 = some (.leaf 0 22) ∧ Mem.read readyX1.enc.node 10 = some (.internal 8 9 99) :=
  ⟨inv_readyX1, rfl, by decide, by decide, rfl, rfl⟩

theorem witness_RdcAnswersTheCodeword : BlockInv readyX1 ∧ readyX1.phase = .ready ∧
    (5 : AlphaIdx).toNat < readyX1.enc.n.toNat := ⟨inv_readyX1, rfl, by decide⟩

theorem witness_NotPermittedAnswersErrState :
    ¬ Step3Holds readyX1 (.ldw 1) ∧ ¬ Step3Holds loadedX1 .eopen ∧ ¬ Step3Holds readyX1 (.epush 0x61) ∧
    ¬ Step3Holds (decodingX1 .exh true 6) (.dpush 0) ∧ ¬ Step3Holds readyX1 .dpull := by
  simp [Step3Holds, readyX1, loadedX1, decodingX1, State.reset, Of.State.reset]

/-- An error with its precision, and the one error that writes a stream. -/
theorem witness_ErrorsArePrecise : ∃ t u, command 0x0400000000 readyX1 = .next t ∧
    t.port.response = some { st := .errState, data := 0 } ∧ 0x10 ≤ Status.errState.code.toNat ∧
    command 0x0A0000007A (encodingX1 false 0 0) = .next u ∧
    u.port.response = some { st := .unknownSymbol, data := 0 } ∧ 0x10 ≤ Status.unknownSymbol.code.toNat :=
  ⟨_, _, rfl, rfl, by decide, rfl, rfl, by decide⟩

theorem witness_NonErrorsKeepTheErrorRecord : ∃ t, command 0x0C00000000 (encodingX1 false 0 0) = .next t ∧
    t.port.response = some { st := .needInput, data := 0 } ∧ Status.needInput.code.toNat < 0x10 ∧
    decode 0x0C00000000 ≠ .ok .clr := ⟨_, rfl, rfl, by decide, by decide⟩

theorem witness_EveryRequestHasOneResponse : ∃ t u, command 0x0C00000000 (encodingX1 false 1 3) = .next t ∧
    decode 0x0C00000000 = .ok .epull ∧ command 0x1300000000 (decodingX1 .trav false 2) = .next u ∧
    decode 0x1300000000 = .ok .dpull := ⟨_, _, rfl, by decide, rfl, by decide⟩

/-- `BUILD` on X1 answers `OK` and leaves phase `READY`. -/
theorem build_X1 : exec .build loadedX1 = .next (okState readyX1 0) := by
  have h := test_build
  cases he : exec .build loadedX1 with
  | next t =>
    rw [he] at h
    simpa [after] using h
  | fault f => rw [he] at h; simp [after] at h
  | refused r => rw [he] at h; simp [after] at h

theorem witness_PhaseAndEncodingChangeOnlyByBuildAndClr : ∃ t u, exec .build loadedX1 = .next t ∧
    loadedX1.phase = .load ∧ t.phase = .ready ∧ exec .eopen readyX1 = .next u ∧ readyX1.phase = .ready ∧
    Instr.eopen ≠ .clr := ⟨_, _, build_X1, rfl, rfl, rfl, rfl, by decide⟩

theorem witness_RegistersChangeOnlyByTheirCommands : ∃ t, exec (.ldw 7) State.reset = .next t ∧ Instr.ldw 7 ≠ .clr :=
  ⟨_, rfl, by decide⟩

theorem witness_MemoryChangesOnlyByItsCommands : ∃ t, exec (.lda 7) State.reset = .next t ∧ Instr.lda 7 ≠ .clr :=
  ⟨_, rfl, by decide⟩

theorem witness_ReadsHaveNoSideEffects : IsReader (.rdn 3) ∧ ∃ t, exec (.rdn 3) readyX1 = .next t := ⟨trivial, _, rfl⟩

theorem witness_StreamsDoNotAffectEachOther : IsEncoder .epull ∧ (∃ t, exec .epull (encodingX1 false 1 3) = .next t) ∧
    IsDecoder .dpull ∧ ∃ t, exec .dpull (decodingX1 .trav false 2) = .next t := ⟨trivial, ⟨_, rfl⟩, trivial, _, rfl⟩

/-- The last word that can be appended. -/
theorem witness_LdwAppendsAWeight : ∃ s : State, s.phase = .load ∧ s.load.wcnt.toNat = 255 ∧ s.load.wcnt.toNat < 256 :=
  ⟨{ State.reset with load := { State.reset.load with wcnt := 255 } }, rfl, by decide, by decide⟩

theorem witness_LdaAppendsASymbol : ∃ s : State, s.phase = .load ∧ s.load.acnt.toNat = 255 ∧ s.load.acnt.toNat < 256 :=
  ⟨{ State.reset with load := { State.reset.load with acnt := 255 } }, rfl, by decide, by decide⟩

theorem witness_FullMemoryAnswersErrCapacity : ∃ s : State, s.phase = .load ∧ s.load.wcnt = 256 ∧ s.load.acnt = 256 :=
  ⟨{ State.reset with load := { State.reset.load with wcnt := 256, acnt := 256 } }, rfl, rfl, rfl⟩

theorem witness_BuildChecksLengthsThenEmptiness :
    (∃ s : State, s.phase = .load ∧ s.load.wcnt ≠ s.load.acnt) ∧
    State.reset.phase = .load ∧ State.reset.load.wcnt = 0 ∧ State.reset.load.acnt = 0 :=
  ⟨⟨{ State.reset with load := { State.reset.load with acnt := 1 } }, rfl, by decide⟩, rfl, rfl, rfl⟩

theorem witness_BuildOfAtMost58WeightsSucceeds : BlockInv loadedX1 ∧ loadedX1.phase = .load ∧
    loadedX1.load.wcnt = loadedX1.load.acnt ∧ 1 ≤ loadedX1.load.wcnt.toNat ∧ loadedX1.load.wcnt.toNat ≤ 58 ∧
    loadedX1.load.wcnt ≠ 0 := ⟨inv_loadedX1, rfl, rfl, by decide, by decide, by decide⟩

theorem witness_BuildCommitsAnEncodingOrNothing : BlockInv loadedX1 ∧ loadedX1.phase = .load ∧
    loadedX1.load.wcnt = loadedX1.load.acnt ∧ loadedX1.load.wcnt ≠ 0 := ⟨inv_loadedX1, rfl, rfl, by decide⟩

theorem witness_TreeTooDeepIffALeafIsDeeperThan57 : BlockInv loadedX1 ∧ loadedX1.phase = .load ∧
    loadedX1.load.wcnt = loadedX1.load.acnt ∧ loadedX1.load.wcnt ≠ 0 := ⟨inv_loadedX1, rfl, rfl, by decide⟩

theorem witness_BuildDependsOnWeightsAndCountsOnly : ∃ s₁ s₂ t₁ t₂ : State, s₁.phase = .load ∧ s₂.phase = .load ∧
    s₁.load.wcnt = s₂.load.wcnt ∧ s₁.load.acnt = s₂.load.acnt ∧
    (∀ i, i < s₁.load.wcnt.toNat → Mem.read s₁.load.wmem i = Mem.read s₂.load.wmem i) ∧ s₁ ≠ s₂ ∧
    exec .build s₁ = .next t₁ ∧ exec .build s₂ = .next t₂ := by
  have h : ∃ t, exec .build { loadedOne with load := { loadedOne.load with amem := cells [0x72] } } = .next t := ⟨_, rfl⟩
  obtain ⟨t, h⟩ := h
  exact ⟨loadedOne, { loadedOne with load := { loadedOne.load with amem := cells [0x72] } }, _, t, rfl, rfl, rfl, rfl,
    fun _ _ => rfl, by decide, rfl, h⟩

theorem witness_ExtractMinIsAFunctionOfTheSet :
    ([⟨2, 1⟩, ⟨2, 0⟩, ⟨1, 2⟩] : List Key).map Of.Key.node |>.Nodup := by decide

theorem witness_ExtractMin_perm : ([⟨2, 1⟩, ⟨2, 0⟩, ⟨1, 2⟩] : List Key).Perm [⟨1, 2⟩, ⟨2, 1⟩, ⟨2, 0⟩] ∧
    extractMin ([⟨2, 1⟩, ⟨2, 0⟩, ⟨1, 2⟩] : List Key) = some (⟨1, 2⟩, [⟨2, 1⟩, ⟨2, 0⟩]) := by decide

/-- The indices are the two ends of the range. -/
theorem witness_InternalWeightsNeverFall : ∃ t, BlockInv loadedX1 ∧ loadedX1.phase = .load ∧
    exec .build loadedX1 = .next t ∧ t.phase = .ready ∧ t.enc.n.toNat ≤ 6 ∧ 6 + 1 < 2 * t.enc.n.toNat - 1 ∧
    t.enc.n.toNat ≤ 9 ∧ 9 + 1 < 2 * t.enc.n.toNat - 1 :=
  ⟨_, inv_loadedX1, rfl, build_X1, rfl, by decide, by decide, by decide, by decide⟩

theorem witness_WeightedLengthIsTheSumOfInternalWeights : ∃ t, BlockInv loadedX1 ∧ loadedX1.phase = .load ∧
    exec .build loadedX1 = .next t ∧ t.phase = .ready := ⟨_, inv_loadedX1, rfl, build_X1, rfl⟩

/-- The code of fixed length 3 is prefix-free on six indices. -/
theorem witness_BuiltCodeIsOptimal : ∃ t, BlockInv loadedX1 ∧ loadedX1.phase = .load ∧ exec .build loadedX1 = .next t ∧
    t.phase = .ready ∧ ∃ code : Nat → List Bool, ∀ i j, i < t.enc.n.toNat → j < t.enc.n.toNat → i ≠ j → ¬ code i <+: code j := by
  refine ⟨_, inv_loadedX1, rfl, build_X1, rfl, fun i => [i.testBit 0, i.testBit 1, i.testBit 2], ?_⟩
  have h : ∀ i j : Fin 6, i ≠ j → ¬ [i.val.testBit 0, i.val.testBit 1, i.val.testBit 2] <+:
      [j.val.testBit 0, j.val.testBit 1, j.val.testBit 2] := by decide
  exact fun i j hi hj hne => h ⟨i, hi⟩ ⟨j, hj⟩ (fun he => hne (Fin.mk.inj he))

theorem witness_CodeIsPrefixFreeAndComplete : EncodingOk loadX1 encX1 ∧ 2 ≤ encX1.n.toNat := ⟨encodingOk_X1, by decide⟩

theorem witness_OneSymbolHasTheEmptyCodeword : BlockInv loadedOne ∧ loadedOne.phase = .load ∧ loadedOne.load.wcnt = 1 ∧
    loadedOne.load.acnt = 1 := ⟨inv_one.1, rfl, rfl, rfl⟩

theorem witness_StackTraversalIsTheRecursion :
    StackReach encX1.node 10 [⟨8, 1, 0⟩, ⟨9, 1, 1⟩] [] := .turn .start rfl

theorem witness_OpenStartsAFreshStream : readyX1.phase = .ready := rfl

theorem witness_EndSetsTheFlagOnce :
    (encodingX1 false 1 3).est.state = .run ∧ (encodingX1 false 1 3).est.eoi = false ∧ (encodingX1 true 1 3).est.eoi = true ∧
    (decodingX1 .trav false 6).dst.state = .trav ∧ (decodingX1 .trav false 6).dst.eoi = false ∧
    (decodingX1 .atRoot true 10).dst.state = .atRoot ∧ (decodingX1 .atRoot true 10).dst.eoi = true := by decide

theorem witness_PushRefusesInOrder :
    (BlockInv (encodingX1 true 1 3) ∧ (encodingX1 true 1 3).est.state = .run ∧ (encodingX1 true 1 3).est.eoi = true) ∧
    (BlockInv (encodingX1 false 1 3) ∧ (encodingX1 false 1 3).est.eoi = false ∧ (encodingX1 false 1 3).est.len ≠ 0) ∧
    (BlockInv (encodingX1 false 0 0) ∧ (encodingX1 false 0 0).est.len = 0 ∧ NotInAlphabet (encodingX1 false 0 0) 0x7A) ∧
    (BlockInv (decodingX1 .trav true 6) ∧ (decodingX1 .trav true 6).dst.eoi = true) ∧
    (BlockInv (decodingX1 .trav false 2) ∧ (decodingX1 .trav false 2).dst.eoi = false ∧
      Mem.read (decodingX1 .trav false 2).enc.node 2 = some (.leaf 2 29)) :=
  ⟨⟨inv_encodingX1 _ (by decide) (by decide), rfl, rfl⟩, ⟨inv_encodingX1 _ (by decide) (by decide), rfl, by decide⟩,
    ⟨inv_encodingX1 _ (by decide) (by decide), rfl, absent_z _ rfl rfl⟩,
    ⟨inv_decodingX1_trav _ (by decide) (by decide), rfl⟩, inv_decodingX1_trav _ (by decide) (by decide), rfl, rfl⟩

theorem witness_Enc1AnswersTheCodeword : BlockInv readyX1 ∧ readyX1.phase = .ready ∧ IsFirstIndex readyX1 0x62 1 ∧
    NotInAlphabet readyX1 0x7A := ⟨inv_readyX1, rfl, first_b _ rfl rfl, absent_z _ rfl rfl⟩

theorem witness_EpushLoadsTheCodeword : BlockInv (encodingX1 false 0 0) ∧ (encodingX1 false 0 0).est.state = .run ∧
    (encodingX1 false 0 0).est.eoi = false ∧ (encodingX1 false 0 0).est.len = 0 ∧
    IsFirstIndex (encodingX1 false 0 0) 0x62 1 :=
  ⟨inv_encodingX1 _ (by decide) (by decide), rfl, rfl, rfl, first_b _ rfl rfl⟩

theorem witness_EpullDeliversTheNextBit : (encodingX1 false 1 1).est.state = .run ∧ (encodingX1 false 1 1).est.len ≠ 0 ∧
    (encodingX1 true 0 0).est.len = 0 ∧ (encodingX1 true 0 0).est.eoi = true ∧ (encodingX1 false 0 0).est.len = 0 ∧
    (encodingX1 false 0 0).est.eoi = false := by decide

theorem witness_EncodeAllConcatenatesCodewords : BlockInv readyX1 ∧ readyX1.phase = .ready ∧
    ∀ p ∈ [((0x62 : Sym), 1), (0x62, 1)], IsFirstIndex readyX1 p.1 p.2 :=
  ⟨inv_readyX1, rfl, by simpa using first_b readyX1 rfl rfl⟩

theorem witness_DpushTakesOneEdge : BlockInv (decodingX1 .atRoot false 10) ∧
    (decodingX1 .atRoot false 10).dst.state = .atRoot ∧ (decodingX1 .atRoot false 10).dst.eoi = false ∧
    Mem.read (decodingX1 .atRoot false 10).enc.node 10 = some (.internal 8 9 99) ∧
    BlockInv (decodingX1 .trav false 6) ∧ Mem.read (decodingX1 .trav false 6).enc.node 6 = some (.internal 3 5 15) :=
  ⟨inv_decodingX1_root _, rfl, rfl, rfl, inv_decodingX1_trav _ (by decide) (by decide), rfl⟩

theorem witness_DpullDeliversTheSymbolOrEnds :
    (BlockInv (decodingX1 .trav true 2) ∧ Mem.read encX1.node 2 = some (.leaf 2 29)) ∧
    (BlockInv (decodingX1 .trav true 6) ∧ (decodingX1 .trav true 6).dst.eoi = true ∧
      Mem.read encX1.node 6 = some (.internal 3 5 15)) ∧
    (BlockInv (decodingX1 .atRoot false 10) ∧ (decodingX1 .atRoot false 10).dst.eoi = false ∧
      Mem.read encX1.node 10 = some (.internal 8 9 99)) ∧
    BlockInv (decodingX1 .exh true 6) ∧ (decodingX1 .exh true 6).dst.state = .exh :=
  ⟨⟨inv_decodingX1_trav _ (by decide) (by decide), rfl⟩, ⟨inv_decodingX1_trav _ (by decide) (by decide), rfl, rfl⟩,
    ⟨inv_decodingX1_root _, rfl, rfl⟩, inv_decodingX1_exh, rfl⟩

theorem witness_OneSymbolDecoderRepeatsTheSymbol : BlockInv (decodingOne false) ∧ (decodingOne false).phase = .ready ∧
    (decodingOne false).enc.n = 1 ∧ (decodingOne false).dst.state ≠ .closed ∧ (decodingOne false).dst.eoi = false ∧
    BlockInv (decodingOne true) ∧ (decodingOne true).dst.eoi = true :=
  ⟨inv_one.2 _, rfl, rfl, by decide, rfl, inv_one.2 _, rfl⟩

theorem witness_DecodeAllSplitsEveryBitString : BlockInv readyX1 ∧ readyX1.phase = .ready ∧ 2 ≤ readyX1.enc.n.toNat :=
  ⟨inv_readyX1, rfl, by decide⟩

theorem witness_DecodingTheEncodedGivesTheSymbols : BlockInv readyX1 ∧ readyX1.phase = .ready ∧
    2 ≤ readyX1.enc.n.toNat ∧ ∀ a ∈ [(0x62 : Sym), 0x62], ∃ i, IsFirstIndex readyX1 a i :=
  ⟨inv_readyX1, rfl, by decide, by simpa using ⟨1, first_b readyX1 rfl rfl⟩⟩

theorem witness_EncodingTheDecodedGivesTheBits : BlockInv readyX1 ∧ readyX1.phase = .ready ∧
    2 ≤ readyX1.enc.n.toNat ∧ DistinctAlphabet readyX1 ∧ ∀ i ∈ [0, 5], i < readyX1.enc.n.toNat := by
  refine ⟨inv_readyX1, rfl, by decide, ?_, by decide⟩
  have h : ∀ i j : Fin 6, i ≠ j → Mem.read loadX1.amem i ≠ Mem.read loadX1.amem j := by decide
  exact fun i j hi hj hne => h ⟨i, hi⟩ ⟨j, hj⟩ (fun he => hne (Fin.mk.inj he))

theorem witness_EveryStepKeepsTheInvariant : BlockInv (readyX1.withPending [.request 0x0900000000]) ∧
    ∃ t, step (readyX1.withPending [.request 0x0900000000]) = .next t := ⟨inv_readyX1.withPending _, _, rfl⟩

theorem witness_EveryStepAnswers : BlockInv (readyX1.withPending [.request 0x0900000000]) := inv_readyX1.withPending _

theorem witness_BitSequenceOperationsActOnTheList :
    (⟨5, 4⟩ : BitSeq 4).popFront = some ⟨2, 3⟩ ∧ (⟨5, 4⟩ : BitSeq 4).popBack = some ⟨5, 3⟩ ∧
    (⟨13, 4⟩ : BitSeq 4).slice 1 3 = some ⟨6, 2⟩ ∧ BitSeq.fromList 4 [true, false, true, true] = some ⟨13, 4⟩ ∧
    (⟨5, 4⟩ : BitSeq 4).len ≤ 4 := by decide

end Sys2Proof.Tests
end

/-!
The scope rules (00_scope.md R6, 30_encoding.md R91, R103): a step runs the command of the host's next request, and a
request that is executed has one response, with data only where its command returns something.
-/

namespace Sys2Proof.Machine

/-! ## What a request does -/

theorem step_of_request {s : State} {r : Request} {rest : List HostEvent} (h : s.port.pending = .request r :: rest) :
    step s = command r (s.withPending rest) := by
  simp [step, takeEvent_cons h]

theorem command_of_decode_ok {r : Request} {i : Instr} (h : decode r = .ok i) (s : State) : command r s = exec i s := by
  simp [command, h]

theorem command_of_decode_error {r : Request} {e : DecodeError} (h : decode r = .error e) (s : State) :
    command r s = raise .errIllegal r.opc r.arg s := by
  simp [command, h]

/-! ## What a command may return -/

/-- The data a command may answer with (30_encoding.md R103): any word for `STAT`, `ENC1`, `RDN` and `RDC`, a bit for
`EPULL`, a symbol for `DPULL`, and 0 for every other command. -/
def Returns (d : Data) : Instr → Prop
  | .stat _ | .enc1 _ | .rdn _ | .rdc _ => True
  | .epull => d = 0 ∨ d = 1
  | .dpull => d.extractLsb' 8 56 = 0
  | _ => d = 0

theorem returns_zero (i : Instr) : Returns 0 i := by cases i <;> simp [Returns]

theorem returns_bitData (b : Bool) : Returns (bitData b) .epull := by
  cases b
  · exact .inl rfl
  · exact .inr rfl

theorem returns_symData (a : Sym) : Returns (symData a) .dpull := by
  ext j hj
  simp [symData]

theorem Returns.eq_zero {d : Data} {i : Instr} (h : Returns d i) (hstat : ∀ n, i ≠ .stat n) (henc1 : ∀ a, i ≠ .enc1 a)
    (hrdc : ∀ c, i ≠ .rdc c) (hrdn : ∀ k, i ≠ .rdn k) (hepull : i ≠ .epull) (hdpull : i ≠ .dpull) : d = 0 := by
  cases i with
  | stat n => exact absurd rfl (hstat n)
  | enc1 a => exact absurd rfl (henc1 a)
  | rdc c => exact absurd rfl (hrdc c)
  | rdn k => exact absurd rfl (hrdn k)
  | epull => exact absurd rfl hepull
  | dpull => exact absurd rfl hdpull
  | _ => exact h

/-! ## Every command responds -/

/-- From `s` to `t` command `i` is answered by one response, with data only if its status is `OK` and only such as `i`
returns, and the host's other events stay pending (00_scope.md R6, 30_encoding.md R91, R103). -/
def Responds (i : Instr) (s t : State) : Prop :=
  ∃ rsp, t.port.response = some rsp ∧ t.port.pending = s.port.pending ∧ (rsp.st ≠ .ok → rsp.data = 0) ∧ Returns rsp.data i

theorem responds_of_zero {s t : State} (i : Instr) (st : Status)
    (h : t.port = { s.port with response := some { st := st, data := 0 } }) : Responds i s t :=
  ⟨{ st := st, data := 0 }, by rw [h], by rw [h], fun _ => rfl, returns_zero i⟩

theorem responds_of_ok {i : Instr} {s t : State} {d : Data} (hd : Returns d i)
    (h : t.port = { s.port with response := some { st := .ok, data := d } }) : Responds i s t :=
  ⟨{ st := .ok, data := d }, by rw [h], by rw [h], fun hne => absurd rfl hne, hd⟩

theorem responds_failed (i : Instr) (s : State) (st : Status) : Responds i s (s.failed st i) :=
  responds_of_zero i st rfl

/-- A command that is executed responds: by an error, by a status with data 0, or by `OK` with what it returns. -/
theorem exec_responds {i : Instr} {s t : State} (h : exec i s = .next t) : Responds i s t := by
  cases i with
  | nop =>
    obtain rfl := execNop_next.mp h
    exact responds_of_zero _ .ok rfl
  | clr =>
    obtain rfl := execClr_next.mp h
    exact responds_of_zero _ .ok rfl
  | ldw w =>
    obtain ⟨-, rfl⟩ | ⟨-, -, rfl⟩ | ⟨-, -, rfl⟩ := execLdw_next.mp h
    · exact responds_failed ..
    · exact responds_failed ..
    · exact responds_of_zero _ .ok rfl
  | lda a =>
    obtain ⟨-, rfl⟩ | ⟨-, -, rfl⟩ | ⟨-, -, rfl⟩ := execLda_next.mp h
    · exact responds_failed ..
    · exact responds_failed ..
    · exact responds_of_zero _ .ok rfl
  | build =>
    obtain ⟨-, rfl⟩ | ⟨-, -, rfl⟩ | ⟨-, -, -, rfl⟩ | ⟨-, -, -, -, rfl⟩ | ⟨-, -, -, e, -, rfl⟩ := execBuild_next.mp h
    · exact responds_failed ..
    · exact responds_failed ..
    · exact responds_failed ..
    · exact responds_failed ..
    · exact responds_of_zero _ .ok rfl
  | stat r =>
    obtain ⟨d, -, rfl⟩ | ⟨-, rfl⟩ := execStat_next.mp h
    · exact responds_of_ok trivial rfl
    · exact responds_failed ..
  | enc1 a =>
    obtain ⟨-, rfl⟩ | ⟨-, -, rfl⟩ | ⟨-, j, w, -, -, rfl⟩ := execEnc1_next.mp h
    · exact responds_failed ..
    · exact responds_failed ..
    · exact responds_of_ok trivial rfl
  | eopen =>
    obtain ⟨-, rfl⟩ | ⟨-, rfl⟩ := execEopen_next.mp h
    · exact responds_failed ..
    · exact responds_of_zero _ .ok rfl
  | epush a =>
    obtain ⟨-, rfl⟩ | ⟨-, -, -, rfl⟩ | ⟨-, -, -, -, rfl⟩ | ⟨-, -, -, j, w, -, -, rfl⟩ := execEpush_next.mp h
    · exact responds_failed ..
    · exact responds_failed ..
    · exact responds_of_zero _ .unknownSymbol rfl
    · exact responds_of_zero _ .ok rfl
  | eend =>
    obtain ⟨-, rfl⟩ | ⟨-, -, rfl⟩ := execEend_next.mp h
    · exact responds_failed ..
    · exact responds_of_zero _ .ok rfl
  | epull =>
    obtain ⟨-, rfl⟩ | ⟨-, -, rfl⟩ | ⟨-, -, -, rfl⟩ | ⟨-, -, -, rfl⟩ := execEpull_next.mp h
    · exact responds_failed ..
    · exact responds_of_ok (returns_bitData _) rfl
    · exact responds_of_zero _ .endOfSeq rfl
    · exact responds_of_zero _ .needInput rfl
  | dopen =>
    obtain ⟨-, rfl⟩ | ⟨-, rfl⟩ := execDopen_next.mp h
    · exact responds_failed ..
    · exact responds_of_zero _ .ok rfl
  | dpush b =>
    obtain ⟨-, rfl⟩ | ⟨-, -, rec, -, ⟨index, weight, -, rfl⟩ | ⟨left, right, weight, -, rfl⟩⟩ := execDpush_next.mp h
    · exact responds_failed ..
    · exact responds_failed ..
    · exact responds_of_zero _ .ok rfl
  | dend =>
    obtain ⟨-, rfl⟩ | ⟨-, -, rfl⟩ := execDend_next.mp h
    · exact responds_failed ..
    · exact responds_of_zero _ .ok rfl
  | dpull =>
    obtain ⟨-, rfl⟩ | ⟨-, rfl⟩ | ⟨-, rec, -, ⟨index, weight, a, -, -, rfl⟩ |
      ⟨left, right, weight, -, ⟨-, rfl⟩ | ⟨-, rfl⟩⟩⟩ := execDpull_next.mp h
    · exact responds_failed ..
    · exact responds_of_zero _ .endOfSeq rfl
    · exact responds_of_ok (returns_symData a) rfl
    · exact responds_of_zero _ .endOfSeq rfl
    · exact responds_of_zero _ .needInput rfl
  | rdn k =>
    obtain ⟨-, rfl⟩ | ⟨-, -, rfl⟩ | ⟨-, -, rec, -, rfl⟩ := execRdn_next.mp h
    · exact responds_failed ..
    · exact responds_failed ..
    · exact responds_of_ok trivial rfl
  | rdc c =>
    obtain ⟨-, rfl⟩ | ⟨-, -, rfl⟩ | ⟨-, -, w, -, rfl⟩ := execRdc_next.mp h
    · exact responds_failed ..
    · exact responds_failed ..
    · exact responds_of_ok trivial rfl

/-! ## The obligations -/

/-- Settles O5: the host's next event is taken from the port, and a request that decodes runs its command. -/
theorem stepRunsDecodedCommand : Obligations.StepRunsDecodedCommand := by
  intro s r rest i hpending hdecode
  rw [step_of_request hpending, command_of_decode_ok hdecode]
  rfl

/-- Settles O21: a request that does not decode is answered with data 0, and one that does by its command's rule. -/
theorem everyRequestHasOneResponse : Obligations.EveryRequestHasOneResponse := by
  intro r s t h
  cases hd : decode r with
  | error e =>
    rw [command_of_decode_error hd, raise_next] at h
    subst h
    exact ⟨{ st := .errIllegal, data := 0 }, by simp⟩
  | ok i =>
    rw [command_of_decode_ok hd] at h
    obtain ⟨rsp, hresponse, hpending, hstatus, hreturns⟩ := exec_responds h
    refine ⟨rsp, hresponse, hpending, hstatus, ?_, ?_, ?_⟩
    · rintro j ⟨⟩ hstat henc1 hrdc hrdn hepull hdpull
      exact hreturns.eq_zero hstat henc1 hrdc hrdn hepull hdpull
    · rintro ⟨⟩
      exact hreturns
    · rintro ⟨⟩
      exact hreturns

end Sys2Proof.Machine

/-!
The state rules (10_state.md): what a command can do to the state, said once over all commands, and what follows for the
registers, the memories, the error record and the invariant.
-/

namespace Sys2Proof.Machine

/-! ## What a command does to the state -/

/-- The stream contexts an encoder command answered `OK` leaves (43_encoder.md R202 to R205). -/
inductive EncTurn (s : State) : Instr → EncStream → Prop where
  | opened (hready : s.phase = .ready) : EncTurn s .eopen { state := .run, eoi := false, val := 0, len := 0 }
  | pushed (a : Sym) {i : Nat} {w : Codeword} (hrun : s.est.state = .run) (hread : Mem.read s.enc.ct i = some w) :
      EncTurn s (.epush a) { s.est with val := cwBits w, len := cwLen w }
  | ended (hrun : s.est.state = .run) : EncTurn s .eend { s.est with eoi := true }
  | pulled (hrun : s.est.state = .run) (hpos : 0 < s.est.len.toNat) :
      EncTurn s .epull { s.est with val := s.est.val >>> 1, len := s.est.len - 1 }

/-- The stream contexts a decoder command leaves when it changes its stream (44_decoder.md R230 to R233). -/
inductive DecTurn (s : State) : Instr → DecStream → Prop where
  | opened (hready : s.phase = .ready) : DecTurn s .dopen { state := .atRoot, eoi := false, cur := s.enc.root }
  | pushed (b : BitVec 1) {left right : NodeIdx} {weight : NodeWeight} (hactive : s.dst.Active)
      (hread : Mem.read s.enc.node s.dst.cur.toNat = some (.internal left right weight)) :
      DecTurn s (.dpush b) { s.dst with cur := if b = 0 then left else right, state := .trav }
  | ended (hactive : s.dst.Active) : DecTurn s .dend { s.dst with eoi := true }
  | delivered (hactive : s.dst.Active) : DecTurn s .dpull { s.dst with cur := s.enc.root, state := .atRoot }
  | exhausted {left right : NodeIdx} {weight : NodeWeight} (hactive : s.dst.Active) (heoi : s.dst.eoi = true)
      (hread : Mem.read s.enc.node s.dst.cur.toNat = some (.internal left right weight)) :
      DecTurn s .dpull { s.dst with state := .exh }

/-- The states command `i` can lead to from `s`: after an error, after an answer that changes nothing, and after each of
the changes the rules allow. -/
inductive Effect (s : State) : Instr → State → Prop where
  | failed {i : Instr} (st : Status) (herr : st.isError = true) : Effect s i (s.failed st i)
  | answered {i : Instr} (st : Status) (d : Data) (hst : st.isError = false) (hd : st ≠ .ok → d = 0) :
      Effect s i (s.answered st d)
  | cleared : Effect s .clr ((hardwareReset s).answered .ok 0)
  | loadedWeight (w : Weight) (hload : s.phase = .load) (hlt : s.load.wcnt.toNat < 256) :
      Effect s (.ldw w) (Of.State.answered { s with load :=
        { s.load with wmem := Mem.write s.load.wmem s.load.wcnt.toNat w, wcnt := s.load.wcnt + 1 } } .ok 0)
  | loadedSymbol (a : Sym) (hload : s.phase = .load) (hlt : s.load.acnt.toNat < 256) :
      Effect s (.lda a) (Of.State.answered { s with load :=
        { s.load with amem := Mem.write s.load.amem s.load.acnt.toNat a, acnt := s.load.acnt + 1 } } .ok 0)
  | built (e : Encoding) (hload : s.phase = .load) (heq : s.load.wcnt = s.load.acnt) (hne : s.load.wcnt ≠ 0)
      (hconstruct : construct Params.hfc s.load.wmem s.load.wcnt = .ok e) :
      Effect s .build (Of.State.answered { s with enc := e, phase := .ready } .ok 0)
  | encoded {i : Instr} {est : EncStream} (d : Data) (hturn : EncTurn s i est) :
      Effect s i (Of.State.answered { s with est := est } .ok d)
  | faulted (a : Sym) (hrun : s.est.state = .run) :
      Effect s (.epush a)
        (Of.State.failed { s with est := { s.est with state := .fault, val := 0, len := 0 } } .unknownSymbol (.epush a))
  | decoded {i : Instr} {dst : DecStream} (st : Status) (d : Data) (hst : st.isError = false) (hd : st ≠ .ok → d = 0)
      (hturn : DecTurn s i dst) : Effect s i (Of.State.answered { s with dst := dst } st d)

theorem effect_ok {s : State} (i : Instr) (d : Data) : Effect s i (s.answered .ok d) :=
  .answered .ok d rfl fun h => absurd rfl h

theorem effect_decoded_ok {s : State} {i : Instr} {dst : DecStream} (d : Data) (hturn : DecTurn s i dst) :
    Effect s i (Of.State.answered { s with dst := dst } .ok d) :=
  .decoded .ok d rfl (fun h => absurd rfl h) hturn

/-- A command that answers has one of the effects. -/
theorem exec_effect {i : Instr} {s t : State} (h : exec i s = .next t) : Effect s i t := by
  cases i with
  | nop =>
    obtain rfl := execNop_next.mp h
    exact effect_ok ..
  | clr =>
    obtain rfl := execClr_next.mp h
    exact .cleared
  | ldw w =>
    obtain ⟨-, rfl⟩ | ⟨-, -, rfl⟩ | ⟨hload, hlt, rfl⟩ := execLdw_next.mp h
    · exact .failed _ rfl
    · exact .failed _ rfl
    · exact .loadedWeight w hload hlt
  | lda a =>
    obtain ⟨-, rfl⟩ | ⟨-, -, rfl⟩ | ⟨hload, hlt, rfl⟩ := execLda_next.mp h
    · exact .failed _ rfl
    · exact .failed _ rfl
    · exact .loadedSymbol a hload hlt
  | build =>
    obtain ⟨-, rfl⟩ | ⟨-, -, rfl⟩ | ⟨-, -, -, rfl⟩ | ⟨-, -, -, -, rfl⟩ | ⟨hload, heq, hne, e, he, rfl⟩ :=
      execBuild_next.mp h
    · exact .failed _ rfl
    · exact .failed _ rfl
    · exact .failed _ rfl
    · exact .failed _ rfl
    · exact .built e hload heq hne he
  | stat r =>
    obtain ⟨d, -, rfl⟩ | ⟨-, rfl⟩ := execStat_next.mp h
    · exact effect_ok ..
    · exact .failed _ rfl
  | enc1 a =>
    obtain ⟨-, rfl⟩ | ⟨-, -, rfl⟩ | ⟨-, j, w, -, -, rfl⟩ := execEnc1_next.mp h
    · exact .failed _ rfl
    · exact .failed _ rfl
    · exact effect_ok ..
  | eopen =>
    obtain ⟨-, rfl⟩ | ⟨hready, rfl⟩ := execEopen_next.mp h
    · exact .failed _ rfl
    · exact .encoded _ (.opened hready)
  | epush a =>
    obtain ⟨-, rfl⟩ | ⟨-, -, -, rfl⟩ | ⟨hrun, -, -, -, rfl⟩ | ⟨hrun, -, -, j, w, -, hw, rfl⟩ := execEpush_next.mp h
    · exact .failed _ rfl
    · exact .failed _ rfl
    · exact .faulted a hrun
    · exact .encoded _ (.pushed a hrun (fetch_ok_iff.mp hw).2)
  | eend =>
    obtain ⟨-, rfl⟩ | ⟨hrun, -, rfl⟩ := execEend_next.mp h
    · exact .failed _ rfl
    · exact .encoded _ (.ended hrun)
  | epull =>
    obtain ⟨-, rfl⟩ | ⟨hrun, hpos, rfl⟩ | ⟨-, -, -, rfl⟩ | ⟨-, -, -, rfl⟩ := execEpull_next.mp h
    · exact .failed _ rfl
    · exact .encoded _ (.pulled hrun hpos)
    · exact .answered _ _ rfl fun _ => rfl
    · exact .answered _ _ rfl fun _ => rfl
  | dopen =>
    obtain ⟨-, rfl⟩ | ⟨hready, rfl⟩ := execDopen_next.mp h
    · exact .failed _ rfl
    · exact effect_decoded_ok _ (.opened hready)
  | dpush b =>
    obtain ⟨-, rfl⟩ | ⟨hactive, -, rec, hrec, ⟨index, weight, -, rfl⟩ | ⟨left, right, weight, rfl, rfl⟩⟩ :=
      execDpush_next.mp h
    · exact .failed _ rfl
    · exact .failed _ rfl
    · exact effect_decoded_ok _ (.pushed b hactive (fetch_ok_iff.mp hrec).2)
  | dend =>
    obtain ⟨-, rfl⟩ | ⟨hactive, -, rfl⟩ := execDend_next.mp h
    · exact .failed _ rfl
    · exact effect_decoded_ok _ (.ended hactive)
  | dpull =>
    obtain ⟨-, rfl⟩ | ⟨-, rfl⟩ | ⟨hactive, rec, hrec, ⟨index, weight, a, -, -, rfl⟩ |
      ⟨left, right, weight, rfl, ⟨heoi, rfl⟩ | ⟨-, rfl⟩⟩⟩ := execDpull_next.mp h
    · exact .failed _ rfl
    · exact .answered _ _ rfl fun _ => rfl
    · exact effect_decoded_ok _ (.delivered hactive)
    · exact .decoded _ _ rfl (fun _ => rfl) (.exhausted hactive heoi (fetch_ok_iff.mp hrec).2)
    · exact .answered _ _ rfl fun _ => rfl
  | rdn k =>
    obtain ⟨-, rfl⟩ | ⟨-, -, rfl⟩ | ⟨-, -, rec, -, rfl⟩ := execRdn_next.mp h
    · exact .failed _ rfl
    · exact .failed _ rfl
    · exact effect_ok ..
  | rdc c =>
    obtain ⟨-, rfl⟩ | ⟨-, -, rfl⟩ | ⟨-, -, w, -, rfl⟩ := execRdc_next.mp h
    · exact .failed _ rfl
    · exact .failed _ rfl
    · exact effect_ok ..

/-! ## Every effect keeps the invariant -/

/-- The context of a stream that was just opened (10_state.md R28). -/
theorem encStreamOk_opened : EncStreamOk { state := .run, eoi := false, val := 0, len := 0 } :=
  ⟨by decide, fun d _ => by simp, fun h => absurd rfl h, fun h => by cases h⟩

/-- `pop_front` of a nonempty cursor keeps the bits above it clear (10_state.md R28, 40_bitseq.md R135). -/
theorem EncStreamOk.popFront {e : EncStream} (ok : EncStreamOk e) (hrun : e.state = .run) (hpos : 0 < e.len.toNat) :
    EncStreamOk { e with val := e.val >>> 1, len := e.len - 1 } := by
  have hlen : (e.len - 1).toNat = e.len.toNat - 1 := by
    have := e.len.isLt
    rw [BitVec.toNat_sub]
    simp
    omega
  refine ⟨?_, fun d hd => ?_, fun h => absurd hrun h, ok.closed⟩
  · have := ok.len_le
    simp only [hlen]
    omega
  · simp only [hlen] at hd
    rw [BitVec.getLsbD_ushiftRight]
    exact ok.high _ (by omega)

/-- Encoder commands act only in phase `READY` and leave a context as 10_state.md R28 says. -/
theorem EncTurn.keeps {s : State} (hi : BlockInv s) {i : Instr} {est : EncStream} (h : EncTurn s i est) :
    s.phase = .ready ∧ EncStreamOk est := by
  have ready (hrun : s.est.state = .run) : s.phase = .ready := hi.ready_of_est (by simp [hrun])
  have ok := hi.encStream
  cases h with
  | opened hready => exact ⟨hready, encStreamOk_opened⟩
  | pushed a hrun hread =>
    obtain ⟨-, hlen, hhigh⟩ := (hi.readyPhase (ready hrun)).entry hread
    exact ⟨ready hrun, hlen, hhigh, fun h => absurd hrun h, ok.closed⟩
  | ended hrun => exact ⟨ready hrun, ok.len_le, ok.high, ok.idle, fun h => by simp [hrun] at h⟩
  | pulled hrun hpos => exact ⟨ready hrun, ok.popFront hrun hpos⟩

/-- `EPUSH` of an unknown symbol leaves a faulted stream with an empty cursor (10_state.md R28, 43_encoder.md R203). -/
theorem EncStreamOk.faulted (e : EncStream) : EncStreamOk { e with state := .fault, val := 0, len := 0 } :=
  ⟨Nat.zero_le _, fun d _ => by simp, fun _ => ⟨rfl, rfl⟩, fun h => by cases h⟩

/-- The root of an Encoding is a node in use. -/
theorem EncodingOk.root_lt {l : LoadState} {e : Encoding} (ok : EncodingOk l e) : e.root.toNat < e.nnodes.toNat := by
  have := ok.root
  have := ok.nnodes
  have := ok.n_pos
  omega

/-- Decoder commands act only in phase `READY` and leave a context as 10_state.md R29 says. -/
theorem DecTurn.keeps {s : State} (hi : BlockInv s) {i : Instr} {dst : DecStream} (h : DecTurn s i dst) :
    s.phase = .ready ∧ DecStreamOk s.enc dst := by
  have ready (hactive : s.dst.Active) : s.phase = .ready := hi.ready_of_dst hactive.ne_closed
  have ok := hi.decStream
  cases h with
  | opened hready =>
    exact ⟨hready, fun _ => (hi.readyPhase hready).root_lt, fun _ => rfl, nofun, nofun, nofun⟩
  | pushed b hactive hread =>
    obtain ⟨hleft, hright, hleftLt, hrightLt⟩ := (hi.readyPhase (ready hactive)).children hread
    refine ⟨ready hactive, fun _ => ?_, nofun, fun _ => ?_, nofun, nofun⟩
    · dsimp only
      split <;> assumption
    · dsimp only
      split <;> assumption
  | ended hactive =>
    exact ⟨ready hactive, ok.cur_lt, ok.atRoot, ok.trav, fun h => by rcases hactive with ha | ha <;> simp [ha] at h,
      fun h => absurd h hactive.ne_closed⟩
  | delivered hactive =>
    exact ⟨ready hactive, fun _ => (hi.readyPhase (ready hactive)).root_lt, fun _ => rfl, nofun, nofun, nofun⟩
  | exhausted hactive heoi hread =>
    exact ⟨ready hactive, fun _ => ok.cur_lt hactive.ne_closed, nofun, nofun, fun _ => ⟨heoi, _, _, _, hread⟩, nofun⟩

theorem BlockInv.withEst {s : State} (hi : BlockInv s) (hready : s.phase = .ready) {est : EncStream}
    (ok : EncStreamOk est) : BlockInv { s with est := est } :=
  ⟨hi.load, fun h => by simp [hready] at h, hi.readyPhase, ok, hi.decStream, hi.err, hi.port⟩

theorem BlockInv.withDst {s : State} (hi : BlockInv s) (hready : s.phase = .ready) {dst : DecStream}
    (ok : DecStreamOk s.enc dst) : BlockInv { s with dst := dst } :=
  ⟨hi.load, fun h => by simp [hready] at h, hi.readyPhase, hi.encStream, ok, hi.err, hi.port⟩

/-- In phase `LOAD` the rest of the invariant does not speak of the load state. -/
theorem BlockInv.withLoad {s : State} (hi : BlockInv s) (hload : s.phase = .load) {l : LoadState} (ok : LoadOk l) :
    BlockInv { s with load := l } :=
  ⟨ok, hi.loadPhase, fun h => by simp [hload] at h, hi.encStream, hi.decStream, hi.err, hi.port⟩

/-- An Encoding may be committed in phase `LOAD`, where both streams are closed. -/
theorem BlockInv.withEncoding {s : State} (hi : BlockInv s) (hload : s.phase = .load) {e : Encoding}
    (ok : EncodingOk s.load e) : BlockInv { s with enc := e, phase := .ready } := by
  obtain ⟨-, -, hdst⟩ := hi.loadPhase hload
  have closed : s.dst.state = .closed := by rw [hdst]; rfl
  exact ⟨hi.load, nofun, fun _ => ok, hi.encStream, ⟨fun h => absurd closed h, fun h => by simp [closed] at h,
    fun h => by simp [closed] at h, fun h => by simp [closed] at h, hi.decStream.closed⟩, hi.err, hi.port⟩

theorem count_add_one {c : Count} (h : c.toNat < 256) : (c + 1).toNat = c.toNat + 1 := by
  simp
  omega

theorem LoadOk.appendWeight {l : LoadState} (ok : LoadOk l) (hlt : l.wcnt.toNat < 256) (w : Weight) :
    LoadOk { l with wmem := Mem.write l.wmem l.wcnt.toNat w, wcnt := l.wcnt + 1 } where
  wcnt_le := (count_add_one hlt).trans_le hlt
  acnt_le := ok.acnt_le
  wmem_dom := by rw [count_add_one hlt]; exact Mem.dom_write_next _ _ _ ok.wmem_dom
  amem_dom := ok.amem_dom

theorem LoadOk.appendSymbol {l : LoadState} (ok : LoadOk l) (hlt : l.acnt.toNat < 256) (a : Sym) :
    LoadOk { l with amem := Mem.write l.amem l.acnt.toNat a, acnt := l.acnt + 1 } where
  wcnt_le := ok.wcnt_le
  acnt_le := (count_add_one hlt).trans_le hlt
  wmem_dom := ok.wmem_dom
  amem_dom := by rw [count_add_one hlt]; exact Mem.dom_write_next _ _ _ ok.amem_dom

/-- What `construct` answers for matching nonempty loads is an Encoding of them. -/
theorem construct_encodingOk {l : LoadState} (ok : LoadOk l) (heq : l.wcnt = l.acnt) (hne : l.wcnt ≠ 0) {e : Encoding}
    (h : construct Params.hfc l.wmem l.wcnt = .ok e) : EncodingOk l e := by
  have hpos : 1 ≤ l.wcnt.toNat :=
    Nat.one_le_iff_ne_zero.mpr fun h0 => hne (BitVec.eq_of_toNat_eq (by simpa using h0))
  obtain ⟨e', he', hok⟩ | ⟨hdeep, -⟩ := construct_spec ok heq hpos
  · rw [h] at he'
    cases he'
    exact hok
  · rw [h] at hdeep
    cases hdeep

/-- After a hardware reset the invariant holds, whatever the state was (10_state.md R43). -/
theorem blockInv_hardwareReset (s : State) : BlockInv (hardwareReset s) where
  load := ⟨Nat.zero_le _, Nat.zero_le _, rfl, rfl⟩
  loadPhase _ := ⟨rfl, rfl, rfl⟩
  readyPhase := nofun
  encStream := ⟨Nat.zero_le _, fun _ _ => BitVec.getLsbD_zero, fun _ => ⟨rfl, rfl⟩, fun _ => rfl⟩
  decStream := ⟨fun h => absurd rfl h, nofun, nofun, nofun, fun _ => ⟨rfl, rfl⟩⟩
  err := .inl rfl
  port := nofun

theorem Effect.keeps_inv {s t : State} {i : Instr} (hi : BlockInv s) (h : Effect s i t) : BlockInv t := by
  cases h with
  | failed st herr => exact hi.failed st i herr
  | answered st d hst hd => exact hi.answered st d hd
  | cleared => exact (blockInv_hardwareReset s).answered _ _ fun _ => rfl
  | loadedWeight w hload hlt => exact (hi.withLoad hload (hi.load.appendWeight hlt w)).answered _ _ fun _ => rfl
  | loadedSymbol a hload hlt => exact (hi.withLoad hload (hi.load.appendSymbol hlt a)).answered _ _ fun _ => rfl
  | built e hload heq hne he =>
    exact (hi.withEncoding hload (construct_encodingOk hi.load heq hne he)).answered _ _ fun _ => rfl
  | encoded d hturn =>
    obtain ⟨hready, hest⟩ := hturn.keeps hi
    exact (hi.withEst hready hest).answered _ _ fun h => absurd rfl h
  | faulted a hrun =>
    exact (hi.withEst (hi.ready_of_est (by simp [hrun])) (.faulted s.est)).failed _ _ rfl
  | decoded st d hst hd hturn =>
    obtain ⟨hready, hdst⟩ := hturn.keeps hi
    exact (hi.withDst hready hdst).answered st d hd

theorem command_keeps_inv {r : Request} {s t : State} (hi : BlockInv s) (h : command r s = .next t) : BlockInv t := by
  cases hd : decode r with
  | error e =>
    rw [command_of_decode_error hd, raise_next] at h
    subst h
    exact ⟨hi.load, hi.loadPhase, hi.readyPhase, hi.encStream, hi.decStream, .inr ⟨.errIllegal, rfl, rfl⟩,
      by rintro rsp ⟨⟩ _; rfl⟩
  | ok i =>
    rw [command_of_decode_ok hd] at h
    exact (exec_effect h).keeps_inv hi

/-- Settles O55: the state after reset is what a hardware reset leaves. -/
theorem invariantHoldsAtReset : Obligations.InvariantHoldsAtReset := blockInv_hardwareReset State.reset

/-- Settles O56: taking an event keeps the invariant, a reset restores it, and every effect of a request keeps it. -/
theorem everyStepKeepsTheInvariant : Obligations.EveryStepKeepsTheInvariant := by
  intro s t hi h
  rw [step] at h
  cases hp : s.port.pending with
  | nil =>
    simp only [takeEvent_nil hp] at h
    cases h
    exact hi
  | cons e rest =>
    simp only [takeEvent_cons hp] at h
    cases e with
    | reset abandoned =>
      cases h
      exact blockInv_hardwareReset _
    | request r => exact command_keeps_inv (hi.withPending rest) h

end Sys2Proof.Machine

/-!
The weighted length of a code (95_test_vectors.md section 4, check (d)). Weighting every node of the tree by its depth
and summing over the nodes, once as children of their parents and once as leaves and internal nodes, gives the same
number.
-/

namespace Sys2Proof.Machine

/-- A sum over all children is a sum over their parents. -/
theorem sum_childRefs (m : Mem Node) (f g : Nat → Nat)
    (hleaf : ∀ k i w, (k, Of.Node.leaf i w) ∈ m → g k = 0)
    (hinternal : ∀ k l r w, (k, Of.Node.internal l r w) ∈ m → g k = f l.toNat + f r.toNat) :
    ((childRefs m).map fun c => f c.toNat).sum = ((Mem.dom m).map g).sum := by
  induction m with
  | nil => rfl
  | cons cell m ih =>
    obtain ⟨k, rec⟩ := cell
    have tail := ih (fun k i w h => hleaf k i w (.tail _ h)) (fun k l r w h => hinternal k l r w (.tail _ h))
    rw [show (k, rec) :: m = [(k, rec)] ++ m from rfl, childRefs_append, List.map_append, List.sum_append, tail]
    cases rec with
    | leaf i w => simp [Mem.dom, hleaf k i w (.head _)]
    | internal l r w => simp [Mem.dom, hinternal k l r w (.head _), Nat.add_assoc]

theorem nodeWeightAt_of_read {node : Mem Node} {k : Nat} {rec : Node} (h : Mem.read node k = some rec) :
    nodeWeightAt node k = rec.weight.toNat := by
  simp [nodeWeightAt, h]

namespace TreeOk

variable {wmem : Mem Weight} {n : Nat} {node : Mem Node}

/-- An internal node weighs what its children weigh (10_state.md R42). -/
theorem nodeWeightAt_internal (t : TreeOk wmem n node) {k : Nat} {l r : NodeIdx} {w : NodeWeight}
    (h : Mem.read node k = some (.internal l r w)) :
    nodeWeightAt node k = nodeWeightAt node l.toNat + nodeWeightAt node r.toNat := by
  obtain ⟨hn, hk, -⟩ := t.internal_inv h
  obtain ⟨l', r', w', nl, nr, hread, -, -, -, hl, hr, hsum⟩ := t.internal k hn hk
  rw [h] at hread
  cases hread
  rw [nodeWeightAt_of_read h, nodeWeightAt_of_read hl, nodeWeightAt_of_read hr]
  exact hsum

/-- `depth` gives every node of the tree the length of the paths to it from the root. -/
def IsDepth (n : Nat) (node : Mem Node) (root : NodeIdx) (depth : Nat → Nat) : Prop :=
  ∀ c : NodeIdx, c.toNat < 2 * n - 1 → (∃ bs, follow node root bs = some c) ∧
    ∀ bs, follow node root bs = some c → bs.length = depth c.toNat

theorem exists_isDepth (t : TreeOk wmem n node) (h1 : 1 ≤ n) (hn : n ≤ 256) {root : NodeIdx}
    (hroot : root.toNat = 2 * n - 2) : ∃ depth, IsDepth n node root depth := by
  choose path hpath using t.reachable hn hroot
  refine ⟨fun j => if hj : j < 2 * n - 1 then (path j hj).length else 0, fun c hc => ?_⟩
  have reached : follow node root (path c.toNat hc) = some c := by simpa using hpath c.toNat hc
  refine ⟨⟨_, reached⟩, fun bs hbs => ?_⟩
  simp only [dif_pos hc, t.path_unique hroot h1 hbs reached]

theorem IsDepth.root {root : NodeIdx} {depth : Nat → Nat} (hd : IsDepth n node root depth)
    (hlt : root.toNat < 2 * n - 1) : depth root.toNat = 0 :=
  ((hd root hlt).2 [] rfl).symm

/-- A child lies one edge deeper than its parent. -/
theorem IsDepth.child (t : TreeOk wmem n node) {root : NodeIdx} {depth : Nat → Nat} (hd : IsDepth n node root depth)
    {p l r : NodeIdx} {w : NodeWeight} (h : Mem.read node p.toNat = some (.internal l r w)) (b : Bool) :
    depth (if b then r else l).toNat = depth p.toNat + 1 := by
  obtain ⟨-, hp, hl, hr, -⟩ := t.internal_inv h
  obtain ⟨⟨bs, hbs⟩, hlen⟩ := hd p hp
  have hchild : follow node root (bs ++ [b]) = some (if b then r else l) := by
    rw [follow_append, hbs, Option.bind_some, follow_cons_internal b [] h, follow_nil]
  have hlt : (if b then r else l).toNat < 2 * n - 1 := by split <;> omega
  rw [← (hd _ hlt).2 _ hchild, List.length_append, hlen bs hbs, List.length_singleton]

/-- What the children of node `k` add to the sum of the weighted depths: nothing where `k` is a leaf. -/
def childrenTerm (n : Nat) (node : Mem Node) (depth : Nat → Nat) (k : Nat) : Nat :=
  if k < n then 0 else nodeWeightAt node k * depth k + nodeWeightAt node k

theorem childrenTerm_leaf (node : Mem Node) (depth : Nat → Nat) {k : Nat} (hk : k < n) :
    childrenTerm n node depth k = 0 := if_pos hk

theorem childrenTerm_add (node : Mem Node) (depth : Nat → Nat) (k : Nat) :
    childrenTerm n node depth (n + k) = nodeWeightAt node (n + k) * depth (n + k) + nodeWeightAt node (n + k) :=
  if_neg (by omega)

theorem childrenTerm_internal (t : TreeOk wmem n node) (hn : n ≤ 256) {root : NodeIdx} {depth : Nat → Nat}
    (hd : IsDepth n node root depth) {k : Nat} {l r : NodeIdx} {w : NodeWeight}
    (h : Mem.read node k = some (.internal l r w)) : childrenTerm n node depth k =
      nodeWeightAt node l.toNat * depth l.toNat + nodeWeightAt node r.toNat * depth r.toNat := by
  obtain ⟨hge, hk, -⟩ := t.internal_inv h
  have hidx : (BitVec.ofNat 9 k).toNat = k := by simp; omega
  have hread : Mem.read node (BitVec.ofNat 9 k).toNat = some (.internal l r w) := by rw [hidx]; exact h
  have hl : depth l.toNat = depth k + 1 := hidx ▸ hd.child t hread false
  have hr : depth r.toNat = depth k + 1 := hidx ▸ hd.child t hread true
  rw [childrenTerm, if_neg (by omega), hl, hr, ← Nat.add_mul, ← t.nodeWeightAt_internal h, Nat.mul_succ]

/-- A sum over the nodes of a tree, over the leaves and over the internal nodes. -/
theorem sum_nodes (h1 : 1 ≤ n) (f : Nat → Nat) : ((List.range (2 * n - 1)).map f).sum =
    ((List.range n).map f).sum + ((List.range (n - 1)).map fun k => f (n + k)).sum := by
  rw [show 2 * n - 1 = n + (n - 1) by omega, List.range_add, List.map_append, List.sum_append, List.map_map,
    Function.comp_def]

/-- The weighted depths of all nodes, summed over the parents instead: the root has depth 0, and every other node is a
child of one node. -/
theorem sum_weight_mul_depth_eq (t : TreeOk wmem n node) (h1 : 1 ≤ n) (hn : n ≤ 256) {root : NodeIdx}
    (hroot : root.toNat = 2 * n - 2) {depth : Nat → Nat} (hd : IsDepth n node root depth) :
    ((List.range (2 * n - 1)).map fun j => nodeWeightAt node j * depth j).sum =
      ((List.range (2 * n - 1)).map (childrenTerm n node depth)).sum := by
  have hwf := Mem.wf_of_dom_range _ _ t.dom
  have hrootZero : depth (2 * n - 2) = 0 := by rw [← hroot]; exact hd.root (by omega)
  calc ((List.range (2 * n - 1)).map fun j => nodeWeightAt node j * depth j).sum
    _ = ((List.range (2 * n - 2)).map fun j => nodeWeightAt node j * depth j).sum := by
      rw [show 2 * n - 1 = (2 * n - 2).succ by omega, List.sum_range_succ, hrootZero, Nat.mul_zero, Nat.add_zero]
    _ = ((childRefs node).map fun c => nodeWeightAt node c.toNat * depth c.toNat).sum := by
      rw [← (t.refs.map fun j => nodeWeightAt node j * depth j).sum_eq, List.map_map, Function.comp_def]
    _ = ((Mem.dom node).map (childrenTerm n node depth)).sum :=
      sum_childRefs node (fun j => nodeWeightAt node j * depth j) (childrenTerm n node depth)
        (fun k i w h => childrenTerm_leaf node depth (t.leaf_inv (Mem.read_of_mem hwf h)).1)
        (fun k l r w h => t.childrenTerm_internal hn hd (Mem.read_of_mem hwf h))
    _ = ((List.range (2 * n - 1)).map (childrenTerm n node depth)).sum := by rw [t.dom]

/-- The weights of the leaves times their depths sum to the weights of the internal nodes. -/
theorem sum_leaf_weight_mul_depth (t : TreeOk wmem n node) (h1 : 1 ≤ n) (hn : n ≤ 256) {root : NodeIdx}
    (hroot : root.toNat = 2 * n - 2) {depth : Nat → Nat} (hd : IsDepth n node root depth) :
    ((List.range n).map fun i => nodeWeightAt node i * depth i).sum =
      ((List.range (n - 1)).map fun k => nodeWeightAt node (n + k)).sum := by
  have leaves : ((List.range n).map (childrenTerm n node depth)).sum = 0 :=
    List.sum_eq_zero fun x hx => by
      obtain ⟨k, hk, rfl⟩ := List.mem_map.mp hx
      exact childrenTerm_leaf node depth (List.mem_range.mp hk)
  have all := t.sum_weight_mul_depth_eq h1 hn hroot hd
  simp only [sum_nodes h1, leaves, childrenTerm_add, List.sum_map_add] at all
  omega

end TreeOk

/-- The weight of a leaf is the weight loaded for its position (41_tree_builder.md R153). -/
theorem EncodingOk.weightAt_eq {l : LoadState} {e : Encoding} (ok : EncodingOk l e) {i : Nat} (hi : i < e.n.toNat) :
    weightAt l i = nodeWeightAt e.node i := by
  obtain ⟨w, hw, hleaf⟩ := ok.tree.leaf i hi
  rw [nodeWeightAt_of_read hleaf, weightAt, hw]
  have := w.isLt
  simp [Of.Node.weight]
  omega

theorem EncodingOk.weighted_length {l : LoadState} {e : Encoding} (ok : EncodingOk l e) :
    ((List.range e.n.toNat).map fun i => weightAt l i * (codewordBits e i).length).sum =
      ((List.range (e.n.toNat - 1)).map fun k => nodeWeightAt e.node (e.n.toNat + k)).sum := by
  obtain ⟨depth, hd⟩ := ok.tree.exists_isDepth ok.n_pos ok.n_le ok.root
  rw [← ok.tree.sum_leaf_weight_mul_depth ok.n_pos ok.n_le ok.root hd]
  congr 1
  refine List.map_congr_left fun i hi => ?_
  have hi : i < e.n.toNat := List.mem_range.mp hi
  have hidx := ok.toNat_idx hi
  obtain ⟨w, hpath, -⟩ := ok.codeword_path hi
  rw [ok.weightAt_eq hi, (hd (BitVec.ofNat 9 i) (by omega)).2 _ hpath, hidx]

/-- Settles O37: a `BUILD` that ends in phase `READY` has committed an Encoding, and of every Encoding the identity
holds. -/
theorem weightedLengthIsTheSumOfInternalWeights : Obligations.WeightedLengthIsTheSumOfInternalWeights := by
  intro s t hi _ h hready
  have ok : EncodingOk t.load t.enc := ((exec_effect h).keeps_inv hi).readyPhase hready
  exact ok.weighted_length

end Sys2Proof.Machine

/-!
What each part of the state depends on: the registers and memories a command leaves as they were (10_state.md R21 to R31),
and the commands that only read (20_memory.md R68).
-/

namespace Sys2Proof.Machine

theorem code_of_isError {st : Status} (h : st.isError = true) : 0x10 ≤ st.code.toNat := of_decide_eq_true h

/-! ## Frames of the effects -/

section Frames

variable {s t : State} {i : Instr}

/-- Only an error and `CLR` write the error record (10_state.md R31). -/
theorem Effect.err_eq (h : Effect s i t) (hclr : i ≠ .clr) {rsp : Response} (hrsp : t.port.response = some rsp)
    (hcode : rsp.st.code.toNat < 0x10) : t.err = s.err := by
  cases h with
  | failed st herr =>
    cases hrsp
    exact absurd (code_of_isError herr) (Nat.not_le.mpr hcode)
  | faulted a hrun =>
    cases hrsp
    exact absurd hcode (by decide)
  | cleared => exact absurd rfl hclr
  | _ => rfl

/-- Only `BUILD` and `CLR` write the phase and the Encoding (10_state.md R22, R23). -/
theorem Effect.phase_enc_eq (h : Effect s i t) (hclr : i ≠ .clr) (hbuild : i ≠ .build) :
    t.phase = s.phase ∧ t.enc = s.enc := by
  cases h with
  | cleared => exact absurd rfl hclr
  | built => exact absurd rfl hbuild
  | _ => exact ⟨rfl, rfl⟩

/-- In phase `READY` only `CLR` writes the loads, the phase and the Encoding (10_state.md R22). -/
theorem Effect.ready_eq (h : Effect s i t) (hclr : i ≠ .clr) (hready : s.phase = .ready) :
    t.phase = .ready ∧ t.load = s.load ∧ t.enc = s.enc := by
  cases h with
  | cleared => exact absurd rfl hclr
  | loadedWeight w hload | loadedSymbol a hload | built e hload =>
    rw [hready] at hload
    cases hload
  | _ => exact ⟨hready, rfl, rfl⟩

/-- The phase goes from `LOAD` to `READY` only at a `BUILD` answered `OK` (10_state.md R22). -/
theorem Effect.build_of_phase (h : Effect s i t) (hload : s.phase = .load) (hready : t.phase = .ready) :
    i = .build ∧ t.port.response = some { st := .ok, data := 0 } := by
  cases h with
  | built => exact ⟨rfl, rfl⟩
  | cleared => cases hready
  | _ => cases hload.symm.trans hready

theorem Effect.wcnt_eq (h : Effect s i t) (hclr : i ≠ .clr) (hldw : ∀ w, i ≠ .ldw w) : t.load.wcnt = s.load.wcnt := by
  cases h with
  | cleared => exact absurd rfl hclr
  | loadedWeight w => exact absurd rfl (hldw w)
  | _ => rfl

theorem Effect.acnt_eq (h : Effect s i t) (hclr : i ≠ .clr) (hlda : ∀ a, i ≠ .lda a) : t.load.acnt = s.load.acnt := by
  cases h with
  | cleared => exact absurd rfl hclr
  | loadedSymbol a => exact absurd rfl (hlda a)
  | _ => rfl

theorem Effect.read_wmem (h : Effect s i t) (hclr : i ≠ .clr) {k : Nat}
    (hk : ¬ ∃ w, i = .ldw w ∧ k = s.load.wcnt.toNat) : Mem.read t.load.wmem k = Mem.read s.load.wmem k := by
  cases h with
  | cleared => exact absurd rfl hclr
  | loadedWeight w => exact Mem.read_write_other _ _ fun he => hk ⟨w, rfl, he⟩
  | _ => rfl

theorem Effect.read_amem (h : Effect s i t) (hclr : i ≠ .clr) {k : Nat}
    (hk : ¬ ∃ a, i = .lda a ∧ k = s.load.acnt.toNat) : Mem.read t.load.amem k = Mem.read s.load.amem k := by
  cases h with
  | cleared => exact absurd rfl hclr
  | loadedSymbol a => exact Mem.read_write_other _ _ fun he => hk ⟨a, rfl, he⟩
  | _ => rfl

/-- Only `EOPEN`, `EPUSH`, `EEND`, `EPULL` and `CLR` write the encoder's context (10_state.md R28). -/
theorem Effect.est_eq (h : Effect s i t) (hclr : i ≠ .clr) (heopen : i ≠ .eopen) (hepush : ∀ a, i ≠ .epush a)
    (heend : i ≠ .eend) (hepull : i ≠ .epull) : t.est = s.est := by
  cases h with
  | cleared => exact absurd rfl hclr
  | faulted a => exact absurd rfl (hepush a)
  | encoded d hturn =>
    cases hturn with
    | opened => exact absurd rfl heopen
    | pushed a => exact absurd rfl (hepush a)
    | ended => exact absurd rfl heend
    | pulled => exact absurd rfl hepull
  | _ => rfl

theorem DecTurn.isDecoder {dst : DecStream} (h : DecTurn s i dst) : IsDecoder i := by
  cases h <;> trivial

/-- Only the decoder's commands and `CLR` write its context (10_state.md R29). -/
theorem Effect.dst_eq (h : Effect s i t) (hclr : i ≠ .clr) (hdec : ¬ IsDecoder i) : t.dst = s.dst := by
  cases h with
  | cleared => exact absurd rfl hclr
  | decoded st d hst hd hturn => exact absurd hturn.isDecoder hdec
  | _ => rfl

/-- A command that only reads ends in an error or an answer, and in no other effect. -/
theorem Effect.of_isReader (h : Effect s i t) (hi : IsReader i) :
    (∃ st, t = s.failed st i) ∨ ∃ st d, t = s.answered st d := by
  cases h with
  | failed st => exact .inl ⟨st, rfl⟩
  | answered st d => exact .inr ⟨st, d, rfl⟩
  | cleared | loadedWeight | loadedSymbol | built | faulted => exact hi.elim
  | encoded d hturn => cases hturn <;> exact hi.elim
  | decoded st d hst hd hturn => cases hturn <;> exact hi.elim

end Frames

/-! ## Status registers -/

/-- Numbers from 8 on select no status register (10_state.md R32). -/
theorem statusRegister_eq_none_iff {s : State} {r : BitVec 4} : statusRegister s Params.hfc r = none ↔ 8 ≤ r.toNat := by
  unfold statusRegister
  split <;> simp_all; omega

theorem exec_stat_of_some {s : State} {r : BitVec 4} {d : Data} (h : statusRegister s Params.hfc r = some d) :
    exec (.stat r) s = .next (okState s d) := execStat_next.mpr (.inl ⟨d, h, rfl⟩)

/-! ## A read repeats its answer -/

/-- A command that only reads, issued again, answers the same: what it reads is not the error record it may have
written (20_memory.md R68). -/
theorem reader_repeats {i : Instr} {s t : State} (hi : IsReader i) (h : exec i s = .next t) :
    ∃ u, exec i t = .next u ∧ u.port.response = t.port.response := by
  cases i with
  | nop =>
    obtain rfl := execNop_next.mp h
    exact ⟨_, execNop_next.mpr rfl, rfl⟩
  | stat r =>
    obtain ⟨d, hd, rfl⟩ | ⟨hnone, rfl⟩ := execStat_next.mp h
    · exact ⟨_, exec_stat_of_some (s := s.answered .ok d) hd, rfl⟩
    · have hr := statusRegister_eq_none_iff.mp hnone
      exact ⟨_, execStat_next.mpr (.inr ⟨statusRegister_eq_none_iff.mpr hr, rfl⟩), rfl⟩
  | enc1 a =>
    obtain ⟨hp, rfl⟩ | ⟨hp, hl, rfl⟩ | ⟨hp, j, w, hl, hw, rfl⟩ := execEnc1_next.mp h
    · exact ⟨_, execEnc1_next.mpr (.inl ⟨hp, rfl⟩), rfl⟩
    · exact ⟨_, execEnc1_next.mpr (.inr (.inl ⟨hp, hl, rfl⟩)), rfl⟩
    · exact ⟨_, execEnc1_next.mpr (.inr (.inr ⟨hp, j, w, hl, hw, rfl⟩)), rfl⟩
  | rdn k =>
    obtain ⟨hp, rfl⟩ | ⟨hp, hk, rfl⟩ | ⟨hp, hk, rec, hrec, rfl⟩ := execRdn_next.mp h
    · exact ⟨_, execRdn_next.mpr (.inl ⟨hp, rfl⟩), rfl⟩
    · exact ⟨_, execRdn_next.mpr (.inr (.inl ⟨hp, hk, rfl⟩)), rfl⟩
    · exact ⟨_, execRdn_next.mpr (.inr (.inr ⟨hp, hk, rec, hrec, rfl⟩)), rfl⟩
  | rdc c =>
    obtain ⟨hp, rfl⟩ | ⟨hp, hc, rfl⟩ | ⟨hp, hc, w, hw, rfl⟩ := execRdc_next.mp h
    · exact ⟨_, execRdc_next.mpr (.inl ⟨hp, rfl⟩), rfl⟩
    · exact ⟨_, execRdc_next.mpr (.inr (.inl ⟨hp, hc, rfl⟩)), rfl⟩
    · exact ⟨_, execRdc_next.mpr (.inr (.inr ⟨hp, hc, w, hw, rfl⟩)), rfl⟩
  | _ => exact hi.elim

/-! ## The obligations -/

/-- Settles O15: the range check of each read fails. -/
theorem outOfRangeReadsAnswerErrRange : Obligations.OutOfRangeReadsAnswerErrRange :=
  ⟨fun _ _ hr => execStat_next.mpr (.inr ⟨statusRegister_eq_none_iff.mpr hr, rfl⟩),
    fun _ _ hready hk => execRdn_next.mpr (.inr (.inl ⟨hready, hk, rfl⟩)),
    fun _ _ hready hc => execRdc_next.mpr (.inr (.inl ⟨hready, hc, rfl⟩))⟩

/-- Settles O20: a request that does not decode is answered with an error, and of the effects of a command only an error
and `CLR` write the record. -/
theorem nonErrorsKeepTheErrorRecord : Obligations.NonErrorsKeepTheErrorRecord := by
  intro r s t rsp h hrsp hcode hclr
  cases hd : decode r with
  | error e =>
    rw [command_of_decode_error hd, raise_next] at h
    subst h
    cases hrsp
    exact absurd hcode (by decide)
  | ok i =>
    rw [command_of_decode_ok hd] at h
    exact (exec_effect h).err_eq (by rintro rfl; exact hclr hd) hrsp hcode

/-- Settles O22: only `BUILD` has an effect from phase `LOAD` to `READY`, and only `CLR` one out of `READY`. -/
theorem phaseAndEncodingChangeOnlyByBuildAndClr : Obligations.PhaseAndEncodingChangeOnlyByBuildAndClr := by
  intro i s t h
  exact ⟨(exec_effect h).build_of_phase, fun hready hclr => (exec_effect h).ready_eq hclr hready⟩

/-- Settles O23: register by register, the effects that write it. -/
theorem registersChangeOnlyByTheirCommands : Obligations.RegistersChangeOnlyByTheirCommands := by
  intro i s t h hclr
  have effect := exec_effect h
  refine ⟨effect.wcnt_eq hclr, effect.acnt_eq hclr, fun hbuild => ?_, effect.est_eq hclr, effect.dst_eq hclr,
    fun hcode => ?_⟩
  · obtain ⟨hphase, henc⟩ := effect.phase_enc_eq hclr hbuild
    rw [henc]
    exact ⟨hphase, rfl, rfl, rfl⟩
  · obtain ⟨rsp, hrsp, -⟩ := exec_responds h
    exact effect.err_eq hclr hrsp (hcode rsp hrsp)

/-- Settles O24: memory by memory, the effects that write it. -/
theorem memoryChangesOnlyByItsCommands : Obligations.MemoryChangesOnlyByItsCommands := by
  intro i s t h hclr
  have effect := exec_effect h
  refine ⟨fun _ hk => effect.read_wmem hclr hk, fun _ hk => effect.read_amem hclr hk, fun hbuild k => ?_⟩
  rw [(effect.phase_enc_eq hclr hbuild).2]
  exact ⟨rfl, rfl⟩

/-- Settles O25: a reading command ends in an error or an answer, which keep all but the error record, and from either
state it answers the same again. -/
theorem readsHaveNoSideEffects : Obligations.ReadsHaveNoSideEffects := by
  intro i s t hi h
  have effect := exec_effect h
  have hclr : i ≠ .clr := by
    rintro rfl
    exact hi
  obtain ⟨hload, hphase, henc, hest, hdst⟩ : t.load = s.load ∧ t.phase = s.phase ∧ t.enc = s.enc ∧ t.est = s.est ∧
      t.dst = s.dst := by
    obtain ⟨st, rfl⟩ | ⟨st, d, rfl⟩ := effect.of_isReader hi <;> exact ⟨rfl, rfl, rfl, rfl, rfl⟩
  exact ⟨hload, hphase, henc, hest, hdst, fun _ hrsp hcode => effect.err_eq hclr hrsp hcode, reader_repeats hi h⟩

end Sys2Proof.Machine

/-!
The status registers (10_state.md R32 to R40) as their fields, and the state after reset (R43).
-/

namespace Sys2Proof.Machine

/-! ## Fields of a status register -/

/-- Above its own bits a word reads 0. -/
theorem extractLsb'_of_ge {w start len : Nat} (x : BitVec w) (h : w ≤ start) : x.extractLsb' start len = 0 := by
  ext j hj
  simp [BitVec.getLsbD_of_ge x (start + j) (by omega)]

theorem phaseBit_eq (p : Phase) : p.bit = (match p with | .load => 0 | .ready => 1) := by cases p <;> rfl

theorem eStateCode_eq (e : EState) : e.code = (match e with | .closed => 0 | .run => 1 | .fault => 2) := by
  cases e <;> rfl

theorem dStateCode_eq (d : DState) :
    d.code = (match d with | .closed => 0 | .atRoot => 1 | .trav => 2 | .exh => 3) := by
  cases d <;> rfl

theorem ofBool_eq_ite (b : Bool) : BitVec.ofBool b = if b then 1 else 0 := by cases b <;> rfl

section Fields

variable (s : State)

theorem statStatus_fields :
    (statStatus s : Data).extractLsb' 0 1 = s.phase.bit ∧
    (statStatus s : Data).extractLsb' 1 2 = s.est.state.code ∧
    (statStatus s : Data).extractLsb' 3 1 = BitVec.ofBool s.est.eoi ∧
    (statStatus s : Data).extractLsb' 4 2 = s.dst.state.code ∧
    (statStatus s : Data).extractLsb' 6 1 = BitVec.ofBool s.dst.eoi ∧
    (statStatus s : Data).extractLsb' 7 57 = 0 := by
  simp (disch := decide) only [statStatus, BitVec.extractLsb'_setWidth_of_le, BitVec.extractLsb'_append_eq_of_add_le,
    BitVec.extractLsb'_append_eq_of_le, extractLsb'_of_ge, Nat.reduceSub, BitVec.extractLsb'_eq_self, and_self]

theorem statCount_fields :
    (statCount s : Data).extractLsb' 0 9 = s.load.wcnt ∧ (statCount s : Data).extractLsb' 9 7 = 0 ∧
    (statCount s : Data).extractLsb' 16 9 = s.load.acnt ∧ (statCount s : Data).extractLsb' 25 39 = 0 := by
  simp (disch := decide) only [statCount, BitVec.extractLsb'_setWidth_of_le, BitVec.extractLsb'_append_eq_of_add_le,
    BitVec.extractLsb'_append_eq_of_le, extractLsb'_of_ge, Nat.reduceSub, BitVec.extractLsb'_eq_self, and_self]

theorem statTree_fields :
    (statTree s : Data).extractLsb' 0 9 = s.enc.n ∧ (statTree s : Data).extractLsb' 9 7 = 0 ∧
    (statTree s : Data).extractLsb' 16 9 = s.enc.root ∧ (statTree s : Data).extractLsb' 25 7 = 0 ∧
    (statTree s : Data).extractLsb' 32 10 = s.enc.nnodes ∧ (statTree s : Data).extractLsb' 42 22 = 0 := by
  simp (disch := decide) only [statTree, BitVec.extractLsb'_setWidth_of_le, BitVec.extractLsb'_append_eq_of_add_le,
    BitVec.extractLsb'_append_eq_of_le, extractLsb'_of_ge, Nat.reduceSub, BitVec.extractLsb'_eq_self, and_self]

theorem statErr_fields :
    (statErr s : Data).extractLsb' 0 8 = s.err.code ∧ (statErr s : Data).extractLsb' 8 8 = s.err.opc ∧
    (statErr s : Data).extractLsb' 16 32 = s.err.arg ∧ (statErr s : Data).extractLsb' 48 16 = 0 := by
  simp (disch := decide) only [statErr, BitVec.extractLsb'_setWidth_of_le, BitVec.extractLsb'_append_eq_of_add_le,
    BitVec.extractLsb'_append_eq_of_le, extractLsb'_of_ge, Nat.reduceSub, BitVec.extractLsb'_eq_self, and_self]

/-- `ENC` is the packed codeword of the cursor (10_state.md R39). -/
theorem statEnc_fields :
    (statEnc s : Data).extractLsb' 0 57 = s.est.val ∧ (statEnc s : Data).extractLsb' 57 7 = s.est.len :=
  ⟨cwBits_pack s.est.len s.est.val, cwLen_pack s.est.len s.est.val⟩

theorem statDec_fields :
    (statDec s : Data).extractLsb' 0 9 = s.dst.cur ∧ (statDec s : Data).extractLsb' 9 55 = 0 := by
  simp (disch := decide) only [statDec, BitVec.extractLsb'_setWidth_of_le, extractLsb'_of_ge,
    BitVec.extractLsb'_eq_self, and_self]

end Fields

/-- In phase `LOAD` there is no Encoding, and `TREE` reads 0 (10_state.md R23, R37). -/
theorem BlockInv.statTree_eq_zero {s : State} (hi : BlockInv s) (hload : s.phase = .load) : (statTree s : Data) = 0 := by
  rw [statTree, (hi.loadPhase hload).1]
  rfl

/-! ## The obligations -/

/-- Settles O11: the two constants, and the fields of `PARAM` by evaluation. -/
theorem statIdAndParamAreConstant : Obligations.StatIdAndParamAreConstant := by
  intro s
  refine ⟨exec_stat_of_some rfl, 0x0028073920080100, exec_stat_of_some rfl, rfl, ?_⟩
  decide

/-- Settles O12: the fields of `STATUS`, with the numbers of the states. -/
theorem statStatusShowsPhaseAndStreams : Obligations.StatStatusShowsPhaseAndStreams := by
  refine ⟨exec_stat_of_some rfl, fun s => ⟨statStatus s, exec_stat_of_some rfl, ?_⟩⟩
  obtain ⟨hphase, hest, heoi, hdst, hdeoi, hrest⟩ := statStatus_fields s
  exact ⟨hphase.trans (phaseBit_eq _), hest.trans (eStateCode_eq _), heoi.trans (ofBool_eq_ite _),
    hdst.trans (dStateCode_eq _), hdeoi.trans (ofBool_eq_ite _), hrest⟩

/-- Settles O13: the fields of `COUNT` and `TREE`, and the reset Encoding of phase `LOAD`. -/
theorem statCountAndTreeShowTheCounts : Obligations.StatCountAndTreeShowTheCounts := by
  refine ⟨exec_stat_of_some rfl, fun s => ⟨statCount s, statTree s, exec_stat_of_some rfl, exec_stat_of_some rfl, ?_⟩⟩
  obtain ⟨hwcnt, hgap, hacnt, hrest⟩ := statCount_fields s
  obtain ⟨hn, hgap', hroot, hgap'', hnnodes, hrest'⟩ := statTree_fields s
  exact ⟨hwcnt, hgap, hacnt, hrest, hn, hgap', hroot, hgap'', hnnodes, hrest', BlockInv.statTree_eq_zero⟩

/-- Settles O14: the fields of `ERR`, `ENC` and `DEC`. -/
theorem statErrEncDecShowTheCursors : Obligations.StatErrEncDecShowTheCursors := by
  refine ⟨exec_stat_of_some rfl, exec_stat_of_some rfl, exec_stat_of_some rfl, fun s => ⟨statErr s, statEnc s, statDec s,
    exec_stat_of_some rfl, exec_stat_of_some rfl, exec_stat_of_some rfl, ?_⟩⟩
  obtain ⟨hcode, hopc, harg, hrest⟩ := statErr_fields s
  obtain ⟨hval, hlen⟩ := statEnc_fields s
  obtain ⟨hcur, hrest'⟩ := statDec_fields s
  exact ⟨hcode, hopc, harg, hrest, hval, hlen, hcur, hrest'⟩

/-- Settles O8: the reset state field by field, and that a hardware reset and `CLR` differ from it in the port only. -/
theorem resetStateIsAsSpecified : Obligations.ResetStateIsAsSpecified :=
  ⟨rfl, rfl, rfl, rfl, rfl, rfl, rfl, rfl, rfl, fun _ => ⟨rfl, rfl, rfl, rfl⟩, exec_stat_of_some rfl,
    exec_stat_of_some rfl, fun _ => rfl, fun _ => ⟨_, execClr_next.mpr rfl, rfl⟩⟩

end Sys2Proof.Machine

/-!
The two streams (20_memory.md R76, 70_reset_and_hazards.md R303): a command of one neither reads nor writes the context of
the other.
-/

namespace Sys2Proof.Machine

section Streams

variable {s t : State} {i : Instr}

/-! ## What a command of one stream leaves unchanged -/

theorem Effect.of_isEncoder (h : Effect s i t) (hi : IsEncoder i) :
    t.load = s.load ∧ t.phase = s.phase ∧ t.enc = s.enc ∧ t.dst = s.dst := by
  cases h with
  | cleared | loadedWeight | loadedSymbol | built => exact hi.elim
  | decoded st d hst hd hturn => cases hturn <;> exact hi.elim
  | _ => exact ⟨rfl, rfl, rfl, rfl⟩

theorem Effect.of_isDecoder (h : Effect s i t) (hi : IsDecoder i) :
    t.load = s.load ∧ t.phase = s.phase ∧ t.enc = s.enc ∧ t.est = s.est := by
  cases h with
  | cleared | loadedWeight | loadedSymbol | built | faulted => exact hi.elim
  | encoded d hturn => cases hturn <;> exact hi.elim
  | _ => exact ⟨rfl, rfl, rfl, rfl⟩

/-! ## What a command of one stream does not read

From a state with another context of the other stream and another error record, the guards of each branch are the same
propositions, so the command takes the same branch; only an error writes the record. -/

theorem encoder_ignores_decoder (d : DecStream) (e : ErrRecord) (hi : IsEncoder i) (h : exec i s = .next t) :
    ∃ e', exec i { s with dst := d, err := e } = .next { t with dst := d, err := e' } := by
  cases i with
  | enc1 a =>
    obtain ⟨hp, rfl⟩ | ⟨hp, hl, rfl⟩ | ⟨hp, j, w, hl, hw, rfl⟩ := execEnc1_next.mp h
    · exact ⟨_, execEnc1_next.mpr (.inl ⟨hp, rfl⟩)⟩
    · exact ⟨_, execEnc1_next.mpr (.inr (.inl ⟨hp, hl, rfl⟩))⟩
    · exact ⟨e, execEnc1_next.mpr (.inr (.inr ⟨hp, j, w, hl, hw, rfl⟩))⟩
  | eopen =>
    obtain ⟨hp, rfl⟩ | ⟨hp, rfl⟩ := execEopen_next.mp h
    · exact ⟨_, execEopen_next.mpr (.inl ⟨hp, rfl⟩)⟩
    · exact ⟨e, execEopen_next.mpr (.inr ⟨hp, rfl⟩)⟩
  | epush a =>
    obtain ⟨hp, rfl⟩ | ⟨hrun, heoi, hlen, rfl⟩ | ⟨hrun, heoi, hlen, hl, rfl⟩ | ⟨hrun, heoi, hlen, j, w, hl, hw, rfl⟩ :=
      execEpush_next.mp h
    · exact ⟨_, execEpush_next.mpr (.inl ⟨hp, rfl⟩)⟩
    · exact ⟨_, execEpush_next.mpr (.inr (.inl ⟨hrun, heoi, hlen, rfl⟩))⟩
    · exact ⟨_, execEpush_next.mpr (.inr (.inr (.inl ⟨hrun, heoi, hlen, hl, rfl⟩)))⟩
    · exact ⟨e, execEpush_next.mpr (.inr (.inr (.inr ⟨hrun, heoi, hlen, j, w, hl, hw, rfl⟩)))⟩
  | eend =>
    obtain ⟨hp, rfl⟩ | ⟨hrun, heoi, rfl⟩ := execEend_next.mp h
    · exact ⟨_, execEend_next.mpr (.inl ⟨hp, rfl⟩)⟩
    · exact ⟨e, execEend_next.mpr (.inr ⟨hrun, heoi, rfl⟩)⟩
  | epull =>
    obtain ⟨hp, rfl⟩ | ⟨hrun, hlen, rfl⟩ | ⟨hrun, hlen, heoi, rfl⟩ | ⟨hrun, hlen, heoi, rfl⟩ := execEpull_next.mp h
    · exact ⟨_, execEpull_next.mpr (.inl ⟨hp, rfl⟩)⟩
    · exact ⟨e, execEpull_next.mpr (.inr (.inl ⟨hrun, hlen, rfl⟩))⟩
    · exact ⟨e, execEpull_next.mpr (.inr (.inr (.inl ⟨hrun, hlen, heoi, rfl⟩)))⟩
    · exact ⟨e, execEpull_next.mpr (.inr (.inr (.inr ⟨hrun, hlen, heoi, rfl⟩)))⟩
  | _ => exact hi.elim

theorem decoder_ignores_encoder (c : EncStream) (e : ErrRecord) (hi : IsDecoder i) (h : exec i s = .next t) :
    ∃ e', exec i { s with est := c, err := e } = .next { t with est := c, err := e' } := by
  cases i with
  | dopen =>
    obtain ⟨hp, rfl⟩ | ⟨hp, rfl⟩ := execDopen_next.mp h
    · exact ⟨_, execDopen_next.mpr (.inl ⟨hp, rfl⟩)⟩
    · exact ⟨e, execDopen_next.mpr (.inr ⟨hp, rfl⟩)⟩
  | dpush b =>
    obtain ⟨hp, rfl⟩ | ⟨hactive, heoi, rec, hrec, ⟨index, weight, hleaf, rfl⟩ | ⟨left, right, weight, hinternal, rfl⟩⟩ :=
      execDpush_next.mp h
    · exact ⟨_, execDpush_next.mpr (.inl ⟨hp, rfl⟩)⟩
    · exact ⟨_, execDpush_next.mpr (.inr ⟨hactive, heoi, rec, hrec, .inl ⟨index, weight, hleaf, rfl⟩⟩)⟩
    · exact ⟨e, execDpush_next.mpr (.inr ⟨hactive, heoi, rec, hrec, .inr ⟨left, right, weight, hinternal, rfl⟩⟩)⟩
  | dend =>
    obtain ⟨hp, rfl⟩ | ⟨hactive, heoi, rfl⟩ := execDend_next.mp h
    · exact ⟨_, execDend_next.mpr (.inl ⟨hp, rfl⟩)⟩
    · exact ⟨e, execDend_next.mpr (.inr ⟨hactive, heoi, rfl⟩)⟩
  | dpull =>
    obtain ⟨hclosed, rfl⟩ | ⟨hexh, rfl⟩ | ⟨hactive, rec, hrec, hcase⟩ := execDpull_next.mp h
    · exact ⟨_, execDpull_next.mpr (.inl ⟨hclosed, rfl⟩)⟩
    · exact ⟨e, execDpull_next.mpr (.inr (.inl ⟨hexh, rfl⟩))⟩
    · refine ⟨e, execDpull_next.mpr (.inr (.inr ⟨hactive, rec, hrec, ?_⟩))⟩
      obtain ⟨index, weight, a, hleaf, ha, rfl⟩ | ⟨left, right, weight, hinternal, ⟨heoi, rfl⟩ | ⟨heoi, rfl⟩⟩ := hcase
      · exact .inl ⟨index, weight, a, hleaf, ha, rfl⟩
      · exact .inr ⟨left, right, weight, hinternal, .inl ⟨heoi, rfl⟩⟩
      · exact .inr ⟨left, right, weight, hinternal, .inr ⟨heoi, rfl⟩⟩
  | _ => exact hi.elim

end Streams

/-! ## The obligation -/

/-- Settles O26: the effects of a stream's command keep all but its own context, and each branch of its rule is the same
from a state that differs in the other stream's context and the error record. -/
theorem streamsDoNotAffectEachOther : Obligations.StreamsDoNotAffectEachOther := by
  constructor
  · intro i s t d e hi h
    obtain ⟨hload, hphase, henc, hdst⟩ := (exec_effect h).of_isEncoder hi
    exact ⟨hload, hphase, henc, hdst, encoder_ignores_decoder d e hi h⟩
  · intro i s t c e hi h
    obtain ⟨hload, hphase, henc, hest⟩ := (exec_effect h).of_isDecoder hi
    exact ⟨hload, hphase, henc, hest, decoder_ignores_encoder c e hi h⟩

end Sys2Proof.Machine

/-!
The encoding rules (30_encoding.md R90, R94 to R98): the decoder and the encoder are inverse to each other, a request is
legal exactly where it matches a row of the opcode table, and steps 1 to 3 of R96 answer their errors.
-/

namespace Sys2Proof

/-! ## Operands and their widening (R97) -/

theorem ushiftRight_eq_zero_iff {w : Nat} (x : BitVec w) (k : Nat) : x >>> k = 0 ↔ x.toNat < 2 ^ k := by
  rw [← BitVec.toNat_inj, BitVec.toNat_ushiftRight, Nat.shiftRight_eq_div_pow, BitVec.ofNat_eq_ofNat, BitVec.toNat_ofNat,
    Nat.zero_mod, Nat.div_eq_zero_iff_lt (Nat.two_pow_pos k)]

/-- A field that fits in `k` bits is the widening of its `k` low bits. -/
theorem setWidth_setWidth_of_fits {arg : Arg} {k : Nat} (h : arg >>> k = 0) : (arg.setWidth k).setWidth 32 = arg := by
  have hlt := (ushiftRight_eq_zero_iff arg k).mp h
  apply BitVec.eq_of_toNat_eq
  rw [BitVec.toNat_setWidth, BitVec.toNat_setWidth, Nat.mod_eq_of_lt hlt, Nat.mod_eq_of_lt arg.isLt]

/-- No bit of an operand above `UW` is set, so an encoded command passes step 2 of R96. -/
theorem operand_fits (i : Instr) : i.operand >>> i.mnemonic.operandWidth = 0 := by
  rw [ushiftRight_eq_zero_iff]
  cases i with
  | nop => exact Laws.EncodedWord.nop
  | clr => exact Laws.EncodedWord.clr
  | ldw w => exact Laws.EncodedWord.ldw w
  | lda a => exact Laws.EncodedWord.lda a
  | build => exact Laws.EncodedWord.build
  | stat r => exact Laws.EncodedWord.stat r
  | enc1 a => exact Laws.EncodedWord.enc1 a
  | eopen => exact Laws.EncodedWord.eopen
  | epush a => exact Laws.EncodedWord.epush a
  | eend => exact Laws.EncodedWord.eend
  | epull => exact Laws.EncodedWord.epull
  | dopen => exact Laws.EncodedWord.dopen
  | dpush b => exact Laws.EncodedWord.dpush b
  | dend => exact Laws.EncodedWord.dend
  | dpull => exact Laws.EncodedWord.dpull
  | rdn k => exact Laws.EncodedWord.rdn k
  | rdc c => exact Laws.EncodedWord.rdc c

/-- Truncating a widened operand gives it back. -/
@[simp] theorem withOperand_operand (i : Instr) : i.mnemonic.withOperand i.operand = i := by
  cases i <;> simp [Instr.mnemonic, Instr.operand, Mnemonic.withOperand]

/-- Widening the operand taken from a field that fits gives the field back. -/
theorem operand_withOperand {m : Mnemonic} {arg : Arg} (h : arg >>> m.operandWidth = 0) :
    (m.withOperand arg).operand = arg := by
  cases m with
  | ldw => rfl
  | lda | stat | enc1 | epush | dpush | rdn | rdc => exact setWidth_setWidth_of_fits h
  | nop | clr | build | eopen | eend | epull | dopen | dend | dpull => exact (BitVec.ushiftRight_zero arg ▸ h).symm

/-! ## Rows of the opcode table (R98) -/

theorem Mnemonic.opc_injective : Function.Injective Mnemonic.opc := fun m m' h =>
  Option.some.inj <| ((ofOpc_eq_some_iff m.opc m).mpr rfl).symm.trans ((ofOpc_eq_some_iff m.opc m').mpr h)

theorem exists_row (m : Mnemonic) : ∃ row ∈ opcodeTable, row.mnemonic = m := by
  cases m <;> decide

/-- The table has one row per command. -/
theorem row_eq_of_mnemonic_eq {row row' : TableRow} (h : row ∈ opcodeTable) (h' : row' ∈ opcodeTable)
    (heq : row.mnemonic = row'.mnemonic) : row = row' :=
  List.inj_on_of_nodup_map (f := TableRow.mnemonic) (by decide) h h' heq

/-- `TableRow.hits_iff` for a match written out as R98 writes it. -/
theorem and_mask_eq_pattern_iff {row : TableRow} (h : row ∈ opcodeTable) (r : Request) :
    r &&& row.mask = row.pattern ↔ r.opc = row.mnemonic.opc ∧ r.arg >>> row.mnemonic.operandWidth = 0 := by
  rw [← row.hits_iff h r, TableRow.hits, beq_iff_eq]

theorem decode_error_iff_no_row (r : Request) :
    (∃ e, decode r = .error e) ↔ ∀ row ∈ opcodeTable, r &&& row.mask ≠ row.pattern := by
  rw [decode_error_iff, not_exists]
  constructor
  · intro h row hrow hmatch
    exact h row.mnemonic ((and_mask_eq_pattern_iff hrow r).mp hmatch)
  · rintro h m hm
    obtain ⟨row, hrow, rfl⟩ := exists_row m
    exact h row hrow ((and_mask_eq_pattern_iff hrow r).mpr hm)

/-! ## Decoding and encoding are inverse (R94, R97) -/

theorem decode_encode (i : Instr) : decode (encode i) = .ok i := by
  rw [decode_eq_ok_iff]
  exact ⟨i.mnemonic, opc_encode i, by rw [arg_encode]; exact operand_fits i, by rw [arg_encode, withOperand_operand]⟩

theorem encode_of_decode_ok {r : Request} {i : Instr} (h : decode r = .ok i) : encode i = r := by
  obtain ⟨m, hopc, hfits, rfl⟩ := (decode_eq_ok_iff r i).mp h
  rw [encode, mnemonic_withOperand, operand_withOperand hfits, ← hopc, Request.make_opc_arg]

end Sys2Proof

namespace Sys2Proof.Machine

/-! ## The permission check (R96 step 3) -/

/-- Every command is its own rule behind step 3, with its operand widened as in its request word. -/
theorem exec_eq_guarded (i : Instr) (s : State) : ∃ body, exec i s = guarded i.mnemonic i.operand s body := by
  cases i <;> exact ⟨_, rfl⟩

theorem permitted_iff_step3Holds (i : Instr) (s : State) : permitted i.mnemonic s = true ↔ Step3Holds s i := by
  cases i <;> simp [permitted, Instr.mnemonic, Mnemonic.need, Need.met, Step3Holds]

theorem exec_of_not_step3Holds {i : Instr} {s : State} (h : ¬ Step3Holds s i) :
    exec i s = .next (s.failed .errState i) := by
  obtain ⟨body, hexec⟩ := exec_eq_guarded i s
  rw [hexec, guarded_of_not_permitted (Bool.eq_false_iff.mpr (mt (permitted_iff_step3Holds i s).mp h)), fail_next]
  rfl

/-! ## The obligations -/

/-- Settles O2: the fields of an encoded command are its opcode and its operand, which fits. -/
theorem decodeReadsBackEveryCommand : Obligations.DecodeReadsBackEveryCommand := decode_encode

/-- Settles O3: a field that fits `UW` is its operand widened, so the word is made of the command's own two fields. -/
theorem decodedWordIsTheEncoding : Obligations.DecodedWordIsTheEncoding := fun _ _ => encode_of_decode_ok

/-- Settles O4: a match fixes the opcode, the opcode the command, and the command its one row. -/
theorem legalIffExactlyOneRowMatches : Obligations.LegalIffExactlyOneRowMatches := by
  refine fun r => ⟨fun i hdecode => ?_, fun e hdecode => (decode_error_iff_no_row r).mp ⟨e, hdecode⟩⟩
  obtain ⟨m, hopc, hfits, rfl⟩ := (decode_eq_ok_iff r i).mp hdecode
  obtain ⟨row, hrow, rfl⟩ := exists_row m
  refine ⟨row, hrow, (mnemonic_withOperand _ _).symm, (and_mask_eq_pattern_iff hrow r).mpr ⟨hopc, hfits⟩, ?_⟩
  intro row' hrow' hmatch
  obtain ⟨hopc', -⟩ := (and_mask_eq_pattern_iff hrow' r).mp hmatch
  exact row_eq_of_mnemonic_eq hrow' hrow (Mnemonic.opc_injective (hopc'.symm.trans hopc))

/-- Settles O6: a request that matches no row is rejected by the decoder, and the step raises `ERR_ILLEGAL`. -/
theorem illegalRequestAnswersErrIllegal : Obligations.IllegalRequestAnswersErrIllegal := by
  intro s r rest hpending hrows
  obtain ⟨e, hdecode⟩ := (decode_error_iff_no_row r).mpr hrows
  rw [step_of_request hpending, command_of_decode_error hdecode]
  rfl

/-- Settles O18: step 3 fails before the command's own rule, and the record gets the two fields of its request word. -/
theorem notPermittedAnswersErrState : Obligations.NotPermittedAnswersErrState := by
  intro i s h
  have hopc : (encode i).extractLsb' 32 8 = i.mnemonic.opc := opc_encode i
  have harg : (encode i).extractLsb' 0 32 = i.operand := arg_encode i
  rw [exec_of_not_step3Holds h, hopc, harg]
  rfl

/-- Settles O1: the decoder evaluated on the ten words. -/
theorem writtenWordsDecode : Obligations.WrittenWordsDecode := by
  unfold Obligations.WrittenWordsDecode
  decide

end Sys2Proof.Machine

/-!
The Bit Sequence primitive (40_bitseq.md R130 to R142). Each operation is read off two rules: what stands at a place of
`to_list`, and what a shift or a shorter length does to `to_list`.
-/

namespace Sys2Proof.Machine

section BitSequences

variable {w : Nat}

/-! ## The list a Bit Sequence denotes -/

@[simp] theorem BitSeq.length_toList (b : BitSeq w) : b.toList.length = b.len := by simp [BitSeq.toList]

@[simp] theorem BitSeq.getElem_toList (b : BitSeq w) (i : Nat) (h : i < b.toList.length) :
    b.toList[i] = b.value.getLsbD i := by
  simp [BitSeq.toList]

/-- R137: `s[i]` is element `i` of the list. -/
theorem BitSeq.getElem?_toList (b : BitSeq w) (i : Nat) : b.toList[i]? = b.at i := by
  simp [getElem?_def, BitSeq.at]

/-- R135, R138: a right shift drops elements at the front. -/
theorem BitSeq.toList_shift (v : BitVec w) (n i : Nat) :
    (BitSeq.mk (v >>> i) (n - i)).toList = (BitSeq.mk v n).toList.drop i := by
  apply List.ext_getElem <;> simp

/-- R136, R138: a shorter length drops elements at the back. -/
theorem BitSeq.toList_shorten (v : BitVec w) {n k : Nat} (h : k ≤ n) :
    (BitSeq.mk v k).toList = (BitSeq.mk v n).toList.take k := by
  apply List.ext_getElem <;> simp [h]

/-! ## The two ends -/

theorem BitSeq.front_eq_at (b : BitSeq w) : b.front = b.at 0 := rfl

theorem BitSeq.back_eq_at (b : BitSeq w) : b.back = b.at (b.len - 1) := by
  have hlast : 1 ≤ b.len ↔ b.len - 1 < b.len := by omega
  simp only [BitSeq.back, BitSeq.at, hlast]

/-- R133: `front` is the first element. -/
theorem BitSeq.front_eq_head? (b : BitSeq w) : b.front = b.toList.head? := by
  rw [b.front_eq_at, List.head?_eq_getElem?, b.getElem?_toList]

/-- R134: `back` is the last element. -/
theorem BitSeq.back_eq_getLast? (b : BitSeq w) : b.back = b.toList.getLast? := by
  rw [b.back_eq_at, List.getLast?_eq_getElem?, b.getElem?_toList, b.length_toList]

/-! ## Smaller sequences -/

/-- R135: `pop_front` keeps all but the first element. -/
theorem BitSeq.toList_of_popFront {b c : BitSeq w} (h : b.popFront = some c) : c.toList = b.toList.tail := by
  obtain ⟨-, ⟨⟩⟩ := Option.ite_none_right_eq_some.mp h
  rw [BitSeq.toList_shift, List.drop_one]

/-- R136: `pop_back` keeps all but the last element. -/
theorem BitSeq.toList_of_popBack {b c : BitSeq w} (h : b.popBack = some c) : c.toList = b.toList.dropLast := by
  obtain ⟨-, ⟨⟩⟩ := Option.ite_none_right_eq_some.mp h
  rw [BitSeq.toList_shorten b.value (Nat.sub_le b.len 1), List.dropLast_eq_take, b.length_toList]

/-- R138: `slice` keeps the elements from `i` up to `j`. -/
theorem BitSeq.toList_of_slice {b c : BitSeq w} {i j : Nat} (h : b.slice i j = some c) :
    c.toList = (b.toList.drop i).take (j - i) := by
  obtain ⟨⟨-, hj⟩, ⟨⟩⟩ := Option.ite_none_right_eq_some.mp h
  rw [BitSeq.toList_shift, BitSeq.toList_shorten b.value hj, List.drop_take]

/-- R140: the reversed view enumerates the list from the back. -/
theorem BitSeq.toList_reversed (b : BitSeq w) : b.reversed.toList = b.toList.reverse := by
  apply List.ext_getElem <;> simp [BitSeq.reversed, Reversed.toList]

/-! ## From a list -/

/-- R141: bit `i` of the number of a list is element `i` of the list, and 0 past its end. -/
theorem testBit_bitsToNat (bs : List Bool) (i : Nat) : (bitsToNat bs).testBit i = bs.getD i false := by
  induction bs generalizing i with
  | nil => simp [bitsToNat]
  | cons b bs ih =>
    have hbit : bitsToNat (b :: bs) = Nat.bit b (bitsToNat bs) := by rw [Nat.bit_val, bitsToNat, Nat.add_comm]
    cases i with
    | zero => simp [hbit]
    | succ i => rw [hbit, Nat.testBit_bit_succ, ih, List.getD_cons_succ]

/-- R141: the sequence made of a list denotes that list. -/
theorem BitSeq.toList_of_fromList {bs : List Bool} {c : BitSeq w} (h : BitSeq.fromList w bs = some c) :
    c.toList = bs := by
  obtain ⟨hfits, ⟨⟩⟩ := Option.ite_none_right_eq_some.mp h
  refine List.ext_getElem (BitSeq.length_toList _) fun i _ hi => ?_
  have hw : i < w := hi.trans_le hfits
  rw [BitSeq.getElem_toList, BitVec.getLsbD_ofNat, testBit_bitsToNat, List.getD_eq_getElem _ _ hi, decide_eq_true hw,
    Bool.true_and]

/-- R141: a list that fits comes from a sequence, and one made of a sequence's own list is equal to it. -/
theorem BitSeq.exists_fromList_toList (b : BitSeq w) (h : b.len ≤ w) :
    ∃ c, BitSeq.fromList w b.toList = some c ∧ c.sameSeq b = true := by
  have hsome : (BitSeq.fromList w b.toList).isSome := by rwa [BitSeq.fromList, Option.isSome_ite, b.length_toList]
  obtain ⟨c, hc⟩ := Option.isSome_iff_exists.mp hsome
  exact ⟨c, hc, decide_eq_true (BitSeq.toList_of_fromList hc)⟩

end BitSequences

/-! ## The obligations -/

/-- Settles O59: the rules above, operation by operation. -/
theorem bitSequenceOperationsActOnTheList : Obligations.BitSequenceOperationsActOnTheList := fun _ b =>
  ⟨b.length_toList, fun i => (b.getElem?_toList i).symm, b.front_eq_head?, b.back_eq_getLast?,
    fun _ => BitSeq.toList_of_popFront, fun _ => BitSeq.toList_of_popBack, fun _ _ _ => BitSeq.toList_of_slice,
    b.toList_reversed, fun _ _ => BitSeq.toList_of_fromList, b.exists_fromList_toList⟩

/-- Settles O60: each operation asks for its precondition (R142) and for nothing else. -/
theorem bitSequenceOperationsArePartial : Obligations.BitSequenceOperationsArePartial := by
  intro w b v len i j
  refine ⟨?bits, ?front, ?back, ?popFront, ?popBack, ?index, ?slice⟩
  case bits => rw [BitSeq.bits, Option.isSome_ite]
  case front => rw [BitSeq.front, Option.isSome_ite]
  case back => rw [BitSeq.back, Option.isSome_ite]
  case popFront => rw [BitSeq.popFront, Option.isSome_ite]
  case popBack => rw [BitSeq.popBack, Option.isSome_ite]
  case index => rw [BitSeq.at, Option.isSome_ite]
  case slice => rw [BitSeq.slice, Option.isSome_ite]

end Sys2Proof.Machine

/-!
Loading and `BUILD` (41_tree_builder.md R150 to R152), the priority queue (R154), and what the tree depends on (R160).
-/

namespace Sys2Proof.Machine

/-! ## Loading and the checks of `BUILD` (R150 to R152) -/

/-- Settles O27: below `NMAX` weights, the load writes the word `WCNT` and counts it. -/
theorem ldwAppendsAWeight : Obligations.LdwAppendsAWeight := fun _ w hload hlt =>
  ⟨_, execLdw_next.mpr (.inr (.inr ⟨hload, hlt, rfl⟩)), count_add_one hlt, Mem.read_write_same _ _ w,
    fun _ hk => Mem.read_write_other _ w hk⟩

/-- Settles O28: below `NMAX` symbols, the load writes the word `ACNT` and counts it, whatever the other words are. -/
theorem ldaAppendsASymbol : Obligations.LdaAppendsASymbol := fun _ a hload hlt =>
  ⟨_, execLda_next.mpr (.inr (.inr ⟨hload, hlt, rfl⟩)), count_add_one hlt, Mem.read_write_same _ _ a,
    fun _ hk => Mem.read_write_other _ a hk⟩

/-- Settles O29: at `NMAX` items the capacity check turns the load away. -/
theorem fullMemoryAnswersErrCapacity : Obligations.FullMemoryAnswersErrCapacity :=
  ⟨fun _ _ hload hfull => execLdw_next.mpr (.inr (.inl ⟨hload, congrArg BitVec.toNat hfull, rfl⟩)),
    fun _ _ hload hfull => execLda_next.mpr (.inr (.inl ⟨hload, congrArg BitVec.toNat hfull, rfl⟩))⟩

/-- Settles O30: the length check comes first, and two counts of 0 pass it. -/
theorem buildChecksLengthsThenEmptiness : Obligations.BuildChecksLengthsThenEmptiness := fun _ hload =>
  ⟨fun hne => execBuild_next.mpr (.inr (.inl ⟨hload, hne, rfl⟩)),
    fun hw ha => execBuild_next.mpr (.inr (.inr (.inl ⟨hload, hw.trans ha.symm, hw, rfl⟩)))⟩

/-! ## What `BUILD` answers for matching nonempty loads (R152) -/

theorem one_le_toNat_of_ne_zero {c : Count} (h : c ≠ 0) : 1 ≤ c.toNat :=
  Nat.one_le_iff_ne_zero.mpr fun h0 => h (BitVec.eq_of_toNat_eq h0)

theorem exec_build_of_construct_ok {s : State} {e : Encoding} (hload : s.phase = .load)
    (heq : s.load.wcnt = s.load.acnt) (hne : s.load.wcnt ≠ 0)
    (h : construct Params.hfc s.load.wmem s.load.wcnt = .ok e) :
    exec .build s = .next (okState { s with enc := e, phase := .ready } 0) :=
  execBuild_next.mpr (.inr (.inr (.inr (.inr ⟨hload, heq, hne, e, h, rfl⟩))))

/-- Settles O32: `construct` answers an Encoding as R42 says, which is committed, or that the tree is too deep. -/
theorem buildCommitsAnEncodingOrNothing : Obligations.BuildCommitsAnEncodingOrNothing := by
  intro s hi hload heq hne
  obtain ⟨e, he, ok⟩ | ⟨hdeep, -⟩ := construct_spec hi.load heq (one_le_toNat_of_ne_zero hne)
  · exact .inl ⟨e, exec_build_of_construct_ok hload heq hne he, ok⟩
  · exact .inr (execBuild_next.mpr (.inr (.inr (.inr (.inl ⟨hload, heq, hne, hdeep, rfl⟩)))))

/-- Settles O31: 57 edges to an internal node pass 58 internal nodes, and 58 weights make no more than 57, so `construct`
answers an Encoding. -/
theorem buildOfAtMost58WeightsSucceeds : Obligations.BuildOfAtMost58WeightsSucceeds := by
  intro s hi hload heq h1 h58
  have hne : s.load.wcnt ≠ 0 := by
    intro h0
    simp [h0] at h1
  obtain ⟨e, he, ok⟩ := construct_of_small hi.load heq h1 h58
  exact ⟨e, exec_build_of_construct_ok hload heq hne he, ok⟩

/-! ## The priority queue (R154) -/

theorem Key.rank_lt_iff (a b : Key) : a.rank < b.rank ↔
    a.weight.toNat < b.weight.toNat ∨ (a.weight.toNat = b.weight.toNat ∧ a.node.toNat < b.node.toNat) := by
  rw [← Key.before_iff, Of.Key.before, decide_eq_true_iff]

/-- Settles O35: members of different nodes differ in rank, and two queues of the same members have the same member of
least rank. -/
theorem extractMinIsAFunctionOfTheSet : Obligations.ExtractMinIsAFunctionOfTheSet := by
  intro q q' rest k hnodup hperm hk
  obtain ⟨hmem, hrest, hmin⟩ := extractMin_spec hk
  have hkrest : k ∉ rest := (List.nodup_cons.mp (hrest.nodup_iff.mp hnodup.of_map)).1
  refine ⟨hmem, hrest, fun x hx => (Key.rank_lt_iff k x).mp ?_, ?_⟩
  · refine (hmin x (hrest.symm.subset (.tail _ hx))).lt_of_ne fun he => ?_
    exact hkrest (Key.rank_injective he ▸ hx)
  · cases hk' : extractMin q' with
    | none =>
      rw [extractMin_eq_none.mp hk'] at hperm
      rw [hperm.eq_nil] at hmem
      cases hmem
    | some found =>
      obtain ⟨k', rest'⟩ := found
      obtain ⟨hmem', hrest', hmin'⟩ := extractMin_spec hk'
      obtain rfl : k' = k := Key.rank_injective
        (le_antisymm (hmin' k (hperm.subset hmem)) (hmin k' (hperm.symm.subset hmem')))
      exact ⟨rest', rfl, (hrest'.symm.trans (hperm.symm.trans hrest)).cons_inv⟩

/-! ## What the tree depends on (R160) -/

theorem fetch_congr {α : Type} {p : Params} {sp : Space} {m m' : Mem α} {i : Nat} (h : Mem.read m i = Mem.read m' i) :
    fetch p sp m i = fetch p sp m' i := by
  simp only [fetch, h]

theorem createLeaves_congr {p : Params} {m m' : Mem Weight} {n : Nat} (h : ∀ i, i < n → Mem.read m i = Mem.read m' i) :
    (createLeaves p m n : Except Fault Builder) = createLeaves p m' n := by
  induction n with
  | zero => rfl
  | succ n ih => simp only [createLeaves, ih fun i hi => h i (hi.trans n.lt_succ_self), fetch_congr (h n n.lt_succ_self)]

/-- R160: the Encoding is a function of the weights below the count and of the count. -/
theorem construct_congr {m m' : Mem Weight} {n : Count} (h : ∀ i, i < n.toNat → Mem.read m i = Mem.read m' i) :
    construct Params.hfc m n = construct Params.hfc m' n := by
  have leaves : (createLeaves Params.hfc m n.toNat : Except Fault Builder) = createLeaves Params.hfc m' n.toNat :=
    createLeaves_congr h
  simp only [construct, Of.construct, buildTree, leaves]

/-- With the same counts and the same answer of `construct`, `BUILD` takes the same branch. -/
theorem exec_build_congr {s₁ s₂ t₁ : State} (hload₁ : s₁.phase = .load) (hload₂ : s₂.phase = .load)
    (hw : s₁.load.wcnt = s₂.load.wcnt) (ha : s₁.load.acnt = s₂.load.acnt)
    (hc : construct Params.hfc s₁.load.wmem s₁.load.wcnt = construct Params.hfc s₂.load.wmem s₂.load.wcnt)
    (h : exec .build s₁ = .next t₁) : ∃ t₂, exec .build s₂ = .next t₂ ∧ t₁.port.response = t₂.port.response ∧
      t₁.phase = t₂.phase ∧ (t₁.phase = .ready → t₁.enc = t₂.enc) := by
  have failing (st : Status) : (s₁.failed st .build).phase = (s₂.failed st .build).phase ∧
      ((s₁.failed st .build).phase = .ready → (s₁.failed st .build).enc = (s₂.failed st .build).enc) :=
    ⟨hload₁.trans hload₂.symm, fun hready => by cases hload₁.symm.trans hready⟩
  obtain ⟨hp, -⟩ | ⟨-, hne, rfl⟩ | ⟨-, heq, h0, rfl⟩ | ⟨-, heq, hne, hdeep, rfl⟩ | ⟨-, heq, hne, e, he, rfl⟩ :=
    execBuild_next.mp h
  · exact absurd hload₁ hp
  · exact ⟨_, execBuild_next.mpr (.inr (.inl ⟨hload₂, hw ▸ ha ▸ hne, rfl⟩)), rfl, failing _⟩
  · exact ⟨_, execBuild_next.mpr (.inr (.inr (.inl ⟨hload₂, hw ▸ ha ▸ heq, hw ▸ h0, rfl⟩))), rfl, failing _⟩
  · exact ⟨_, execBuild_next.mpr (.inr (.inr (.inr (.inl ⟨hload₂, hw ▸ ha ▸ heq, hw ▸ hne, hc ▸ hdeep, rfl⟩)))), rfl,
      failing _⟩
  · exact ⟨_, exec_build_of_construct_ok hload₂ (hw ▸ ha ▸ heq) (hw ▸ hne) (hc ▸ he), rfl, rfl, fun _ => rfl⟩

/-- Settles O34: the same counts and weights lead to the same branch of `BUILD` and to the same Encoding. -/
theorem buildDependsOnWeightsAndCountsOnly : Obligations.BuildDependsOnWeightsAndCountsOnly := by
  intro s₁ s₂ t₁ t₂ hload₁ hload₂ hw ha hread h₁ h₂
  have hc : construct Params.hfc s₁.load.wmem s₁.load.wcnt = construct Params.hfc s₂.load.wmem s₂.load.wcnt := by
    rw [construct_congr hread, hw]
  obtain ⟨t, ht, same⟩ := exec_build_congr hload₁ hload₂ hw ha hc h₁
  cases h₂.symm.trans ht
  exact same

end Sys2Proof.Machine

/-!
The weights of the tree (41_tree_builder.md R155, R158, R159): what one merge does to the weights of the queue and of the
records, an induction over the merge loop, and the two facts it gives: the sums never fall, and no code in which no
codeword begins another has a smaller weighted length.
-/

namespace Sys2Proof.Machine

/-! ## One merge (R155) -/

/-- The weights of the queue's members. -/
def Of.Builder.weights (b : Of.Builder 8 9 40) : List Nat := b.queue.map fun k => k.weight.toNat

/-- From `b` to `b'` the two lightest members of the queue, of weights `w₁` and `w₂`, give way to a new node of the weight
of both, and the records of the older nodes stay. -/
structure Merged (b b' : Builder) (w₁ w₂ : Nat) (rest : List Nat) : Prop where
  perm : b.weights.Perm (w₁ :: w₂ :: rest)
  first_le : w₁ ≤ w₂
  second_le : ∀ w ∈ rest, w₂ ≤ w
  next_eq : b'.next = b.next + 1
  weights_eq : b'.weights = (w₁ + w₂) :: rest
  new : nodeWeightAt b'.node b.next = w₁ + w₂
  old : ∀ k, k < b.next → nodeWeightAt b'.node k = nodeWeightAt b.node k

theorem Key.weight_le_of_rank_le {a b : Key} (h : a.rank ≤ b.rank) : a.weight.toNat ≤ b.weight.toNat := by
  have := a.node.isLt
  have := b.node.isLt
  simp only [Of.Key.rank] at h
  omega

/-- The members of a queue together weigh less than `2 ^ 40`, so no sum of two of them overflows. -/
theorem BuilderOk.toNat_add {wmem : Mem Weight} {n : Nat} {b : Builder} (ok : BuilderOk wmem n b) (hn : n ≤ 256)
    {k₁ k₂ : Key} {rest : List Key} (h : b.queue.Perm (k₁ :: k₂ :: rest)) :
    (k₁.weight + k₂.weight).toNat = k₁.weight.toNat + k₂.weight.toNat := by
  have hsum := ok.sum
  rw [(h.map _).sum_eq] at hsum
  simp only [List.map_cons, List.sum_cons] at hsum
  rw [BitVec.toNat_add, Nat.mod_eq_of_lt (by omega)]

theorem mergeStep_eq_some {b b' : Builder} (h : mergeStep b = some b') : ∃ first q₁ second q₂,
    extractMin b.queue = some (first, q₁) ∧ extractMin q₁ = some (second, q₂) ∧
    b' = Of.Builder.add { b with queue := q₂ } (.internal first.node second.node (first.weight + second.weight)) := by
  unfold mergeStep at h
  split at h
  · cases h
  · next first q₁ h₁ =>
    split at h
    · cases h
    · next second q₂ h₂ => exact ⟨first, q₁, second, q₂, h₁, h₂, (Option.some.inj h).symm⟩

/-- A turn of the merge loop merges the two lightest members. -/
theorem mergeStep_merged {wmem : Mem Weight} {n : Nat} (hn : n ≤ 256) {b b' : Builder} (ok : BuilderOk wmem n b)
    (h : mergeStep b = some b') : ∃ w₁ w₂ rest, Merged b b' w₁ w₂ rest := by
  obtain ⟨first, q₁, second, q₂, h₁, h₂, rfl⟩ := mergeStep_eq_some h
  obtain ⟨-, hp₁, hmin₁⟩ := extractMin_spec h₁
  obtain ⟨hmem₂, hp₂, hmin₂⟩ := extractMin_spec h₂
  have hperm : b.queue.Perm (first :: second :: q₂) := hp₁.trans (hp₂.cons first)
  have hsum := ok.toNat_add hn hperm
  refine ⟨_, _, _, hperm.map _, ?_, ?_, rfl, congrArg (· :: _) hsum, ?_, fun k hk => ?_⟩
  · exact Key.weight_le_of_rank_le (hmin₁ _ (hp₁.symm.subset (.tail _ hmem₂)))
  · rintro w hw
    obtain ⟨x, hx, rfl⟩ := List.mem_map.mp hw
    exact Key.weight_le_of_rank_le (hmin₂ _ (hp₂.symm.subset (.tail _ hx)))
  · rw [nodeWeightAt_of_read (read_add_new { b with queue := q₂ } _)]
    exact hsum
  · rw [nodeWeightAt, read_add_old (b := { b with queue := q₂ }) _ hk, nodeWeightAt]

/-! ## Induction over the merge loop -/

theorem mergeStep_keeps_ok {wmem : Mem Weight} {n : Nat} (hn : n ≤ 256) {b b' : Builder} (ok : BuilderOk wmem n b)
    (h : mergeStep b = some b') : BuilderOk wmem n b' := by
  have hq : 2 ≤ b.queue.length := by
    by_contra hlt
    rw [mergeStep_single (by omega)] at h
    cases h
  obtain ⟨found, hfound, -, ok'⟩ := mergeStep_spec hn ok hq
  cases h.symm.trans hfound
  exact ok'

section Induction

variable {wmem : Mem Weight} {n : Nat} {P : Builder → Prop}
variable (merge : ∀ b b' w₁ w₂ rest, BuilderOk wmem n b → Merged b b' w₁ w₂ rest → P b → P b')
include merge

theorem mergeLoop_induction (hn : n ≤ 256) (turns : Nat) {b : Builder} (ok : BuilderOk wmem n b) (hb : P b) :
    P (mergeLoop turns b) := by
  induction turns generalizing b with
  | zero => exact hb
  | succ turns ih =>
    unfold mergeLoop
    split
    · exact hb
    · next b' hstep =>
      obtain ⟨w₁, w₂, rest, hm⟩ := mergeStep_merged hn ok hstep
      exact ih (mergeStep_keeps_ok hn ok hstep) (merge b b' w₁ w₂ rest ok hm hb)

/-- What holds of the leaves and is kept by every merge holds of the tree. -/
theorem buildTree_induction (hn : n ≤ 256) (hw : ∀ i, i < n → ∃ w, Mem.read wmem i = some w)
    (leaves : ∀ b, BuilderOk wmem n b → b.next = n → P b) {b : Builder} (h : buildTree Params.hfc wmem n = .ok b) :
    P b := by
  obtain ⟨b₀, hb₀, hnext, ok⟩ := createLeaves_spec hn hw
  simp only [buildTree, hb₀, Except.ok.injEq] at h
  subst h
  exact mergeLoop_induction merge hn n ok (leaves b₀ ok hnext)

end Induction

/-! ## The builder behind an Encoding -/

theorem LoadOk.weight_read {l : LoadState} (ok : LoadOk l) {i : Nat} (hi : i < l.wcnt.toNat) :
    ∃ w, Mem.read l.wmem i = some w := (Mem.mem_dom_iff _ _).mp (by simp [ok.wmem_dom, hi])

/-- A `BUILD` from phase `LOAD` that ends in phase `READY` has committed what `construct` answers. -/
theorem exec_build_ready {s t : State} (hload : s.phase = .load) (h : exec .build s = .next t)
    (hready : t.phase = .ready) :
    t.load = s.load ∧ s.load.wcnt ≠ 0 ∧ construct Params.hfc s.load.wmem s.load.wcnt = .ok t.enc := by
  have stays (st : Status) : (s.failed st .build).phase ≠ .ready := by simp [hload]
  obtain ⟨-, rfl⟩ | ⟨-, -, rfl⟩ | ⟨-, -, -, rfl⟩ | ⟨-, -, -, -, rfl⟩ | ⟨-, -, hne, e, he, rfl⟩ := execBuild_next.mp h
  · exact absurd hready (stays _)
  · exact absurd hready (stays _)
  · exact absurd hready (stays _)
  · exact absurd hready (stays _)
  · exact ⟨rfl, hne, he⟩

/-- What holds of the leaves and is kept by every merge holds of a builder whose records are those of the Encoding. -/
theorem exec_build_induction {s t : State} (hi : BlockInv s) (hload : s.phase = .load) (h : exec .build s = .next t)
    (hready : t.phase = .ready) {P : Builder → Prop}
    (leaves : ∀ b, BuilderOk t.load.wmem t.enc.n.toNat b → b.next = t.enc.n.toNat → P b)
    (merge : ∀ b b' w₁ w₂ rest, BuilderOk t.load.wmem t.enc.n.toNat b → Merged b b' w₁ w₂ rest → P b → P b') :
    ∃ b, P b ∧ b.node = t.enc.node ∧ b.next = 2 * t.enc.n.toNat - 1 := by
  obtain ⟨hloadEq, hne, hc⟩ := exec_build_ready hload h hready
  obtain ⟨b, root, hb, -, hnext, -, heq⟩ := construct_eq hi.load (one_le_toNat_of_ne_zero hne)
  obtain ⟨hn, hnode⟩ : t.enc.n = s.load.wcnt ∧ t.enc.node = b.node := by
    rw [hc] at heq
    split at heq
    · cases heq
    · rw [Except.ok.inj heq]
      exact ⟨rfl, rfl⟩
  rw [hloadEq, hn] at leaves merge
  refine ⟨b, buildTree_induction merge hi.load.wcnt_le (fun _ => hi.load.weight_read) leaves hb, hnode.symm, ?_⟩
  rw [hn, hnext]

/-! ## The sums never fall (R158) -/

/-- The weights of the internal nodes rise along their order of creation, and the last is at most twice the weight of any
member of the queue, so at most the sum of any two. -/
structure SumsRise (n : Nat) (b : Builder) : Prop where
  rise : ∀ k, n ≤ k → k + 1 < b.next → nodeWeightAt b.node k ≤ nodeWeightAt b.node (k + 1)
  last : ∀ k, n ≤ k → k + 1 = b.next → ∀ w ∈ b.weights, nodeWeightAt b.node k ≤ 2 * w

theorem SumsRise.of_leaves {n : Nat} {b : Builder} (hnext : b.next = n) : SumsRise n b :=
  ⟨fun k _ _ => by omega, fun k _ _ => by omega⟩

theorem SumsRise.merge {n : Nat} {b b' : Builder} {w₁ w₂ : Nat} {rest : List Nat} (hm : Merged b b' w₁ w₂ rest)
    (h : SumsRise n b) : SumsRise n b' := by
  have hle := hm.first_le
  constructor
  · intro k hk hlt
    rw [hm.next_eq] at hlt
    rw [hm.old k (by omega)]
    obtain hlt | hlast := Nat.lt_or_eq_of_le (Nat.le_of_lt_succ hlt)
    · rw [hm.old (k + 1) hlt]
      exact h.rise k hk hlt
    · have h₁ := h.last k hk hlast w₁ (hm.perm.symm.subset (by simp))
      rw [hlast, hm.new]
      omega
  · intro k hk hlast w hw
    obtain rfl : k = b.next := by rw [hm.next_eq] at hlast; omega
    rw [hm.new]
    rw [hm.weights_eq] at hw
    obtain rfl | hw := List.mem_cons.mp hw
    · omega
    · have := hm.second_le w hw
      omega

/-- Settles O36: the last sum is at most twice any weight left in the queue, hence at most the next sum. -/
theorem internalWeightsNeverFall : Obligations.InternalWeightsNeverFall := by
  intro s t hi hload h hready k hk hlt
  obtain ⟨b, hb, hnode, hnext⟩ := exec_build_induction hi hload h hready (P := SumsRise t.enc.n.toNat)
    (fun _ _ => .of_leaves) (fun _ _ _ _ _ _ => .merge)
  rw [← hnode]
  exact hb.rise k hk (hnext ▸ hlt)

/-! ## Lengths of codewords of which none begins another -/

/-- The Kraft inequality for a family of codeword lengths. -/
def Kraft (ls : Multiset Nat) : Prop := (ls.map fun l => (1 / 2 : ℝ) ^ l).sum ≤ 1

theorem exists_max_cons {ls : Multiset Nat} (h : ls ≠ 0) : ∃ l ls', ls = l ::ₘ ls' ∧ ∀ k ∈ ls', k ≤ l := by
  obtain ⟨l, hl, hmax⟩ := Multiset.exists_max_image id h
  obtain ⟨ls', rfl⟩ := Multiset.exists_cons_of_mem hl
  exact ⟨l, ls', rfl, fun k hk => hmax k (Multiset.mem_cons_of_mem hk)⟩

/-- Over the denominator `2 ^ m`, where no length is above `m`, the Kraft sum has a whole numerator. -/
theorem kraft_sum_mul_two_pow {ls : Multiset Nat} {m : Nat} (hmax : ∀ l ∈ ls, l ≤ m) :
    (ls.map fun l => (1 / 2 : ℝ) ^ l).sum * 2 ^ m = ((ls.map fun l => 2 ^ (m - l)).sum : ℕ) := by
  rw [← Multiset.sum_map_mul_right, Nat.cast_multiset_sum, Multiset.map_map]
  refine congrArg Multiset.sum (Multiset.map_congr rfl fun l hl => ?_)
  have hm : (2 : ℝ) ^ m = 2 ^ l * 2 ^ (m - l) := by rw [← pow_add, Nat.add_sub_of_le (hmax l hl)]
  rw [hm, ← mul_assoc, ← mul_pow]
  simp

/-- Two greatest lengths may give way to one that is shorter by one than the smaller of them: without the greatest, the
Kraft sum is less than 1, and so by at least one unit of the next. -/
theorem Kraft.merge {l₁ l₂ : Nat} {ls : Multiset Nat} (h : Kraft (l₁ ::ₘ l₂ ::ₘ ls)) (hmax : ∀ l ∈ ls, l ≤ l₂) :
    ∃ l, l₂ = l + 1 ∧ Kraft (l ::ₘ ls) := by
  have hnum := kraft_sum_mul_two_pow hmax
  have hpos : (0 : ℝ) < (1 / 2) ^ l₁ := by positivity
  have hunit : (1 / 2 : ℝ) ^ l₂ * 2 ^ l₂ = 1 := by rw [← mul_pow]; norm_num
  simp only [Kraft, Multiset.map_cons, Multiset.sum_cons] at h ⊢
  generalize (ls.map fun l => (1 / 2 : ℝ) ^ l).sum = total at *
  generalize (ls.map fun l => 2 ^ (l₂ - l)).sum = num at *
  have hlt : 1 + num < 2 ^ l₂ := by
    have : ((1 / 2 : ℝ) ^ l₂ + total) * 2 ^ l₂ < 1 * 2 ^ l₂ := by
      apply mul_lt_mul_of_pos_right _ (by positivity)
      linarith
    rw [add_mul, hunit, hnum, one_mul] at this
    exact_mod_cast this
  cases l₂ with
  | zero => simp at hlt
  | succ l =>
    refine ⟨l, rfl, ?_⟩
    have hle : (2 : ℝ) + num ≤ 2 ^ (l + 1) := by exact_mod_cast (by omega : 2 + num ≤ 2 ^ (l + 1))
    refine le_of_mul_le_mul_right ?_ (by positivity : (0 : ℝ) < 2 ^ (l + 1))
    have htwo : (1 / 2 : ℝ) ^ l * 2 ^ (l + 1) = 2 := by rw [pow_succ, ← mul_assoc, ← mul_pow]; norm_num
    rw [add_mul, hnum, htwo, one_mul]
    exact hle

theorem uniquelyDecodable_of_prefixFree {S : Set (List Bool)} (hne : [] ∉ S)
    (hfree : ∀ u ∈ S, ∀ v ∈ S, u <+: v → u = v) : InformationTheory.UniquelyDecodable S := by
  intro us
  induction us with
  | nil =>
    rintro (_ | ⟨v, vs⟩) - hvs heq
    · rfl
    · have hv : v = [] := by simp_all
      exact absurd (hv ▸ hvs v (.head _)) hne
  | cons u us ih =>
    rintro (_ | ⟨v, vs⟩) hus hvs heq
    · have hu : u = [] := by simp_all
      exact absurd (hu ▸ hus u (.head _)) hne
    · rw [List.flatten_cons, List.flatten_cons] at heq
      have huv : u = v := by
        obtain h | h := List.prefix_or_prefix_of_prefix (List.prefix_append u us.flatten) (heq ▸ List.prefix_append v _)
        · exact hfree u (hus u (.head _)) v (hvs v (.head _)) h
        · exact (hfree v (hvs v (.head _)) u (hus u (.head _)) h).symm
      subst huv
      rw [ih vs (fun w hw => hus w (.tail _ hw)) (fun w hw => hvs w (.tail _ hw)) (List.append_cancel_left heq)]

/-- Bit strings for the positions below `n`, of which none begins another, meet the Kraft inequality. -/
theorem kraft_of_prefixFree {n : Nat} {code : Nat → List Bool}
    (hfree : ∀ i j, i < n → j < n → i ≠ j → ¬ code i <+: code j) :
    Kraft ((Multiset.range n).map fun i => (code i).length) := by
  by_cases hempty : ∃ i, i < n ∧ code i = []
  · obtain ⟨i, hi, hcode⟩ := hempty
    have hone : ∀ j, j < n → i = j := fun j hj => by_contra fun hne => hfree i j hi hj hne (hcode ▸ List.nil_prefix)
    obtain rfl : i = 0 := hone 0 (by omega)
    obtain rfl : n = 1 := by
      by_contra hn
      exact absurd (hone 1 (by omega)) (by decide)
    simp [Kraft, hcode]
  · have hinj : Set.InjOn code (Finset.range n) := by
      intro i hi j hj hij
      by_contra hne
      exact hfree i j (by simpa using hi) (by simpa using hj) hne (hij ▸ List.prefix_refl _)
    have hud : InformationTheory.UniquelyDecodable (((Finset.range n).image code : Finset (List Bool)) : Set (List Bool)) := by
      refine uniquelyDecodable_of_prefixFree (by simpa using hempty) ?_
      simp only [Finset.coe_image, Set.forall_mem_image, Finset.coe_range, Set.mem_Iio]
      intro i hi j hj hpre
      by_contra hne
      exact hfree i j hi hj (fun h => hne (h ▸ rfl)) hpre
    have hkraft := InformationTheory.kraft_mcmillan_inequality hud
    rw [Finset.sum_image hinj] at hkraft
    simpa [Kraft, Multiset.map_map, Function.comp_def, Finset.sum] using hkraft

/-! ## Giving lengths to weights -/

/-- The weights `ws` can be given the lengths `ls`, one each, with the weighted length `cost`. -/
def Assigned (ws ls : Multiset Nat) (cost : Nat) : Prop :=
  ∃ m : Multiset (Nat × Nat), m.map Prod.fst = ws ∧ m.map Prod.snd = ls ∧ (m.map fun p => p.1 * p.2).sum = cost

theorem exists_cons_of_map_eq_cons {α : Type} {f : α → Nat} {m : Multiset α} {x : Nat} {xs : Multiset Nat}
    (h : m.map f = x ::ₘ xs) : ∃ a m', m = a ::ₘ m' ∧ f a = x ∧ m'.map f = xs := by
  obtain ⟨a, ha, hx⟩ := Multiset.mem_map.mp (h ▸ Multiset.mem_cons_self x xs)
  obtain ⟨m', rfl⟩ := Multiset.exists_cons_of_mem ha
  rw [Multiset.map_cons, hx] at h
  exact ⟨a, m', rfl, hx, (Multiset.cons_inj_right x).mp h⟩

theorem Assigned.cons {ws ls : Multiset Nat} {cost : Nat} (h : Assigned ws ls cost) (w l : Nat) :
    Assigned (w ::ₘ ws) (l ::ₘ ls) (w * l + cost) := by
  obtain ⟨m, rfl, rfl, rfl⟩ := h
  exact ⟨(w, l) ::ₘ m, by simp, by simp, by simp⟩

/-- The exchange argument: the least weight may be given the greatest length. -/
theorem Assigned.exchange {ws ls : Multiset Nat} {w l cost : Nat} (h : Assigned (w ::ₘ ws) (l ::ₘ ls) cost)
    (hw : ∀ v ∈ ws, w ≤ v) (hl : ∀ k ∈ ls, k ≤ l) : ∃ cost', Assigned ws ls cost' ∧ w * l + cost' ≤ cost := by
  obtain ⟨m, hfst, hsnd, rfl⟩ := h
  obtain ⟨⟨v, k⟩, m₁, rfl, rfl, hfst₁⟩ := exists_cons_of_map_eq_cons hfst
  rw [Multiset.map_cons, Multiset.cons_eq_cons] at hsnd
  obtain ⟨rfl, hsnd₁⟩ | ⟨-, ks, hsnd₁, rfl⟩ := hsnd
  · exact ⟨_, ⟨m₁, hfst₁, hsnd₁, rfl⟩, by simp⟩
  · obtain ⟨⟨v', l'⟩, m₂, rfl, rfl, hsnd₂⟩ := exists_cons_of_map_eq_cons hsnd₁
    refine ⟨_, ⟨(v', k) ::ₘ m₂, by simpa using hfst₁, by simp [hsnd₂], rfl⟩, ?_⟩
    have hv : v ≤ v' := hw v' (by simp [← hfst₁])
    have hk : k ≤ l' := hl k (by simp)
    have := mul_add_mul_le_mul_add_mul hv hk
    simp only [Multiset.map_cons, Multiset.sum_cons]
    omega

/-- Merging the two least weights: what is left can be given lengths that meet the Kraft inequality too, at a cost that is
less by the weight of both. -/
theorem Assigned.merge {ws ls : Multiset Nat} {w₁ w₂ cost : Nat}
    (h : Assigned (w₁ ::ₘ w₂ ::ₘ ws) ls cost) (hkraft : Kraft ls) (hle : w₁ ≤ w₂) (hmin : ∀ w ∈ ws, w₂ ≤ w) :
    ∃ ls' cost', Kraft ls' ∧ Assigned ((w₁ + w₂) ::ₘ ws) ls' cost' ∧ w₁ + w₂ + cost' ≤ cost := by
  have hcard : ls.card = ws.card + 2 := by
    obtain ⟨m, hfst, rfl, -⟩ := h
    rw [Multiset.card_map, ← Multiset.card_map Prod.fst m, hfst]
    simp
  obtain ⟨l₁, ls₁, rfl, hmax₁⟩ := exists_max_cons (ls := ls) (by rintro rfl; simp at hcard)
  obtain ⟨l₂, ls₂, rfl, hmax₂⟩ := exists_max_cons (ls := ls₁) (by rintro rfl; simp at hcard)
  have hmin₁ : ∀ w ∈ w₂ ::ₘ ws, w₁ ≤ w := by
    simpa using ⟨hle, fun w hw => hle.trans (hmin w hw)⟩
  obtain ⟨cost₁, h₁, hcost₁⟩ := h.exchange hmin₁ hmax₁
  obtain ⟨cost₂, h₂, hcost₂⟩ := h₁.exchange hmin hmax₂
  obtain ⟨l, rfl, hkraft'⟩ := hkraft.merge hmax₂
  refine ⟨l ::ₘ ls₂, _, hkraft', h₂.cons (w₁ + w₂) l, ?_⟩
  have hlong : w₁ * (l + 1) ≤ w₁ * l₁ := Nat.mul_le_mul_left _ (hmax₁ _ (by simp))
  linarith [Nat.mul_succ w₁ l, Nat.mul_succ w₂ l, Nat.add_mul w₁ w₂ l]

/-! ## The code is optimal (R159) -/

/-- The weights of the internal nodes there are, summed. -/
def internalSum (n : Nat) (b : Builder) : Nat :=
  ((List.range (b.next - n)).map fun k => nodeWeightAt b.node (n + k)).sum

/-- The sums made so far, and some codeword lengths for the weights in the queue, cost at most `cost` together. -/
def CostWithin (cost n : Nat) (b : Builder) : Prop :=
  ∃ ls c, Kraft ls ∧ Assigned b.weights ls c ∧ internalSum n b + c ≤ cost

theorem internalSum_merge {n : Nat} {b b' : Builder} {w₁ w₂ : Nat} {rest : List Nat} (hn : n ≤ b.next)
    (hm : Merged b b' w₁ w₂ rest) : internalSum n b' = internalSum n b + (w₁ + w₂) := by
  rw [internalSum, hm.next_eq, Nat.succ_sub hn, List.sum_range_succ, Nat.add_sub_of_le hn, hm.new, internalSum]
  congr 2
  refine List.map_congr_left fun k hk => hm.old _ ?_
  have := List.mem_range.mp hk
  omega

theorem CostWithin.merge {cost n : Nat} {b b' : Builder} {w₁ w₂ : Nat} {rest : List Nat} (hn : n ≤ b.next)
    (hm : Merged b b' w₁ w₂ rest) (h : CostWithin cost n b) : CostWithin cost n b' := by
  obtain ⟨ls, c, hkraft, hassigned, hle⟩ := h
  rw [Multiset.coe_eq_coe.mpr hm.perm, ← Multiset.cons_coe, ← Multiset.cons_coe] at hassigned
  obtain ⟨ls', c', hkraft', hassigned', hle'⟩ := hassigned.merge hkraft hm.first_le hm.second_le
  refine ⟨ls', c', hkraft', by rwa [hm.weights_eq, ← Multiset.cons_coe], ?_⟩
  rw [internalSum_merge hn hm]
  omega

theorem BuilderOk.weightAt_eq {l : LoadState} {n : Nat} {b : Builder} (ok : BuilderOk l.wmem n b) {i : Nat} (hi : i < n) :
    weightAt l i = nodeWeightAt b.node i := by
  obtain ⟨w, hw, hleaf⟩ := ok.leaf i hi
  rw [nodeWeightAt_of_read hleaf, weightAt, hw]
  exact (BitVec.toNat_setWidth_of_le (by decide)).symm

/-- Before the first merge the queue holds the weights of all positions. -/
theorem BuilderOk.weights_of_leaves {l : LoadState} {n : Nat} {b : Builder} (ok : BuilderOk l.wmem n b)
    (hnext : b.next = n) : b.weights.Perm ((List.range n).map (weightAt l)) := by
  have hlen := ok.nodes.length_eq
  have hcount := ok.count
  simp only [List.length_append, List.length_map, List.length_range] at hlen
  have hrefs : childRefs b.node = [] := List.length_eq_zero_iff.mp (by omega)
  have hnodes := ok.nodes
  rw [hrefs, List.map_nil, List.append_nil, hnext] at hnodes
  have hweights : b.weights = (b.queue.map fun k => k.node.toNat).map (nodeWeightAt b.node) := by
    rw [List.map_map, Of.Builder.weights]
    refine List.map_congr_left fun k hk => ?_
    obtain ⟨rec, hread, hw⟩ := ok.queue k hk
    rw [Function.comp_apply, nodeWeightAt_of_read hread, hw]
  rw [hweights, List.map_congr_left fun i hi => ok.weightAt_eq (List.mem_range.mp hi)]
  exact hnodes.map _

/-- Before the first merge there are no sums, and the codewords of any code give the weights their lengths. -/
theorem CostWithin.of_leaves {l : LoadState} {n : Nat} {b : Builder} (ok : BuilderOk l.wmem n b) (hnext : b.next = n)
    {code : Nat → List Bool} (hfree : ∀ i j, i < n → j < n → i ≠ j → ¬ code i <+: code j) :
    CostWithin ((List.range n).map fun i => weightAt l i * (code i).length).sum n b := by
  refine ⟨_, _, kraft_of_prefixFree hfree,
    ⟨(Multiset.range n).map fun i => (weightAt l i, (code i).length), ?_, by simp, rfl⟩, ?_⟩
  · rw [Multiset.coe_eq_coe.mpr (ok.weights_of_leaves hnext), Multiset.map_map]
    rfl
  · simp [internalSum, hnext, Multiset.range, Function.comp_def]

/-- Settles O38: the weighted length of the code built is the sum of the internal weights, and every merge adds to that sum
no more than it takes off the cost of the lengths that the other code leaves for the queue. -/
theorem builtCodeIsOptimal : Obligations.BuiltCodeIsOptimal := by
  intro s t hi hload h hready code hfree
  have ok : EncodingOk t.load t.enc := ((exec_effect h).keeps_inv hi).readyPhase hready
  obtain ⟨b, ⟨ls, c, -, -, hle⟩, hnode, hnext⟩ := exec_build_induction hi hload h hready
    (fun _ hb hleaves => CostWithin.of_leaves hb hleaves hfree) (fun _ _ _ _ _ hb => CostWithin.merge hb.leaves_le)
  have hsum : internalSum t.enc.n.toNat b =
      ((List.range (t.enc.n.toNat - 1)).map fun k => nodeWeightAt t.enc.node (t.enc.n.toNat + k)).sum := by
    have := ok.n_pos
    rw [internalSum, hnode, hnext, show 2 * t.enc.n.toNat - 1 - t.enc.n.toNat = t.enc.n.toNat - 1 by omega]
  rw [ok.weighted_length, ← hsum]
  omega

end Sys2Proof.Machine

/-!
The code table (42_code_table.md R180 to R186): the loop with an explicit stack against the recursion, when the traversal
fails, the code as a set of bit strings, and the table of one symbol.
-/

namespace Sys2Proof.Machine

/-! ## The loop with an explicit stack (R183) -/

section Loop

variable {idxW nodeW wsumW payW cwW : Nat} {p : Params} {node : Mem (Of.Node idxW nodeW wsumW)}

/-- What the loop does with the rest of its stack once the subtree of the top entry is traversed. -/
def afterVisit (p : Params) (node : Mem (Of.Node idxW nodeW wsumW)) (turns : Nat) (rest : List (Of.Frame nodeW payW)) :
    Except BuildStop (Mem (BitVec cwW)) → Option (Except BuildStop (Mem (BitVec cwW)))
  | .error e => some (.error e)
  | .ok table => stackLoop p node turns rest table

/-- R183: the loop pops an entry, and after finitely many turns it stands where the recursion on that entry ends. -/
theorem exists_turns_afterVisit (room : Nat) (k : BitVec nodeW) (depth : Nat) (acc : BitVec payW)
    (hdepth : depth + room = p.maxDepth) (rest : List (Of.Frame nodeW payW)) (table : Mem (BitVec cwW)) :
    ∃ turns, ∀ more, stackLoop p node (more + turns) ({ node := k, depth := depth, acc := acc } :: rest) table =
      afterVisit p node more rest (visit p node room k depth acc table) := by
  induction room generalizing k depth acc rest table with
  | zero =>
    refine ⟨1, fun more => ?_⟩
    rw [stackLoop, stackTurn, visit]
    cases fetch p .node node k.toNat with
    | error f => rfl
    | ok rec =>
      cases rec with
      | leaf index weight => rfl
      | internal left right weight => simp [show depth = p.maxDepth from hdepth, afterVisit]
  | succ room ih =>
    cases hfetch : fetch p .node node k.toNat with
    | error f => exact ⟨1, fun more => by simp [stackLoop, stackTurn, visit, hfetch, afterVisit]⟩
    | ok rec =>
      cases rec with
      | leaf index weight => exact ⟨1, fun more => by simp [stackLoop, stackTurn, visit, hfetch, afterVisit]⟩
      | internal left right weight =>
        have hturn : ∀ more, stackLoop p node (more + 1) ({ node := k, depth := depth, acc := acc } :: rest) table =
            stackLoop p node more ({ node := left, depth := depth + 1, acc := acc } ::
              { node := right, depth := depth + 1, acc := rightPath depth acc } :: rest) table := fun more => by
          simp [stackLoop, stackTurn, hfetch, show depth ≠ p.maxDepth by omega]
        obtain ⟨turns, hleft⟩ := ih left (depth + 1) acc (by omega)
          ({ node := right, depth := depth + 1, acc := rightPath depth acc } :: rest) table
        cases hvisit : visit p node room left (depth + 1) acc table with
        | error e =>
          refine ⟨turns + 1, fun more => ?_⟩
          rw [← Nat.add_assoc, hturn, hleft, hvisit]
          simp [visit, hfetch, hvisit, afterVisit]
        | ok mid =>
          obtain ⟨turns', hright⟩ := ih right (depth + 1) (rightPath depth acc) (by omega) rest mid
          refine ⟨turns' + turns + 1, fun more => ?_⟩
          rw [← Nat.add_assoc, hturn, ← Nat.add_assoc, hleft, hvisit, afterVisit, hright]
          simp [visit, hfetch, hvisit]

/-- A turn that leaves a stack pops the top entry, and above `MAXDEPTH` may push two entries one deeper. -/
theorem stackTurn_eq_ok {stack stack' : List (Of.Frame nodeW payW)} {table table' : Mem (BitVec cwW)}
    (h : stackTurn p node stack table = some (.ok (stack', table'))) :
    ∃ top rest, stack = top :: rest ∧ (stack' = rest ∨ top.depth ≠ p.maxDepth ∧ ∃ left right : Of.Frame nodeW payW,
      left.depth = top.depth + 1 ∧ right.depth = top.depth + 1 ∧ stack' = left :: right :: rest) := by
  cases stack with
  | nil => simp [stackTurn] at h
  | cons top rest =>
    refine ⟨top, rest, rfl, ?_⟩
    cases hfetch : fetch p .node node top.node.toNat with
    | error f => simp [stackTurn, hfetch] at h
    | ok rec =>
      cases rec with
      | leaf index weight =>
        simp only [stackTurn, hfetch, Option.some.injEq, Except.ok.injEq, Prod.mk.injEq] at h
        exact .inl h.1.symm
      | internal left right weight =>
        by_cases hdepth : top.depth = p.maxDepth
        · simp [stackTurn, hfetch, hdepth] at h
        · simp only [stackTurn, hfetch, hdepth, if_false, Option.some.injEq, Except.ok.injEq, Prod.mk.injEq] at h
          exact .inr ⟨hdepth, _, _, rfl, rfl, h.1.symm⟩

end Loop

/-- The stack of R183: an entry of depth `d` stands on at most `d` entries, and no entry is deeper than `MAXDEPTH`. -/
def StackOk : List Frame → Prop
  | [] => True
  | top :: rest => rest.length ≤ top.depth ∧ top.depth ≤ 57 ∧ StackOk rest

theorem StackOk.turn {node : Mem Node} {stack stack' : List Frame} {table table' : Mem Codeword} (ok : StackOk stack)
    (h : stackTurn Params.hfc node stack table = some (.ok (stack', table'))) : StackOk stack' := by
  obtain ⟨top, rest, rfl, hpop⟩ := stackTurn_eq_ok h
  obtain ⟨hbelow, hle, okRest⟩ := ok
  obtain rfl | ⟨hdepth, left, right, hleft, hright, rfl⟩ := hpop
  · exact okRest
  · simp only [StackOk, List.length_cons]
    have hlt : top.depth < 57 := Nat.lt_of_le_of_ne hle hdepth
    exact ⟨by omega, by omega, by omega, by omega, okRest⟩

theorem StackReach.stackOk {node : Mem Node} {root : NodeIdx} {stack : List Frame} {table : Mem Codeword}
    (h : StackReach node root stack table) : StackOk stack := by
  induction h with
  | start => simp [StackOk]
  | turn _ hturn ok => exact ok.turn hturn

theorem StackOk.length_le {stack : List Frame} (ok : StackOk stack) : stack.length ≤ 58 := by
  cases stack with
  | nil => simp
  | cons top rest =>
    obtain ⟨hbelow, hle, -⟩ := ok
    rw [List.length_cons]
    omega

/-- Settles O41: one turn after the entry of the root is traversed the loop finds its stack empty, and every turn keeps the
bound that each entry's depth sets. -/
theorem stackTraversalIsTheRecursion : Obligations.StackTraversalIsTheRecursion := by
  refine ⟨fun node root => ?_, fun node root stack table h => h.stackOk.length_le⟩
  obtain ⟨turns, hturns⟩ := exists_turns_afterVisit (p := Params.hfc) (node := node) 57 root 0 (0 : Payload) rfl []
    ([] : Mem Codeword)
  refine ⟨turns + 1, fun more hmore => ?_⟩
  obtain ⟨extra, rfl⟩ := Nat.exists_eq_add_of_le' hmore
  rw [Nat.add_comm turns, ← Nat.add_assoc, hturns, ← codeTable_eq]
  cases (codeTable Params.hfc node root : Except BuildStop (Mem Codeword)) <;> rfl

/-! ## When the tree is too deep (R182) -/

/-- A leaf deeper than `d` below `root`. -/
def LeafDeeperThan (node : Mem Node) (root : NodeIdx) (d : Nat) : Prop :=
  ∃ bits c index weight, follow node root bits = some c ∧ Mem.read node c.toNat = some (.leaf index weight) ∧
    d < bits.length

/-- An internal node at depth `d` or more below `root`. -/
def InternalAsDeepAs (node : Mem Node) (root : NodeIdx) (d : Nat) : Prop :=
  ∃ bits c left right weight, follow node root bits = some c ∧
    Mem.read node c.toNat = some (.internal left right weight) ∧ d ≤ bits.length

section TooDeep

variable {wmem : Mem Weight} {n : Nat} {node : Mem Node} {root : NodeIdx}

/-- The parent of a leaf is an internal node one edge higher, and every internal node has a leaf below it. -/
theorem TreeOk.leafDeeperThan_iff (t : TreeOk wmem n node) (hroot : root.toNat < 2 * n - 1) (d : Nat) :
    LeafDeeperThan node root d ↔ InternalAsDeepAs node root d := by
  constructor
  · rintro ⟨bits, c, index, weight, hpath, -, hdeep⟩
    obtain rfl | ⟨bits, b, rfl⟩ := List.eq_nil_or_concat bits
    · simp at hdeep
    · rw [List.concat_eq_append] at hpath
      rw [List.length_concat] at hdeep
      obtain ⟨parent, left, right, w, hparent, hread, -⟩ := follow_concat hpath
      exact ⟨bits, parent, left, right, w, hparent, hread, by omega⟩
  · rintro ⟨bits, c, left, right, weight, hpath, hread, hdeep⟩
    obtain ⟨m, leaf, index, w, hdown, hleaf⟩ := t.leaf_on_path (fun _ => false) c 0 (t.follow_lt hpath hroot)
    have hm : m ≠ 0 := by
      rintro rfl
      cases hdown
      cases hread.symm.trans hleaf
    refine ⟨bits ++ (List.range m).map fun _ => false, leaf, index, w, ?_, hleaf, ?_⟩
    · rw [follow_append, hpath]
      exact hdown
    · rw [List.length_append, List.length_map, List.length_range]
      omega

/-- The path to an internal node passes an internal node at every smaller depth. -/
theorem InternalAsDeepAs.exists_at {d : Nat} (h : InternalAsDeepAs node root d) :
    ∃ bits c left right weight, bits.length = d ∧ follow node root bits = some c ∧
      Mem.read node c.toNat = some (.internal left right weight) := by
  obtain ⟨bits, c, left, right, weight, hpath, hread, hdeep⟩ := h
  obtain ⟨upper, lower, rfl, hlen⟩ : ∃ upper lower, bits = upper ++ lower ∧ upper.length = d :=
    ⟨bits.take d, bits.drop d, (List.take_append_drop d bits).symm, List.length_take_of_le hdeep⟩
  rw [follow_append, Option.bind_eq_some_iff] at hpath
  obtain ⟨mid, hupper, hlower⟩ := hpath
  cases lower with
  | nil =>
    cases hlower
    exact ⟨upper, c, left, right, weight, hlen, hupper, hread⟩
  | cons b lower =>
    obtain ⟨left, right, weight, hmid, -⟩ := follow_cons_some hlower
    exact ⟨upper, mid, left, right, weight, hlen, hupper, hmid⟩

/-- R182: the traversal of a tree ends with `TreeTooDeep` iff an internal node lies at the last depth or below it. -/
theorem TreeOk.codeTable_tooDeep_iff (t : TreeOk wmem n node) (hn : n ≤ 256) (hroot : root.toNat < 2 * n - 1) :
    (codeTable Params.hfc node root : Except BuildStop (Mem Codeword)) = .error .tooDeep ↔
      InternalAsDeepAs node root 57 := by
  rw [codeTable_eq]
  constructor
  · intro h
    obtain ⟨bits, c, left, right, w, hlen, hpath, hread⟩ := visit_tooDeep h
    exact ⟨bits, c, left, right, w, hpath, hread, hlen.ge⟩
  · intro h
    obtain ⟨bits, c, left, right, w, hlen, hpath, hread⟩ := h.exists_at
    exact visit_of_deep t hn hroot 0 0 [] hlen hpath hread

end TooDeep

/-- Past the checks of R152, `BUILD` answers `TreeTooDeep` where `construct` does. -/
theorem exec_build_tooDeep_iff {s : State} (hload : s.phase = .load) (heq : s.load.wcnt = s.load.acnt)
    (hne : s.load.wcnt ≠ 0) : exec .build s = .next (errState s .treeTooDeep 0x22 0x04 0) ↔
      construct Params.hfc s.load.wmem s.load.wcnt = .error .tooDeep := by
  constructor
  · intro h
    obtain ⟨hnot, -⟩ | ⟨-, hnot, -⟩ | ⟨-, -, hnot, -⟩ | ⟨-, -, -, hdeep, -⟩ | ⟨-, -, -, e, -, ht⟩ := execBuild_next.mp h
    · exact absurd hload hnot
    · exact absurd heq hnot
    · exact absurd hnot hne
    · exact hdeep
    · have hphase : s.phase = .ready := congrArg Of.State.phase ht
      rw [hload] at hphase
      cases hphase
  · exact fun hdeep => execBuild_next.mpr (.inr (.inr (.inr (.inl ⟨hload, heq, hne, hdeep, rfl⟩))))

/-- Settles O33: `BUILD` answers what `construct` answers, which is what the traversal of the tree answers, and the traversal
fails at an internal node of depth 57, which has a leaf below it. -/
theorem treeTooDeepIffALeafIsDeeperThan57 : Obligations.TreeTooDeepIffALeafIsDeeperThan57 := by
  intro s hi hload heq hne
  have h1 := one_le_toNat_of_ne_zero hne
  obtain ⟨b, root, hb, hroot, -, tree, hconstruct⟩ := construct_eq hi.load h1
  have hlt : root.toNat < 2 * s.load.wcnt.toNat - 1 := by omega
  have hleaf := tree.leafDeeperThan_iff hlt 57
  refine ⟨b, root, hb, tree, hroot, ?_, hleaf⟩
  have htable : construct Params.hfc s.load.wmem s.load.wcnt = .error .tooDeep ↔
      (codeTable Params.hfc b.node root : Except BuildStop (Mem Codeword)) = .error .tooDeep := by
    rw [hconstruct]
    cases (codeTable Params.hfc b.node root : Except BuildStop (Mem Codeword)) <;> simp
  exact (exec_build_tooDeep_iff hload heq hne).trans
    (htable.trans ((tree.codeTable_tooDeep_iff hi.load.wcnt_le hlt).trans hleaf.symm))

/-! ## No codeword begins another, and the code is complete (R185) -/

/-- Of two beginnings of one sequence, one begins the other. -/
theorem map_range_prefix_or (f : Nat → Bool) (m n : Nat) :
    (List.range m).map f <+: (List.range n).map f ∨ (List.range n).map f <+: (List.range m).map f := by
  have shorter : ∀ {m n : Nat}, m ≤ n → (List.range m).map f <+: (List.range n).map f := fun h => by
    obtain ⟨d, rfl⟩ := Nat.exists_eq_add_of_le h
    rw [List.range_add, List.map_append]
    exact List.prefix_append _ _
  exact (Nat.le_total m n).imp shorter shorter

theorem map_range_getD (bits : List Bool) : (List.range bits.length).map (fun d => bits.getD d false) = bits :=
  List.ext_getElem (by simp) fun d _ h => by simp [h]

namespace EncodingOk

variable {l : LoadState} {e : Encoding}

/-- A codeword that begins another one ends at its leaf already. -/
theorem eq_of_codeword_prefix (ok : EncodingOk l e) {i j : Nat} (hi : i < e.n.toNat) (hj : j < e.n.toNat)
    (h : codewordBits e i <+: codewordBits e j) : i = j := by
  obtain ⟨cs, hcs⟩ := h
  obtain ⟨w, hpath, hleaf, -⟩ := ok.codeword_path hi
  obtain ⟨-, hpath', -, -⟩ := ok.codeword_path hj
  have hnil : cs = [] :=
    follow_prefix_leaf hpath (by rw [ok.toNat_idx hi]; exact hleaf) (by rw [hcs]; exact hpath')
  rw [hnil, List.append_nil] at hcs
  rw [hcs, hpath'] at hpath
  rw [← ok.toNat_idx hi, ← ok.toNat_idx hj, Option.some.inj hpath]

theorem eq_of_codeword_prefix_or (ok : EncodingOk l e) {i j : Nat} (hi : i < e.n.toNat) (hj : j < e.n.toNat)
    (h : codewordBits e i <+: codewordBits e j ∨ codewordBits e j <+: codewordBits e i) : i = j :=
  h.elim (ok.eq_of_codeword_prefix hi hj) fun hji => (ok.eq_of_codeword_prefix hj hi hji).symm

/-- A bit string begins with at most one codeword. -/
theorem eq_of_prefixes (ok : EncodingOk l e) {i j : Nat} (hi : i < e.n.toNat) (hj : j < e.n.toNat) {bits : List Bool}
    (h : codewordBits e i <+: bits) (h' : codewordBits e j <+: bits) : i = j :=
  ok.eq_of_codeword_prefix_or hi hj (List.prefix_or_prefix_of_prefix h h')

/-- With two or more symbols the root is no leaf. -/
theorem codewordBits_ne_nil (ok : EncodingOk l e) (h2 : 2 ≤ e.n.toNat) {i : Nat} (hi : i < e.n.toNat) :
    codewordBits e i ≠ [] := by
  intro hnil
  obtain ⟨-, hpath, -, -⟩ := ok.codeword_path hi
  rw [hnil, follow_nil, Option.some.injEq] at hpath
  have hroot := ok.root
  rw [hpath, ok.toNat_idx hi] at hroot
  omega

/-- The path to a leaf is the codeword of the leaf's index. -/
theorem codewordBits_of_path (ok : EncodingOk l e) {bits : List Bool} {c : NodeIdx} {index : AlphaIdx} {w : NodeWeight}
    (hpath : follow e.node e.root bits = some c) (hleaf : Mem.read e.node c.toNat = some (.leaf index w)) :
    c.toNat < e.n.toNat ∧ codewordBits e c.toNat = bits := by
  have hc := (ok.tree.leaf_inv hleaf).1
  obtain ⟨-, hcode, -, -⟩ := ok.codeword_path hc
  rw [BitVec.ofNat_toNat, BitVec.setWidth_eq] at hcode
  exact ⟨hc, ok.tree.path_unique ok.root ok.n_pos hcode hpath⟩

/-- An infinite bit sequence begins with a codeword: the tree is full. -/
theorem exists_codeword_of_sequence (ok : EncodingOk l e) (f : Nat → Bool) :
    ∃ i < e.n.toNat, codewordBits e i = (List.range (codewordBits e i).length).map f := by
  have hroot : e.root.toNat < 2 * e.n.toNat - 1 := by
    have := ok.root
    have := ok.n_pos
    omega
  obtain ⟨m, c, index, w, hpath, hleaf⟩ := ok.tree.leaf_on_path f e.root 0 hroot
  obtain ⟨hc, hcode⟩ := ok.codewordBits_of_path hpath hleaf
  exact ⟨c.toNat, hc, by simp [hcode]⟩

/-- An infinite bit sequence begins with at most one codeword. -/
theorem eq_of_sequence (ok : EncodingOk l e) {f : Nat → Bool} {i j : Nat} (hi : i < e.n.toNat) (hj : j < e.n.toNat)
    (h : codewordBits e i = (List.range (codewordBits e i).length).map f)
    (h' : codewordBits e j = (List.range (codewordBits e j).length).map f) : i = j := by
  have hor := map_range_prefix_or f (codewordBits e i).length (codewordBits e j).length
  rw [← h, ← h'] at hor
  exact ok.eq_of_codeword_prefix_or hi hj hor

/-- A finite bit string begins with a codeword, or is a proper beginning of one. -/
theorem prefix_or_proper_beginning (ok : EncodingOk l e) (bits : List Bool) :
    (∃ i < e.n.toNat, codewordBits e i <+: bits) ∨
    ∃ j rest, j < e.n.toNat ∧ rest ≠ [] ∧ codewordBits e j = bits ++ rest := by
  obtain ⟨i, hi, hcode⟩ := ok.exists_codeword_of_sequence fun d => bits.getD d false
  have hor := map_range_prefix_or (fun d => bits.getD d false) (codewordBits e i).length bits.length
  rw [← hcode, map_range_getD] at hor
  obtain hbegin | ⟨rest, hrest⟩ := hor
  · exact .inl ⟨i, hi, hbegin⟩
  · by_cases hnil : rest = []
    · exact .inl ⟨i, hi, by rw [← hrest, hnil, List.append_nil]⟩
    · exact .inr ⟨i, rest, hi, hnil, hrest.symm⟩

end EncodingOk

section Splitting

variable {l : LoadState} {e : Encoding} {bits tail : List Bool} {indices : List Nat}

theorem splitsAs_nil_iff : SplitsAs e bits [] tail ↔
    bits = tail ∧ ∃ j rest, j < e.n.toNat ∧ rest ≠ [] ∧ codewordBits e j = bits ++ rest := by
  simp only [SplitsAs, List.flatMap_nil, List.nil_append]
  constructor
  · rintro ⟨-, rfl, h⟩
    exact ⟨rfl, h⟩
  · rintro ⟨rfl, h⟩
    exact ⟨by simp, rfl, h⟩

theorem splitsAs_cons_iff {i : Nat} : SplitsAs e bits (i :: indices) tail ↔
    i < e.n.toNat ∧ ∃ bits', bits = codewordBits e i ++ bits' ∧ SplitsAs e bits' indices tail := by
  simp only [SplitsAs, List.flatMap_cons, List.append_assoc, List.forall_mem_cons]
  constructor
  · rintro ⟨⟨hi, hall⟩, rfl, h⟩
    exact ⟨hi, _, rfl, hall, rfl, h⟩
  · rintro ⟨hi, -, rfl, hall, rfl, h⟩
    exact ⟨⟨hi, hall⟩, rfl, h⟩

/-- What begins with a codeword is no proper beginning of a codeword. -/
theorem EncodingOk.codewordBits_ne_append (ok : EncodingOk l e) {i j : Nat} (hi : i < e.n.toNat) (hj : j < e.n.toNat)
    {rest : List Bool} (hrest : rest ≠ []) : codewordBits e j ≠ codewordBits e i ++ bits ++ rest := by
  intro hcode
  rw [List.append_assoc] at hcode
  obtain rfl : i = j := ok.eq_of_codeword_prefix hi hj (hcode ▸ List.prefix_append _ _)
  simp [hrest] at hcode

theorem EncodingOk.exists_splitsAs (ok : EncodingOk l e) (h2 : 2 ≤ e.n.toNat) (bits : List Bool) :
    ∃ indices tail, SplitsAs e bits indices tail := by
  induction hlen : bits.length using Nat.strong_induction_on generalizing bits with
  | _ len ih =>
    obtain ⟨i, hi, bits', rfl⟩ | hbegin := ok.prefix_or_proper_beginning bits
    · have hpos := List.length_pos_of_ne_nil (ok.codewordBits_ne_nil h2 hi)
      rw [List.length_append] at hlen
      obtain ⟨indices, tail, h⟩ := ih bits'.length (by omega) bits' rfl
      exact ⟨i :: indices, tail, splitsAs_cons_iff.mpr ⟨hi, bits', rfl, h⟩⟩
    · exact ⟨[], bits, splitsAs_nil_iff.mpr ⟨rfl, hbegin⟩⟩

theorem EncodingOk.splitsAs_unique (ok : EncodingOk l e) {indices' : List Nat} {tail' : List Bool}
    (h : SplitsAs e bits indices tail) (h' : SplitsAs e bits indices' tail') : indices' = indices ∧ tail' = tail := by
  induction indices generalizing bits indices' with
  | nil =>
    obtain ⟨rfl, j, rest, hj, hrest, hcode⟩ := splitsAs_nil_iff.mp h
    cases indices' with
    | nil => exact ⟨rfl, (splitsAs_nil_iff.mp h').1.symm⟩
    | cons i' indices' =>
      obtain ⟨hi', bits', rfl, -⟩ := splitsAs_cons_iff.mp h'
      exact absurd hcode (ok.codewordBits_ne_append hi' hj hrest)
  | cons i indices ih =>
    obtain ⟨hi, rem, rfl, hrem⟩ := splitsAs_cons_iff.mp h
    cases indices' with
    | nil =>
      obtain ⟨-, j, rest, hj, hrest, hcode⟩ := splitsAs_nil_iff.mp h'
      exact absurd hcode (ok.codewordBits_ne_append hi hj hrest)
    | cons i' indices' =>
      obtain ⟨hi', rem', heq, hrem'⟩ := splitsAs_cons_iff.mp h'
      obtain rfl : i = i' := ok.eq_of_prefixes hi hi' (List.prefix_append _ rem) (heq ▸ List.prefix_append _ rem')
      obtain rfl := List.append_cancel_left heq
      obtain ⟨rfl, rfl⟩ := ih hrem hrem'
      exact ⟨rfl, rfl⟩

end Splitting

/-- Settles O39: codewords end at different leaves, every sequence leads from the root to a leaf, and a string gives up the
one codeword it begins with until a proper beginning of a codeword is left. -/
theorem codeIsPrefixFreeAndComplete : Obligations.CodeIsPrefixFreeAndComplete := by
  intro l e ok
  refine ⟨fun i j hi hj hne h => hne (ok.eq_of_codeword_prefix hi hj h), fun h2 f => ?_, fun h2 bits => ?_⟩
  · obtain ⟨i, hi, hcode⟩ := ok.exists_codeword_of_sequence f
    exact ⟨i, ⟨hi, ok.codewordBits_ne_nil h2 hi, hcode⟩, fun j hj hcode' => ok.eq_of_sequence hj hi hcode' hcode⟩
  · obtain ⟨indices, tail, h⟩ := ok.exists_splitsAs h2 bits
    exact ⟨indices, tail, h, fun _ _ h' => ok.splitsAs_unique h h'⟩

/-! ## The code table of one symbol (R186) -/

/-- R186: the path from a root that is a leaf to a leaf has no edge, and a codeword of length 0 is the word 0. -/
theorem EncodingOk.read_ct_of_single {l : LoadState} {e : Encoding} (ok : EncodingOk l e) (h1 : e.n.toNat = 1) :
    Mem.read e.ct 0 = some 0 := by
  obtain ⟨w, hread, -, hpath, hhigh⟩ := ok.table.entry 0 (by omega)
  have hroot := ok.root
  have hle := ok.tree.follow_le hpath (by omega)
  have hlen : (cwLen w).toNat = 0 := by simpa [codewordSeq, hroot, h1] using hle
  have hbits : cwBits w = 0 := BitVec.eq_of_getLsbD_eq fun d _ => by
    rw [hhigh d (by omega)]
    simp
  have hzero : cwLen w = 0 := BitVec.eq_of_toNat_eq hlen
  rw [hread, ← pack_cwLen_cwBits w, hzero, hbits]
  rfl

/-- Settles O40: the build succeeds, and of its Encoding R42 leaves nothing open but the one table entry. -/
theorem oneSymbolHasTheEmptyCodeword : Obligations.OneSymbolHasTheEmptyCodeword := by
  intro s hi hload hw ha
  have hone : s.load.wcnt.toNat = 1 := congrArg BitVec.toNat hw
  have heq : s.load.wcnt = s.load.acnt := hw.trans ha.symm
  obtain ⟨e, he, ok⟩ := construct_of_small hi.load heq (by omega) (by omega)
  have hn : e.n.toNat = 1 := ok.n_wcnt ▸ hone
  obtain ⟨w, hread, hleaf⟩ := ok.tree.leaf 0 (by omega)
  refine ⟨e, exec_build_of_construct_ok hload heq (by simp [hw]) he, ok.n_wcnt.trans hw, ?_, ?_,
    ok.read_ct_of_single hn, w, hread, hleaf⟩
  · exact BitVec.eq_of_toNat_eq (by rw [ok.root, hn]; rfl)
  · exact BitVec.eq_of_toNat_eq (by rw [ok.nnodes, hn]; rfl)

end Sys2Proof.Machine

/-!
The encoder (43_encoder.md R200 to R206), with the opening, ending and refusing rules it shares with the decoder
(44_decoder.md R230 to R232), and the host procedure `encode_all` (70_reset_and_hazards.md R343).
-/

namespace Sys2Proof.Machine

/-! ## Opening, ending and refusing, for both streams -/

theorem exec_eopen_of_ready {s : State} (hready : s.phase = .ready) :
    exec .eopen s = .next (okState { s with est := { state := .run, eoi := false, val := 0, len := 0 } } 0) :=
  execEopen_next.mpr (.inr ⟨hready, rfl⟩)

theorem exec_eend_of_clear {s : State} (hrun : s.est.state = .run) (heoi : s.est.eoi = false) :
    exec .eend s = .next (okState { s with est := { s.est with eoi := true } } 0) :=
  execEend_next.mpr (.inr ⟨hrun, heoi, rfl⟩)

/-- Settles O42: each opening command has no condition but the phase. -/
theorem openStartsAFreshStream : Obligations.OpenStartsAFreshStream := fun _ hready =>
  ⟨exec_eopen_of_ready hready, execDopen_next.mpr (.inr ⟨hready, rfl⟩)⟩

/-- Settles O43: in a running stream the end-of-input flag alone decides. -/
theorem endSetsTheFlagOnce : Obligations.EndSetsTheFlagOnce :=
  ⟨fun _ hrun => ⟨exec_eend_of_clear hrun, fun heoi => execEend_next.mpr (.inl ⟨.inr heoi, rfl⟩)⟩,
    fun _ hactive => ⟨fun heoi => execDend_next.mpr (.inr ⟨hactive, heoi, rfl⟩),
      fun heoi => execDend_next.mpr (.inl ⟨.inr heoi, rfl⟩)⟩⟩

/-- Settles O44: the checks of each push in their order; the last one of `EPUSH` is the lookup, which finds nothing, and
that of `DPUSH` reads the record of `D_CUR`. -/
theorem pushRefusesInOrder : Obligations.PushRefusesInOrder := by
  refine ⟨fun s a hi hrun => ⟨fun heoi => ?ended, fun heoi hlen => ?waiting, fun heoi hlen habsent => ?unknown⟩,
    fun s b hi hactive => ⟨fun heoi => ?decEnded, fun index weight heoi hleaf => ?atLeaf⟩⟩
  case ended => exact execEpush_next.mpr (.inl ⟨.inr heoi, rfl⟩)
  case waiting => exact execEpush_next.mpr (.inr (.inl ⟨hrun, heoi, hlen, rfl⟩))
  case unknown =>
    have hlookup := hi.lookup_of_absent (hi.ready_of_est (by simp [hrun])) habsent
    refine execEpush_next.mpr (.inr (.inr (.inl ⟨hrun, heoi, hlen, hlookup, ?_⟩)))
    simp only [heoi]
    rfl
  case decEnded => exact execDpush_next.mpr (.inl ⟨.inr heoi, rfl⟩)
  case atLeaf =>
    have hopen : s.dst.state ≠ .closed := Of.DecStream.Active.ne_closed hactive
    obtain ⟨rec, hfetch, hread⟩ := hi.node_read (hi.ready_of_dst hopen) (hi.decStream.cur_lt hopen)
    obtain rfl := Option.some.inj (hleaf.symm.trans hread)
    exact execDpush_next.mpr (.inr ⟨hactive, heoi, _, hfetch, .inl ⟨index, weight, rfl, rfl⟩⟩)

/-! ## The codeword of a symbol (R200, R201, R203) -/

/-- R200: the lookup finds the first index of a symbol of the alphabet, and the table entry there can be read. -/
theorem BlockInv.codeword_of_first {s : State} (hi : BlockInv s) (hready : s.phase = .ready) {a : Sym} {i : Nat}
    (hfirst : IsFirstIndex s a i) :
    ∃ w, Mem.read s.enc.ct i = some w ∧ lookup Params.hfc a s = .ok (some i) ∧
      fetch Params.hfc .ct s.enc.ct i = .ok w := by
  obtain ⟨w, hfetch, hread⟩ := hi.ct_read hready hfirst.1
  exact ⟨w, hread, hi.lookup_of_first hready hfirst, hfetch⟩

/-- R203: the two fields of the table entry become the cursor. -/
theorem exec_epush_of_first {s : State} (hi : BlockInv s) (hrun : s.est.state = .run) (heoi : s.est.eoi = false)
    (hlen : s.est.len = 0) {a : Sym} {i : Nat} (hfirst : IsFirstIndex s a i) :
    ∃ w, Mem.read s.enc.ct i = some w ∧ exec (.epush a) s = .next
      (okState { s with est := { state := .run, eoi := false, val := cwBits w, len := cwLen w } } 0) := by
  obtain ⟨w, hread, hlookup, hfetch⟩ := hi.codeword_of_first (hi.ready_of_est (by simp [hrun])) hfirst
  refine ⟨w, hread, execEpush_next.mpr (.inr (.inr (.inr ⟨hrun, heoi, hlen, i, w, hlookup, hfetch, ?_⟩)))⟩
  simp only [hrun, heoi]
  rfl

/-- Settles O45: the lookup ends with the smallest index, whose table entry is the answer, or with none. -/
theorem enc1AnswersTheCodeword : Obligations.Enc1AnswersTheCodeword := by
  constructor
  · intro s a i hi hready hfirst
    obtain ⟨w, hread, hlookup, hfetch⟩ := hi.codeword_of_first hready hfirst
    exact ⟨w, hread, execEnc1_next.mpr (.inr (.inr ⟨hready, i, w, hlookup, hfetch, rfl⟩))⟩
  · intro s a hi hready habsent
    exact execEnc1_next.mpr (.inr (.inl ⟨hready, hi.lookup_of_absent hready habsent, rfl⟩))

/-- Settles O46: the fields of a packed codeword are its low 57 bits and its high 7 bits. -/
theorem epushLoadsTheCodeword : Obligations.EpushLoadsTheCodeword := fun _ _ _ hi hrun heoi hlen hfirst =>
  exec_epush_of_first hi hrun heoi hlen hfirst

/-! ## Pulling the bits of the cursor (R205) -/

theorem toNat_sub_one_add_one {n : CwLen} (h : n ≠ 0) : (n - 1).toNat + 1 = n.toNat := by
  bv_omega

theorem toNat_pos_of_ne_zero {n : CwLen} (h : n ≠ 0) : 0 < n.toNat := by
  rw [← toNat_sub_one_add_one h]
  exact Nat.succ_pos _

/-- The context whose cursor is the `pop_front` of the cursor of `e` (40_bitseq.md R135). -/
def Of.EncStream.popped (e : Machine.EncStream) : Machine.EncStream := { e with val := e.val >>> 1, len := e.len - 1 }

theorem EncStream.one_le_len_seq {e : EncStream} (h : e.len ≠ 0) : 1 ≤ e.seq.len := toNat_pos_of_ne_zero h

theorem EncStream.front_seq {e : EncStream} (h : e.len ≠ 0) : e.seq.front = some (e.val.getLsbD 0) :=
  if_pos (one_le_len_seq h)

theorem EncStream.popFront_seq {e : EncStream} (h : e.len ≠ 0) : e.seq.popFront = some e.popped.seq := by
  have hlen : e.seq.len - 1 = (e.len - 1).toNat := Nat.sub_eq_of_eq_add (toNat_sub_one_add_one h).symm
  rw [BitSeq.popFront, if_pos (one_le_len_seq h), hlen]
  rfl

theorem EncStream.toList_seq_of_ne_zero {e : EncStream} (h : e.len ≠ 0) :
    e.seq.toList = e.val.getLsbD 0 :: e.popped.seq.toList := by
  rw [BitSeq.toList_of_popFront (popFront_seq h)]
  exact List.eq_cons_of_mem_head? (e.seq.front_eq_head?.symm.trans (front_seq h))

theorem EncStream.toList_seq_of_zero {e : EncStream} (h : e.len = 0) : e.seq.toList = [] :=
  List.eq_nil_of_length_eq_zero (e.seq.length_toList.trans (congrArg BitVec.toNat h))

theorem bitData_eq_ite (b : Bool) : (bitData b : Data) = if b then 1 else 0 := by cases b <;> rfl

theorem getLsbD_bitData (b : Bool) : (bitData b : Data).getLsbD 0 = b := by cases b <;> rfl

theorem exec_epull_of_ne_zero {s : State} (hrun : s.est.state = .run) (hlen : s.est.len ≠ 0) :
    exec .epull s = .next (okState { s with est := s.est.popped } (bitData (s.est.val.getLsbD 0))) :=
  execEpull_next.mpr (.inr (.inl ⟨hrun, toNat_pos_of_ne_zero hlen, rfl⟩))

theorem exec_epull_of_ended {s : State} (hrun : s.est.state = .run) (hlen : s.est.len = 0) (heoi : s.est.eoi = true) :
    exec .epull s = .next (s.answered .endOfSeq 0) :=
  execEpull_next.mpr (.inr (.inr (.inl ⟨hrun, congrArg BitVec.toNat hlen, heoi, rfl⟩)))

theorem exec_epull_of_drained {s : State} (hrun : s.est.state = .run) (hlen : s.est.len = 0)
    (heoi : s.est.eoi = false) : exec .epull s = .next (s.answered .needInput 0) :=
  execEpull_next.mpr (.inr (.inr (.inr ⟨hrun, congrArg BitVec.toNat hlen, heoi, rfl⟩)))

/-- Settles O47: the rule of `EPULL` is `front` and `pop_front` of the cursor. -/
theorem epullDeliversTheNextBit : Obligations.EpullDeliversTheNextBit := by
  refine fun s hrun => ⟨fun hlen => ?_, exec_epull_of_ended hrun, exec_epull_of_drained hrun⟩
  refine ⟨_, _, _, EncStream.front_seq hlen, EncStream.popFront_seq hlen, toNat_sub_one_add_one hlen, ?_⟩
  rw [← bitData_eq_ite]
  exact exec_epull_of_ne_zero hrun hlen

/-! ## The host issues a command -/

theorem issue_of_exec {i : Instr} {s t : State} {rsp : Response} (h : exec i s = .next t)
    (hrsp : t.port.response = some rsp) : issue i s = some (rsp, t) := by
  simp [issue, command_of_decode_ok (decode_encode i), h, hrsp]

theorem issueOk_of_exec {α : Type} {i : Instr} {s t : State} {d : Data} (h : exec i s = .next (okState t d))
    (k : State → ProcEnd α) : issueOk i s k = k (okState t d) := by
  simp [issueOk, issue_of_exec h rfl, okState]

/-! ## What the commands of a host procedure keep -/

/-- In state `t` the block is in phase `READY` and has the loads, the Encoding and the error record of `s`. -/
structure SameCode (s t : State) : Prop where
  inv : BlockInv t
  ready : t.phase = .ready
  load : t.load = s.load
  enc : t.enc = s.enc
  err : t.err = s.err

theorem SameCode.refl {s : State} (hi : BlockInv s) (hready : s.phase = .ready) : SameCode s s :=
  ⟨hi, hready, rfl, rfl, rfl⟩

/-- A command other than `CLR` that is answered without an error keeps them. -/
theorem SameCode.exec {s t u : State} (h : SameCode s t) {i : Instr} (hexec : Machine.exec i t = .next u)
    (hclr : i ≠ .clr) {rsp : Response} (hrsp : u.port.response = some rsp) (hcode : rsp.st.code.toNat < 0x10) :
    SameCode s u := by
  have heffect := exec_effect hexec
  obtain ⟨hready, hload, henc⟩ := heffect.ready_eq hclr h.ready
  exact ⟨heffect.keeps_inv h.inv, hready, hload.trans h.load, henc.trans h.enc,
    (heffect.err_eq hclr hrsp hcode).trans h.err⟩

theorem SameCode.exec_ok {s t u : State} {d : Data} (h : SameCode s t) {i : Instr}
    (hexec : Machine.exec i t = .next (okState u d)) (hclr : i ≠ .clr) : SameCode s (okState u d) :=
  h.exec hexec hclr (rsp := { st := .ok, data := d }) rfl (by decide : Status.ok.code.toNat < 0x10)

theorem SameCode.isFirstIndex {s t : State} (h : SameCode s t) {a : Sym} {i : Nat} (hfirst : IsFirstIndex s a i) :
    IsFirstIndex t a i := by
  rwa [IsFirstIndex, h.load, h.enc]

/-! ## The loop of `encode_all` (R343) -/

section EncodeLoop

variable {s t : State}

theorem encodeLoop_of_ne_zero (hrun : t.est.state = .run) (hlen : t.est.len ≠ 0) (turns : Nat) (syms : List Sym)
    (out : List Bool) : encodeLoop (turns + 1) syms out t =
      encodeLoop turns syms (out ++ [t.est.val.getLsbD 0])
        (okState { t with est := t.est.popped } (bitData (t.est.val.getLsbD 0))) := by
  rw [encodeLoop, issue_of_exec (exec_epull_of_ne_zero hrun hlen) rfl]
  simp only [getLsbD_bitData]

theorem encodeLoop_of_ended (hrun : t.est.state = .run) (hlen : t.est.len = 0) (heoi : t.est.eoi = true) (turns : Nat)
    (syms : List Sym) (out : List Bool) :
    encodeLoop (turns + 1) syms out t = .returned out (t.answered .endOfSeq 0) := by
  rw [encodeLoop, issue_of_exec (exec_epull_of_ended hrun hlen heoi) rfl]

theorem encodeLoop_cons_of_drained (hrun : t.est.state = .run) (hlen : t.est.len = 0) (heoi : t.est.eoi = false)
    (turns : Nat) (a : Sym) (syms : List Sym) (out : List Bool) : encodeLoop (turns + 1) (a :: syms) out t =
      issueOk (.epush a) (t.answered .needInput 0) (encodeLoop turns syms out) := by
  rw [encodeLoop, issue_of_exec (exec_epull_of_drained hrun hlen heoi) rfl]

theorem encodeLoop_nil_of_drained (hrun : t.est.state = .run) (hlen : t.est.len = 0) (heoi : t.est.eoi = false)
    (turns : Nat) (out : List Bool) : encodeLoop (turns + 1) [] out t =
      issueOk .eend (t.answered .needInput 0) (encodeLoop turns [] out) := by
  rw [encodeLoop, issue_of_exec (exec_epull_of_drained hrun hlen heoi) rfl]

/-- The loop pulls the waiting bits before it does anything else, one a turn. -/
theorem encodeLoop_drains (hsame : SameCode s t) (hrun : t.est.state = .run) (heoi : t.est.eoi = false)
    (syms : List Sym) (out : List Bool) :
    ∃ u, SameCode s u ∧ u.est.state = .run ∧ u.est.eoi = false ∧ u.est.len = 0 ∧ ∀ turns,
      encodeLoop (turns + t.est.len.toNat) syms out t = encodeLoop turns syms (out ++ t.est.seq.toList) u := by
  induction hn : t.est.len.toNat generalizing t out with
  | zero =>
    have hlen : t.est.len = 0 := BitVec.eq_of_toNat_eq hn
    exact ⟨t, hsame, hrun, heoi, hlen, fun turns => by rw [EncStream.toList_seq_of_zero hlen, List.append_nil]; rfl⟩
  | succ n ih =>
    have hlen : t.est.len ≠ 0 := fun h0 => by simp [h0] at hn
    have hpopped : t.est.popped.len.toNat = n := Nat.succ.inj ((toNat_sub_one_add_one hlen).trans hn)
    have hsame' := hsame.exec_ok (exec_epull_of_ne_zero hrun hlen) nofun
    obtain ⟨u, hu, hurun, hueoi, hulen, hloop⟩ := ih hsame' hrun heoi (out ++ [t.est.val.getLsbD 0]) hpopped
    refine ⟨u, hu, hurun, hueoi, hulen, fun turns => ?_⟩
    rw [← Nat.add_assoc, encodeLoop_of_ne_zero hrun hlen, hloop, EncStream.toList_seq_of_ne_zero hlen,
      List.append_assoc]
    rfl

/-- A drained stream with nothing left to push is ended, and then pulled once more. -/
theorem encodeLoop_ends (hsame : SameCode s t) (hrun : t.est.state = .run) (heoi : t.est.eoi = false)
    (hlen : t.est.len = 0) (out : List Bool) : ∃ u, encodeLoop 2 [] out t = .returned out u ∧ SameCode s u := by
  have hasked := hsame.exec (exec_epull_of_drained hrun hlen heoi) nofun rfl (by decide)
  have heend := exec_eend_of_clear (s := t.answered .needInput 0) hrun heoi
  have hended := hasked.exec_ok heend nofun
  refine ⟨_, ?_, hended.exec (exec_epull_of_ended hrun hlen rfl) nofun rfl (by decide)⟩
  rw [encodeLoop_nil_of_drained hrun hlen heoi, issueOk_of_exec heend]
  exact encodeLoop_of_ended (t := okState { t with est := { t.est with eoi := true } } 0) hrun hlen rfl 0 [] out

/-- A drained stream takes the codeword of the next symbol, and the loop goes on. -/
theorem encodeLoop_pushes (hsame : SameCode s t) (hrun : t.est.state = .run) (heoi : t.est.eoi = false)
    (hlen : t.est.len = 0) {a : Sym} {i : Nat} (hfirst : IsFirstIndex s a i) (syms : List Sym) (out : List Bool) :
    ∃ u, SameCode s u ∧ u.est.state = .run ∧ u.est.eoi = false ∧ u.est.seq.toList = codewordBits s.enc i ∧
      ∀ turns, encodeLoop (turns + 1) (a :: syms) out t = encodeLoop turns syms out u := by
  have hasked := hsame.exec (exec_epull_of_drained hrun hlen heoi) nofun rfl (by decide)
  obtain ⟨w, hread, hepush⟩ := exec_epush_of_first hasked.inv hrun heoi hlen (hasked.isFirstIndex hfirst)
  have hbits : codewordBits s.enc i = (codewordSeq w).toList := by rw [← hasked.enc, codewordBits, hread]
  refine ⟨_, hasked.exec_ok hepush nofun, rfl, rfl, hbits.symm, fun turns => ?_⟩
  rw [encodeLoop_cons_of_drained hrun hlen heoi, issueOk_of_exec hepush]

/-- From a running stream the loop returns the waiting bits, then the codewords of the symbols. -/
theorem encodeLoop_returns {input : List (Sym × Nat)} (hinput : ∀ p ∈ input, IsFirstIndex s p.1 p.2)
    (hsame : SameCode s t) (hrun : t.est.state = .run) (heoi : t.est.eoi = false) (out : List Bool) :
    ∃ turns u, encodeLoop turns (input.map Prod.fst) out t =
      .returned (out ++ t.est.seq.toList ++ input.flatMap fun p => codewordBits s.enc p.2) u ∧ SameCode s u := by
  induction input generalizing t out with
  | nil =>
    obtain ⟨t₁, hsame₁, hrun₁, heoi₁, hlen₁, hdrain⟩ := encodeLoop_drains hsame hrun heoi [] out
    obtain ⟨u, hend, hu⟩ := encodeLoop_ends hsame₁ hrun₁ heoi₁ hlen₁ (out ++ t.est.seq.toList)
    exact ⟨_, u, by rw [List.map_nil, hdrain, hend, List.flatMap_nil, List.append_nil], hu⟩
  | cons p input ih =>
    obtain ⟨hfirst, hrest⟩ := List.forall_mem_cons.mp hinput
    obtain ⟨t₁, hsame₁, hrun₁, heoi₁, hlen₁, hdrain⟩ :=
      encodeLoop_drains hsame hrun heoi (p.1 :: input.map Prod.fst) out
    obtain ⟨t₂, hsame₂, hrun₂, heoi₂, hbits, hpush⟩ := encodeLoop_pushes hsame₁ hrun₁ heoi₁ hlen₁ hfirst
      (input.map Prod.fst) (out ++ t.est.seq.toList)
    obtain ⟨turns, u, hloop, hu⟩ := ih hrest hsame₂ hrun₂ heoi₂ (out ++ t.est.seq.toList)
    refine ⟨turns + 1 + t.est.len.toNat, u, ?_, hu⟩
    rw [List.map_cons, hdrain, hpush, hloop, hbits, List.flatMap_cons, List.append_assoc _ (codewordBits _ _)]

end EncodeLoop

/-- `encode_all` returns the codewords of its symbols and keeps the code. -/
theorem encodeAll_returns {s : State} (hi : BlockInv s) (hready : s.phase = .ready) {input : List (Sym × Nat)}
    (hinput : ∀ p ∈ input, IsFirstIndex s p.1 p.2) :
    ∃ turns t, encodeAll turns (input.map Prod.fst) s =
      .returned (input.flatMap fun p => codewordBits s.enc p.2) t ∧ SameCode s t := by
  have hopen := exec_eopen_of_ready hready
  obtain ⟨turns, t, hloop, ht⟩ :=
    encodeLoop_returns hinput ((SameCode.refl hi hready).exec_ok hopen nofun) rfl rfl []
  refine ⟨turns, t, ?_, ht⟩
  rw [encodeAll, issueOk_of_exec hopen, hloop]
  rfl

/-- Settles O48: by induction on the symbols; each is pushed once the codeword before it is drained. -/
theorem encodeAllConcatenatesCodewords : Obligations.EncodeAllConcatenatesCodewords := by
  intro s input hi hready hinput
  obtain ⟨turns, t, hreturned, ht⟩ := encodeAll_returns hi hready hinput
  exact ⟨turns, t, hreturned, ht.enc, ht.load, ht.err⟩

end Sys2Proof.Machine

/-!
The decoder (44_decoder.md R230 to R238) and the host procedure `decode_all` (70_reset_and_hazards.md R344): one edge of
the tree for each bit, one symbol for each leaf, and the round trips with `encode_all`.
-/

namespace Sys2Proof.Machine

/-! ## The rules of the decoder at each kind of node (R231 to R233) -/

theorem BlockInv.fetch_node_of_read {s : State} (hi : BlockInv s) (hready : s.phase = .ready) {k : Nat} {rec : Node}
    (hread : Mem.read s.enc.node k = some rec) : fetch Params.hfc .node s.enc.node k = .ok rec := by
  have ok := hi.readyPhase hready
  have hlt := ok.tree.lt_of_read hread
  obtain ⟨rec', hfetch, hread'⟩ := hi.node_read hready (k := k) (by rw [ok.nnodes]; exact hlt)
  obtain rfl := Option.some.inj (hread.symm.trans hread')
  exact hfetch

section AtNode

variable {s : State} (hi : BlockInv s) (hactive : s.dst.Active)

include hi hactive

theorem fetch_cur_of_active {rec : Node} (hread : Mem.read s.enc.node s.dst.cur.toNat = some rec) :
    fetch Params.hfc .node s.enc.node s.dst.cur.toNat = .ok rec :=
  hi.fetch_node_of_read (hi.ready_of_dst hactive.ne_closed) hread

/-- R231: the bit chooses the child. -/
theorem exec_dpush_of_internal (heoi : s.dst.eoi = false) {left right : NodeIdx} {weight : NodeWeight}
    (hread : Mem.read s.enc.node s.dst.cur.toNat = some (.internal left right weight)) (b : Bool) :
    exec (.dpush (BitVec.ofBool b)) s = .next
      (okState { s with dst := { state := .trav, eoi := false, cur := if b then right else left } } 0) := by
  refine execDpush_next.mpr (.inr ⟨hactive, heoi, _, fetch_cur_of_active hi hactive hread,
    .inr ⟨left, right, weight, rfl, ?_⟩⟩)
  simp only [heoi]
  cases b <;> rfl

/-- R233: the symbol of a leaf is at the leaf's own index. -/
theorem exec_dpull_of_leaf {index : AlphaIdx} {weight : NodeWeight}
    (hread : Mem.read s.enc.node s.dst.cur.toNat = some (.leaf index weight)) :
    ∃ a, Mem.read s.load.amem index.toNat = some a ∧ exec .dpull s = .next
      (okState { s with dst := { s.dst with state := .atRoot, cur := s.enc.root } } (a.setWidth 64)) := by
  obtain ⟨hindex, -, a, hfetch, ha⟩ := hi.leaf_symbol (hi.ready_of_dst hactive.ne_closed) hread
  rw [← hindex] at hfetch ha
  exact ⟨a, ha, execDpull_next.mpr (.inr (.inr ⟨hactive, _, fetch_cur_of_active hi hactive hread,
    .inl ⟨index, weight, a, rfl, hfetch, rfl⟩⟩))⟩

theorem exec_dpull_of_ended {left right : NodeIdx} {weight : NodeWeight} (heoi : s.dst.eoi = true)
    (hread : Mem.read s.enc.node s.dst.cur.toNat = some (.internal left right weight)) :
    exec .dpull s = .next (Of.State.answered { s with dst := { s.dst with state := .exh } } .endOfSeq 0) :=
  execDpull_next.mpr (.inr (.inr ⟨hactive, _, fetch_cur_of_active hi hactive hread,
    .inr ⟨left, right, weight, rfl, .inl ⟨heoi, rfl⟩⟩⟩))

theorem exec_dpull_of_internal {left right : NodeIdx} {weight : NodeWeight} (heoi : s.dst.eoi = false)
    (hread : Mem.read s.enc.node s.dst.cur.toNat = some (.internal left right weight)) :
    exec .dpull s = .next (s.answered .needInput 0) :=
  execDpull_next.mpr (.inr (.inr ⟨hactive, _, fetch_cur_of_active hi hactive hread,
    .inr ⟨left, right, weight, rfl, .inr ⟨heoi, rfl⟩⟩⟩))

end AtNode

theorem exec_dopen_of_ready {s : State} (hready : s.phase = .ready) :
    exec .dopen s = .next (okState { s with dst := { state := .atRoot, eoi := false, cur := s.enc.root } } 0) :=
  execDopen_next.mpr (.inr ⟨hready, rfl⟩)

theorem exec_dend_of_clear {s : State} (hactive : s.dst.Active) (heoi : s.dst.eoi = false) :
    exec .dend s = .next (okState { s with dst := { s.dst with eoi := true } } 0) :=
  execDend_next.mpr (.inr ⟨hactive, heoi, rfl⟩)

/-- Settles O49: the record of `D_CUR` is read, and no child is the root. -/
theorem dpushTakesOneEdge : Obligations.DpushTakesOneEdge := by
  intro s left right weight hi hactive heoi hread
  have hready := hi.ready_of_dst (Of.DecStream.Active.ne_closed hactive)
  obtain ⟨hleft, hright, -, -⟩ := (hi.readyPhase hready).children hread
  exact ⟨exec_dpush_of_internal hi hactive heoi hread false, exec_dpush_of_internal hi hactive heoi hread true,
    hleft, hright⟩

/-- Settles O50: the branches of the rule of `DPULL`. -/
theorem dpullDeliversTheSymbolOrEnds : Obligations.DpullDeliversTheSymbolOrEnds := fun _ hi =>
  ⟨fun _ _ hactive hread => exec_dpull_of_leaf hi hactive hread,
    fun _ _ _ hactive hread => ⟨fun heoi => exec_dpull_of_ended hi hactive heoi hread,
      fun heoi => exec_dpull_of_internal hi hactive heoi hread⟩,
    fun hexh => execDpull_next.mpr (.inr (.inl ⟨hexh, rfl⟩))⟩

/-! ## The decoder of one symbol (R237) -/

theorem setWidth_setWidth_sym (a : Sym) : ((a.setWidth 64 : Data).setWidth 8 : Sym) = a := by
  rw [BitVec.setWidth_setWidth_of_le _ (by decide), BitVec.setWidth_eq]

section OneSymbol

variable {s : State} (hi : BlockInv s) (hready : s.phase = .ready) (hn : s.enc.n = 1) (hopen : s.dst.state ≠ .closed)

include hi hready hn hopen

/-- The one node of the tree is the root and a leaf, so the stream neither leaves it nor is exhausted. -/
theorem atRoot_of_single : s.dst.state = .atRoot ∧ s.dst.cur = s.enc.root ∧
    ∃ weight, Mem.read s.enc.node s.dst.cur.toNat = some (.leaf 0 weight) := by
  have ok := hi.readyPhase hready
  have hone : s.enc.n.toNat = 1 := congrArg BitVec.toNat hn
  have hroot : s.enc.root.toNat = 0 := by rw [ok.root, hone]
  have hcur : s.dst.cur.toNat = 0 := by
    have := hi.decStream.cur_lt hopen
    have := ok.nnodes
    omega
  have heq : s.dst.cur = s.enc.root := BitVec.eq_of_toNat_eq (hcur.trans hroot.symm)
  obtain ⟨w, -, hleaf⟩ := ok.tree.leaf 0 (by omega)
  have hleaf' : Mem.read s.enc.node s.dst.cur.toNat = some (.leaf 0 (w.setWidth 40)) := by rw [hcur]; exact hleaf
  refine ⟨?_, heq, _, hleaf'⟩
  cases hstate : s.dst.state with
  | closed => exact absurd hstate hopen
  | atRoot => rfl
  | trav => exact absurd heq (hi.decStream.trav hstate)
  | exh =>
    obtain ⟨-, left, right, weight, hinternal⟩ := hi.decStream.exh hstate
    cases hleaf'.symm.trans hinternal

theorem exec_dpull_of_single : ∃ a, Mem.read s.load.amem 0 = some a ∧
    exec .dpull s = .next (okState s (a.setWidth 64)) := by
  obtain ⟨hstate, hcur, weight, hread⟩ := atRoot_of_single hi hready hn hopen
  obtain ⟨a, ha, hpull⟩ := exec_dpull_of_leaf hi (.inl hstate) hread
  rw [← hcur, ← hstate] at hpull
  exact ⟨a, ha, hpull⟩

theorem pullSymbols_of_single {a : Sym} (ha : Mem.read s.load.amem 0 = some a) (k : Nat) (out : List Sym) :
    ∃ t, pullSymbols k out s = .returned (out ++ List.replicate k a) t := by
  induction k generalizing s out with
  | zero => exact ⟨s, by simp [pullSymbols]⟩
  | succ k ih =>
    obtain ⟨a', ha', hpull⟩ := exec_dpull_of_single hi hready hn hopen
    obtain rfl := Option.some.inj (ha.symm.trans ha')
    obtain ⟨t, ht⟩ := ih (s := okState s (a.setWidth 64)) (hi.answered .ok _ fun h => absurd rfl h) hready hn hopen ha
      (out ++ [a])
    refine ⟨t, ?_⟩
    rw [pullSymbols, issue_of_exec hpull rfl]
    simp only [if_true, setWidth_setWidth_sym, ht, List.append_assoc, List.singleton_append, List.replicate_succ]

end OneSymbol

/-- Settles O51: `DPULL` at the one leaf returns the stream to where it is, and `DPUSH` at a leaf is refused. -/
theorem oneSymbolDecoderRepeatsTheSymbol : Obligations.OneSymbolDecoderRepeatsTheSymbol := by
  intro s hi hready hn hopen
  obtain ⟨hstate, hcur, weight, hread⟩ := atRoot_of_single hi hready hn hopen
  obtain ⟨a, ha, hpull⟩ := exec_dpull_of_single hi hready hn hopen
  have hrefused := fun b => pushRefusesInOrder.2 s b hi (.inl hstate)
  exact ⟨a, ha, hstate, hcur, hpull, fun k => pullSymbols_of_single hi hready hn hopen ha k [],
    fun b heoi => (hrefused b).2 0 weight heoi hread, fun b heoi => (hrefused b).1 heoi⟩

/-! ## The loop of `decode_all` (R344) -/

theorem symbolAt_of_read {s : State} {i : Nat} {a : Sym} (h : Mem.read s.load.amem i = some a) : symbolAt s i = a := by
  simp [symbolAt, h]

/-- In state `t` the decoder of the code of `s` runs and takes bits. -/
structure Decoding (s t : State) : Prop where
  same : SameCode s t
  active : t.dst.Active
  eoi : t.dst.eoi = false

section DecodeLoop

variable {s t : State}

/-- At an internal node the loop pulls in vain and is asked for input. -/
theorem Decoding.asked (h : Decoding s t) {left right : NodeIdx} {weight : NodeWeight}
    (hread : Mem.read s.enc.node t.dst.cur.toNat = some (.internal left right weight)) :
    issue .dpull t = some ({ st := .needInput, data := 0 }, t.answered .needInput 0) ∧
      Decoding s (t.answered .needInput 0) := by
  rw [← h.same.enc] at hread
  have hpull := exec_dpull_of_internal h.same.inv h.active h.eoi hread
  exact ⟨issue_of_exec hpull rfl, h.same.exec hpull nofun rfl (by decide), h.active, h.eoi⟩

/-- A waiting bit is pushed and takes the edge to its child. -/
theorem decodeLoop_pushes (h : Decoding s t) {left right : NodeIdx} {weight : NodeWeight}
    (hread : Mem.read s.enc.node t.dst.cur.toNat = some (.internal left right weight)) (b : Bool) :
    ∃ u, Decoding s u ∧ u.dst.cur = (if b then right else left) ∧ ∀ turns bits out,
      decodeLoop (turns + 1) (b :: bits) out t = decodeLoop turns bits out u := by
  obtain ⟨hissue, hasked⟩ := h.asked hread
  have hpush := exec_dpush_of_internal hasked.same.inv hasked.active hasked.eoi
    (by rw [hasked.same.enc]; exact hread) b
  refine ⟨_, ⟨hasked.same.exec_ok hpush nofun, .inr rfl, rfl⟩, rfl, fun turns bits out => ?_⟩
  rw [decodeLoop, hissue]
  exact issueOk_of_exec hpush _

/-- The bits of a path lead to its end, one a turn. -/
theorem decodeLoop_follows (h : Decoding s t) {path : List Bool} {c : NodeIdx}
    (hpath : follow s.enc.node t.dst.cur path = some c) :
    ∃ u, Decoding s u ∧ u.dst.cur = c ∧ ∀ turns bits out,
      decodeLoop (turns + path.length) (path ++ bits) out t = decodeLoop turns bits out u := by
  induction path generalizing t with
  | nil => exact ⟨t, h, Option.some.inj hpath, fun _ _ _ => rfl⟩
  | cons b path ih =>
    obtain ⟨left, right, weight, hread, hrest⟩ := follow_cons_some hpath
    obtain ⟨t₁, h₁, hcur₁, hpush⟩ := decodeLoop_pushes h hread b
    obtain ⟨u, hu, hcur, hwalk⟩ := ih h₁ (by rw [hcur₁]; exact hrest)
    refine ⟨u, hu, hcur, fun turns bits out => ?_⟩
    rw [List.length_cons, ← Nat.add_assoc, List.cons_append, hpush, hwalk]

/-- At a leaf the loop pulls the symbol and is back at the root. -/
theorem decodeLoop_delivers (h : Decoding s t) {i : Nat} {index : AlphaIdx} {weight : NodeWeight}
    (hcur : t.dst.cur.toNat = i) (hread : Mem.read s.enc.node i = some (.leaf index weight)) :
    ∃ u, Decoding s u ∧ u.dst.cur = s.enc.root ∧ ∀ turns bits out,
      decodeLoop (turns + 1) bits out t = decodeLoop turns bits (out ++ [symbolAt s i]) u := by
  subst hcur
  rw [← h.same.enc] at hread
  obtain ⟨a, ha, hpull⟩ := exec_dpull_of_leaf h.same.inv h.active hread
  have hsym : symbolAt s t.dst.cur.toNat = a := by
    rw [(h.same.inv.leaf_symbol h.same.ready hread).1, h.same.load] at ha
    exact symbolAt_of_read ha
  refine ⟨_, ⟨h.same.exec_ok hpull nofun, .inl rfl, h.eoi⟩, congrArg Of.Encoding.root h.same.enc,
    fun turns bits out => ?_⟩
  rw [decodeLoop, issue_of_exec hpull rfl]
  simp only [setWidth_setWidth_sym, hsym]

/-- From the root the bits of a codeword give its symbol. -/
theorem decodeLoop_decodes (h : Decoding s t) (hcur : t.dst.cur = s.enc.root) (ok : EncodingOk s.load s.enc) {i : Nat}
    (hin : i < s.enc.n.toNat) : ∃ u, Decoding s u ∧ u.dst.cur = s.enc.root ∧ ∀ turns bits out,
      decodeLoop (turns + 1 + (codewordBits s.enc i).length) (codewordBits s.enc i ++ bits) out t =
        decodeLoop turns bits (out ++ [symbolAt s i]) u := by
  obtain ⟨weight, hpath, hleaf, -⟩ := ok.codeword_path hin
  obtain ⟨t₁, h₁, hcur₁, hwalk⟩ := decodeLoop_follows h (by rw [hcur]; exact hpath)
  obtain ⟨u, hu, hroot, hpull⟩ := decodeLoop_delivers h₁ (by rw [hcur₁]; exact ok.toNat_idx hin) hleaf
  exact ⟨u, hu, hroot, fun turns bits out => by rw [hwalk, hpull]⟩

/-- At an internal node, with no bit left, the stream is ended and then pulled once more. -/
theorem decodeLoop_ends (h : Decoding s t) {left right : NodeIdx} {weight : NodeWeight}
    (hread : Mem.read s.enc.node t.dst.cur.toNat = some (.internal left right weight)) (out : List Sym) :
    ∃ u, decodeLoop 2 [] out t = .returned out u ∧ SameCode s u ∧ u.dst.state = .exh ∧ u.dst.cur = t.dst.cur := by
  obtain ⟨hissue, hasked⟩ := h.asked hread
  have hdend := exec_dend_of_clear hasked.active hasked.eoi
  have hended := hasked.same.exec_ok hdend nofun
  have hpull := exec_dpull_of_ended hended.inv hasked.active rfl (by rw [hended.enc]; exact hread)
  refine ⟨_, ?_, hended.exec hpull nofun rfl (by decide), rfl, rfl⟩
  rw [decodeLoop, hissue]
  refine (issueOk_of_exec hdend _).trans ?_
  rw [decodeLoop, issue_of_exec hpull rfl]

/-- A proper beginning of a codeword leads to an internal node. -/
theorem EncodingOk.internal_of_proper_beginning {l : LoadState} {e : Encoding} (ok : EncodingOk l e) {j : Nat}
    (hj : j < e.n.toNat) {tail rest : List Bool} (hrest : rest ≠ []) (hcode : codewordBits e j = tail ++ rest) :
    ∃ c left right weight, follow e.node e.root tail = some c ∧
      Mem.read e.node c.toNat = some (.internal left right weight) := by
  obtain ⟨-, hpath, -, -⟩ := ok.codeword_path hj
  rw [hcode, follow_append] at hpath
  obtain ⟨c, htail, hafter⟩ := Option.bind_eq_some_iff.mp hpath
  obtain ⟨b, bs, rfl⟩ := List.exists_cons_of_ne_nil hrest
  obtain ⟨left, right, weight, hread, -⟩ := follow_cons_some hafter
  exact ⟨c, left, right, weight, htail, hread⟩

/-- From the root the loop returns the symbols of the codewords, and stops at the end of the tail. -/
theorem decodeLoop_returns (ok : EncodingOk s.load s.enc) {bits tail : List Bool} {indices : List Nat}
    (hsplit : SplitsAs s.enc bits indices tail) (h : Decoding s t) (hcur : t.dst.cur = s.enc.root) (out : List Sym) :
    ∃ turns u, decodeLoop turns bits out t = .returned (out ++ indices.map (symbolAt s)) u ∧ SameCode s u ∧
      u.dst.state = .exh ∧ follow s.enc.node s.enc.root tail = some u.dst.cur := by
  induction indices generalizing bits t out with
  | nil =>
    obtain ⟨rfl, j, rest, hj, hrest, hcode⟩ := splitsAs_nil_iff.mp hsplit
    obtain ⟨c, left, right, weight, htail, hread⟩ := ok.internal_of_proper_beginning hj hrest hcode
    obtain ⟨t₁, h₁, rfl, hwalk⟩ := decodeLoop_follows h (by rw [hcur]; exact htail)
    obtain ⟨u, hend, hu, hexh, hstop⟩ := decodeLoop_ends h₁ hread out
    refine ⟨2 + bits.length, u, ?_, hu, hexh, by rw [hstop]; exact htail⟩
    have hloop := hwalk 2 [] out
    rw [List.append_nil] at hloop
    rw [hloop, hend, List.map_nil, List.append_nil]
  | cons i indices ih =>
    obtain ⟨hin, bits, rfl, hsplit'⟩ := splitsAs_cons_iff.mp hsplit
    obtain ⟨t₁, h₁, hcur₁, hdecode⟩ := decodeLoop_decodes h hcur ok hin
    obtain ⟨turns, u, hloop, hu⟩ := ih hsplit' h₁ hcur₁ (out ++ [symbolAt s i])
    refine ⟨_, u, (hdecode turns bits out).trans ?_, hu⟩
    rw [hloop, List.append_assoc, List.singleton_append, List.map_cons]

end DecodeLoop

/-- `decode_all` returns the symbols of the codewords a bit string splits into, and keeps the code. -/
theorem decodeAll_returns {s : State} (hi : BlockInv s) (hready : s.phase = .ready) {bits tail : List Bool}
    {indices : List Nat} (hsplit : SplitsAs s.enc bits indices tail) :
    ∃ turns t, decodeAll turns bits s = .returned (indices.map (symbolAt s)) t ∧ SameCode s t ∧
      t.dst.state = .exh ∧ follow s.enc.node s.enc.root tail = some t.dst.cur := by
  have hopen := exec_dopen_of_ready hready
  have hstart : Decoding s _ := ⟨(SameCode.refl hi hready).exec_ok hopen nofun, .inl rfl, rfl⟩
  obtain ⟨turns, t, hloop, ht⟩ := decodeLoop_returns (hi.readyPhase hready) hsplit hstart rfl []
  refine ⟨turns, t, ?_, ht⟩
  rw [decodeAll, issueOk_of_exec hopen, hloop, List.nil_append]

/-! ## Splitting a bit string -/

/-- A tail is at most one bit short of the longest codeword (R236). -/
theorem EncodingOk.length_tail_le {l : LoadState} {e : Encoding} (ok : EncodingOk l e) {bits tail : List Bool}
    {indices : List Nat} (hsplit : SplitsAs e bits indices tail) : tail.length ≤ 56 := by
  obtain ⟨-, -, j, rest, hj, hrest, hcode⟩ := hsplit
  obtain ⟨-, -, -, hlen⟩ := ok.codeword_path hj
  have hpos := List.length_pos_of_ne_nil hrest
  rw [hcode, List.length_append] at hlen
  omega

/-- Codewords split into themselves, with nothing left: with two or more symbols the empty string is a proper beginning
of a codeword. -/
theorem EncodingOk.splitsAs_codewords {l : LoadState} {e : Encoding} (ok : EncodingOk l e) (h2 : 2 ≤ e.n.toNat)
    {indices : List Nat} (hin : ∀ i ∈ indices, i < e.n.toNat) :
    SplitsAs e (indices.flatMap (codewordBits e)) indices [] := by
  have h0 : 0 < e.n.toNat := by omega
  exact ⟨hin, (List.append_nil _).symm, 0, _, h0, ok.codewordBits_ne_nil h2 h0, rfl⟩

/-- Settles O52: the loop decodes the codewords one by one and stops where the tail leads, which is the root only for the
empty tail, since a node lies on one path. -/
theorem decodeAllSplitsEveryBitString : Obligations.DecodeAllSplitsEveryBitString := by
  intro s bits hi hready h2
  have ok := hi.readyPhase hready
  obtain ⟨indices, tail, hsplit⟩ := ok.exists_splitsAs h2 bits
  obtain ⟨turns, t, hreturned, ht, hexh, hstop⟩ := decodeAll_returns hi hready hsplit
  refine ⟨indices, tail, turns, t, hsplit, ok.length_tail_le hsplit, hreturned, hexh, ⟨fun hcur => ?_, ?_⟩,
    ht.enc, ht.load, ht.err⟩
  · rw [hcur] at hstop
    exact ok.tree.path_unique ok.root ok.n_pos hstop (follow_nil ..)
  · rintro rfl
    exact (Option.some.inj hstop).symm

/-! ## The round trips (R238) -/

theorem IsFirstIndex.symbolAt_eq {s : State} {a : Sym} {i : Nat} (h : IsFirstIndex s a i) : symbolAt s i = a := by
  obtain ⟨-, hread, -⟩ := h
  exact symbolAt_of_read hread

/-- In an alphabet of different symbols each index is the first of its symbol. -/
theorem DistinctAlphabet.isFirstIndex {s : State} (hdistinct : DistinctAlphabet s) (hi : BlockInv s)
    (hready : s.phase = .ready) {i : Nat} (hin : i < s.enc.n.toNat) : IsFirstIndex s (symbolAt s i) i := by
  obtain ⟨a, -, hread⟩ := hi.amem_read hready hin
  rw [symbolAt_of_read hread]
  exact ⟨hin, hread, fun j hj hreadj => hdistinct j i (by omega) hin (by omega) (hreadj.trans hread.symm)⟩

theorem SameCode.symbolAt_eq {s t : State} (h : SameCode s t) : symbolAt t = symbolAt s := by
  funext i
  rw [symbolAt, symbolAt, h.load]

/-- Settles O53: the encoder gives the codewords of the first indices, and these split into themselves. -/
theorem decodingTheEncodedGivesTheSymbols : Obligations.DecodingTheEncodedGivesTheSymbols := by
  intro s syms hi hready h2 hsyms
  choose! index hindex using hsyms
  have hinput : ∀ p ∈ syms.map fun a => (a, index a), IsFirstIndex s p.1 p.2 :=
    List.forall_mem_map.mpr hindex
  obtain ⟨turns, t, hencode, ht⟩ := encodeAll_returns hi hready hinput
  have hin : ∀ i ∈ syms.map index, i < t.enc.n.toNat := by
    rw [ht.enc]
    exact List.forall_mem_map.mpr fun a ha => (hindex a ha).1
  have hsplit := (ht.inv.readyPhase ht.ready).splitsAs_codewords (by rw [ht.enc]; exact h2) hin
  obtain ⟨turns', u, hdecode, -⟩ := decodeAll_returns ht.inv ht.ready hsplit
  have hback : (syms.map index).map (symbolAt t) = syms := by
    rw [ht.symbolAt_eq, List.map_map]
    exact (List.map_congr_left fun a ha => (hindex a ha).symbolAt_eq).trans (List.map_id syms)
  rw [hback, ht.enc, List.flatMap_map] at hdecode
  have hfst : (syms.map fun a => (a, index a)).map Prod.fst = syms := by simp [Function.comp_def]
  rw [hfst, List.flatMap_map] at hencode
  exact ⟨turns, _, t, turns', u, hencode, hdecode⟩

/-- Settles O54: the decoder gives the symbols of the indices, and each index is the first of its symbol. -/
theorem encodingTheDecodedGivesTheBits : Obligations.EncodingTheDecodedGivesTheBits := by
  intro s indices hi hready h2 hdistinct hin
  have hsplit := (hi.readyPhase hready).splitsAs_codewords h2 hin
  obtain ⟨turns, t, hdecode, ht, -⟩ := decodeAll_returns hi hready hsplit
  have hinput : ∀ p ∈ indices.map fun i => (symbolAt s i, i), IsFirstIndex t p.1 p.2 :=
    List.forall_mem_map.mpr fun i hmem => ht.isFirstIndex (hdistinct.isFirstIndex hi hready (hin i hmem))
  obtain ⟨turns', u, hencode, -⟩ := encodeAll_returns ht.inv ht.ready hinput
  rw [List.map_map, List.flatMap_map, ht.enc] at hencode
  exact ⟨turns, _, t, turns', u, hdecode, hencode⟩

end Sys2Proof.Machine

/-!
The system and inspection commands (45_system.md R260 to R264): `NOP` and `CLR` in every state, and the words that `RDN`
and `RDC` read out of an Encoding.
-/

namespace Sys2Proof.Machine

/-! ## The fields of a node word (R93) -/

theorem nodeWord_leaf_fields (index : AlphaIdx) (weight : NodeWeight) :
    (nodeWord (.leaf index weight : Node) : Data).extractLsb' 63 1 = 0 ∧
    (nodeWord (.leaf index weight : Node) : Data).extractLsb' 58 5 = 0 ∧
    (nodeWord (.leaf index weight : Node) : Data).extractLsb' 49 9 = 0 ∧
    (nodeWord (.leaf index weight : Node) : Data).extractLsb' 48 1 = 0 ∧
    (nodeWord (.leaf index weight : Node) : Data).extractLsb' 40 8 = index ∧
    (nodeWord (.leaf index weight : Node) : Data).extractLsb' 0 40 = weight := by
  simp (disch := decide) only [nodeWord, BitVec.extractLsb'_setWidth_of_le, BitVec.extractLsb'_append_eq_of_add_le,
    BitVec.extractLsb'_append_eq_of_le, extractLsb'_of_ge, Nat.reduceSub, BitVec.extractLsb'_eq_self, and_self]

/-- The tag of an internal node is a word of its own, which is 0 at the other fields. -/
theorem nodeTag_fields : (BitVec.twoPow 64 63).extractLsb' 63 1 = 1 ∧ (BitVec.twoPow 64 63).extractLsb' 58 5 = 0 ∧
    (BitVec.twoPow 64 63).extractLsb' 49 9 = 0 ∧ (BitVec.twoPow 64 63).extractLsb' 40 9 = 0 ∧
    (BitVec.twoPow 64 63).extractLsb' 0 40 = 0 := by decide

theorem nodeWord_internal_fields (left right : NodeIdx) (weight : NodeWeight) :
    (nodeWord (.internal left right weight : Node) : Data).extractLsb' 63 1 = 1 ∧
    (nodeWord (.internal left right weight : Node) : Data).extractLsb' 58 5 = 0 ∧
    (nodeWord (.internal left right weight : Node) : Data).extractLsb' 49 9 = left ∧
    (nodeWord (.internal left right weight : Node) : Data).extractLsb' 40 9 = right ∧
    (nodeWord (.internal left right weight : Node) : Data).extractLsb' 0 40 = weight := by
  simp (disch := decide) only [nodeWord, BitVec.extractLsb'_or, nodeTag_fields, BitVec.extractLsb'_setWidth_of_le,
    BitVec.extractLsb'_append_eq_of_add_le, BitVec.extractLsb'_append_eq_of_le, extractLsb'_of_ge, Nat.reduceSub,
    BitVec.extractLsb'_eq_self, BitVec.ofNat_eq_ofNat, BitVec.or_zero, BitVec.zero_or, and_self]

/-! ## Reading out a node record (R263) -/

/-- R263: below `NNODES` the record can be read, and `RDN` answers its node word. -/
theorem BlockInv.exec_rdn {s : State} (hi : BlockInv s) (hready : s.phase = .ready) {k : NodeIdx}
    (hk : k.toNat < s.enc.nnodes.toNat) :
    ∃ rec, Mem.read s.enc.node k.toNat = some rec ∧ exec (.rdn k) s = .next (okState s (nodeWord rec)) := by
  obtain ⟨rec, hfetch, hread⟩ := hi.node_read hready hk
  exact ⟨rec, hread, execRdn_next.mpr (.inr (.inr ⟨hready, hk, rec, hfetch, rfl⟩))⟩

/-! ## The obligations -/

/-- Settles O16: the answer is the node word of the record, whose fields are those of the record's variant. -/
theorem rdnAnswersTheNodeWord : Obligations.RdnAnswersTheNodeWord := by
  intro s k hi hready hk
  obtain ⟨rec, hread, hexec⟩ := hi.exec_rdn hready hk
  refine ⟨rec, nodeWord rec, hread, hexec, ?_⟩
  cases rec with
  | leaf index weight =>
    obtain ⟨htag, hgap, hleft, hhigh, hindex, hweight⟩ := nodeWord_leaf_fields index weight
    refine ⟨hgap, ?_, nofun⟩
    rintro _ _ ⟨⟩
    exact ⟨htag, hleft, hhigh, hindex, hweight⟩
  | internal left right weight =>
    obtain ⟨htag, hgap, hleft, hright, hweight⟩ := nodeWord_internal_fields left right weight
    refine ⟨hgap, nofun, ?_⟩
    rintro _ _ _ ⟨⟩
    exact ⟨htag, hleft, hright, hweight⟩

/-- Settles O17: the table entry can be read, is a packed codeword of the Encoding, and is the answer of `RDC`. -/
theorem rdcAnswersTheCodeword : Obligations.RdcAnswersTheCodeword := by
  intro s c hi hready hc
  obtain ⟨w, hfetch, hread⟩ := hi.ct_read hready hc
  obtain ⟨-, hlen, -⟩ := (hi.readyPhase hready).entry hread
  exact ⟨w, hread, hlen, execRdc_next.mpr (.inr (.inr ⟨hready, hc, w, hfetch, rfl⟩))⟩

/-- Settles O9: `NOP` needs nothing of the state, and its one branch answers `OK`. -/
theorem nopAnswersOk : Obligations.NopAnswersOk := fun _ => execNop_next.mpr rfl

/-- Settles O10: `CLR` needs nothing of the state, and its one branch is a hardware reset with the answer `OK`. -/
theorem clrLeavesTheResetState : Obligations.ClrLeavesTheResetState := fun _ => execClr_next.mpr rfl

end Sys2Proof.Machine

/-!
The exception rules (60_exceptions.md R290 to R305, 70_reset_and_hazards.md R340, R341): what an error leaves, and the
steps that take no request.
-/

namespace Sys2Proof.Machine

/-! ## The steps that take no request -/

theorem step_of_idle {s : State} (h : s.port.pending = []) : step s = .next s := by
  simp [step, takeEvent_nil h]

theorem step_of_reset {s : State} {abandoned : Option Request} {rest : List HostEvent}
    (h : s.port.pending = .reset abandoned :: rest) : step s = .next (hardwareReset (s.withPending rest)) := by
  simp [step, takeEvent_cons h]

/-! ## What an error leaves -/

/-- The two fields of a request that decodes are those of its command, so the record that `failed` writes is that of the
request as received. -/
theorem fields_of_decode_ok {r : Request} {i : Instr} (h : decode r = .ok i) :
    i.mnemonic.opc = r.opc ∧ i.operand = r.arg := by
  obtain rfl := encode_of_decode_ok h
  exact ⟨(opc_encode i).symm, (arg_encode i).symm⟩

/-- The encoder contexts an error of command `i` with status `st` leaves: the one it found, but for the fault of `EPUSH`
(43_encoder.md R203). -/
inductive EstAfterError (s : State) : Instr → Status → EncStream → Prop where
  | kept (i : Instr) (st : Status) : EstAfterError s i st s.est
  | faulted (a : Sym) :
      EstAfterError s (.epush a) .unknownSymbol { s.est with state := .fault, val := 0, len := 0 }

/-- A command answered with an error ends in `failed`, from a state that differs at most in the encoder's context. -/
theorem Effect.failed_of_error {s t : State} {i : Instr} (h : Effect s i t) {rsp : Response}
    (hrsp : t.port.response = some rsp) (herr : 0x10 ≤ rsp.st.code.toNat) :
    ∃ st est, EstAfterError s i st est ∧ t = Of.State.failed { s with est := est } st i := by
  have hok : ¬ 0x10 ≤ Status.ok.code.toNat := by decide
  cases h with
  | failed st => exact ⟨st, s.est, .kept i st, rfl⟩
  | faulted a => exact ⟨_, _, .faulted a, rfl⟩
  | answered st d hst | decoded st d hst =>
    cases hrsp
    exact absurd herr (of_decide_eq_false hst)
  | cleared | loadedWeight | loadedSymbol | built | encoded =>
    cases hrsp
    exact absurd herr hok

/-! ## The obligations -/

/-- Settles O19: a request that does not decode raises its error on the state as it is; a command answered with an error
has failed, and only the fault of `EPUSH` has written the encoder's context before. -/
theorem errorsArePrecise : Obligations.ErrorsArePrecise := by
  intro r s t rsp h hrsp herr
  cases hd : decode r with
  | error e =>
    rw [command_of_decode_error hd, raise_next] at h
    subst h
    cases hrsp
    exact ⟨rfl, rfl, rfl, rfl, rfl, rfl, rfl, .inl rfl⟩
  | ok i =>
    rw [command_of_decode_ok hd] at h
    obtain ⟨st, est, hest, rfl⟩ := (exec_effect h).failed_of_error hrsp herr
    obtain ⟨hopc, harg⟩ := fields_of_decode_ok hd
    cases hrsp
    refine ⟨rfl, ?_, rfl, rfl, rfl, rfl, rfl, ?_⟩
    · rw [failed_err, hopc, harg]
      rfl
    · cases hest with
      | kept => exact .inl rfl
      | faulted a => exact .inr ⟨⟨a, rfl⟩, rfl, rfl⟩

/-- Settles O7: without an event the step is idle, and a reset event leaves what a hardware reset leaves. -/
theorem idleHoldsAndResetRestores : Obligations.IdleHoldsAndResetRestores :=
  ⟨fun _ => step_of_idle, fun _ _ _ => step_of_reset⟩

end Sys2Proof.Machine

/-!
Liveness (70_reset_and_hazards.md R355, 20_memory.md R66, R67): from a state of the invariant every command answers, for
each word it would read is in use and holds a value. So no step stops, and no run from reset does.
-/

namespace Sys2Proof.Machine

/-! ## The commands answer -/

/-- The load commands write below `NMAX`, where a full memory turns them away (20_memory.md R67). -/
theorem BlockInv.ldw_answers {s : State} (hi : BlockInv s) (w : Weight) : ∃ t, exec (.ldw w) s = .next t := by
  by_cases hload : s.phase = .load
  · obtain hlt | hfull := hi.load.wcnt_le.lt_or_eq
    · exact ⟨_, execLdw_next.mpr (.inr (.inr ⟨hload, hlt, rfl⟩))⟩
    · exact ⟨_, execLdw_next.mpr (.inr (.inl ⟨hload, hfull, rfl⟩))⟩
  · exact ⟨_, execLdw_next.mpr (.inl ⟨hload, rfl⟩)⟩

theorem BlockInv.lda_answers {s : State} (hi : BlockInv s) (a : Sym) : ∃ t, exec (.lda a) s = .next t := by
  by_cases hload : s.phase = .load
  · obtain hlt | hfull := hi.load.acnt_le.lt_or_eq
    · exact ⟨_, execLda_next.mpr (.inr (.inr ⟨hload, hlt, rfl⟩))⟩
    · exact ⟨_, execLda_next.mpr (.inr (.inl ⟨hload, hfull, rfl⟩))⟩
  · exact ⟨_, execLda_next.mpr (.inl ⟨hload, rfl⟩)⟩

/-- The builder reads and writes only words in use: on matching nonempty loads it ends in an Encoding or in a tree that
is too deep (`BuildCommitsAnEncodingOrNothing`). -/
theorem BlockInv.build_answers {s : State} (hi : BlockInv s) : ∃ t, exec .build s = .next t := by
  by_cases hload : s.phase = .load
  · by_cases heq : s.load.wcnt = s.load.acnt
    · by_cases hzero : s.load.wcnt = 0
      · exact ⟨_, execBuild_next.mpr (.inr (.inr (.inl ⟨hload, heq, hzero, rfl⟩)))⟩
      · obtain ⟨e, hexec, -⟩ | hexec := buildCommitsAnEncodingOrNothing s hi hload heq hzero
        · exact ⟨_, hexec⟩
        · exact ⟨_, hexec⟩
    · exact ⟨_, execBuild_next.mpr (.inr (.inl ⟨hload, heq, rfl⟩))⟩
  · exact ⟨_, execBuild_next.mpr (.inl ⟨hload, rfl⟩)⟩

theorem stat_answers (s : State) (r : BitVec 4) : ∃ t, exec (.stat r) s = .next t := by
  cases h : statusRegister s Params.hfc r with
  | some d => exact ⟨_, exec_stat_of_some h⟩
  | none => exact ⟨_, execStat_next.mpr (.inr ⟨h, rfl⟩)⟩

/-- The lookup of a symbol ends, and the table entry of the index it finds can be read (43_encoder.md R200). -/
theorem BlockInv.enc1_answers {s : State} (hi : BlockInv s) (a : Sym) : ∃ t, exec (.enc1 a) s = .next t := by
  by_cases hready : s.phase = .ready
  · obtain ⟨i, -, hfirst⟩ | ⟨-, habsent⟩ := hi.lookup_cases hready a
    · obtain ⟨w, -, hexec⟩ := enc1AnswersTheCodeword.1 s a i hi hready hfirst
      exact ⟨_, hexec⟩
    · exact ⟨_, enc1AnswersTheCodeword.2 s a hi hready habsent⟩
  · exact ⟨_, execEnc1_next.mpr (.inl ⟨hready, rfl⟩)⟩

theorem eopen_answers (s : State) : ∃ t, exec .eopen s = .next t := by
  by_cases hready : s.phase = .ready
  · exact ⟨_, exec_eopen_of_ready hready⟩
  · exact ⟨_, execEopen_next.mpr (.inl ⟨hready, rfl⟩)⟩

theorem BlockInv.epush_answers {s : State} (hi : BlockInv s) (a : Sym) : ∃ t, exec (.epush a) s = .next t := by
  by_cases hrun : s.est.state = .run
  · cases heoi : s.est.eoi with
    | true => exact ⟨_, execEpush_next.mpr (.inl ⟨.inr heoi, rfl⟩)⟩
    | false =>
      by_cases hlen : s.est.len = 0
      · obtain ⟨i, -, hfirst⟩ | ⟨hlookup, -⟩ := hi.lookup_cases (hi.ready_of_est (by simp [hrun])) a
        · obtain ⟨w, -, hexec⟩ := exec_epush_of_first hi hrun heoi hlen hfirst
          exact ⟨_, hexec⟩
        · exact ⟨_, execEpush_next.mpr (.inr (.inr (.inl ⟨hrun, heoi, hlen, hlookup, rfl⟩)))⟩
      · exact ⟨_, execEpush_next.mpr (.inr (.inl ⟨hrun, heoi, hlen, rfl⟩))⟩
  · exact ⟨_, execEpush_next.mpr (.inl ⟨.inl hrun, rfl⟩)⟩

theorem eend_answers (s : State) : ∃ t, exec .eend s = .next t := by
  by_cases hrun : s.est.state = .run
  · cases heoi : s.est.eoi with
    | true => exact ⟨_, execEend_next.mpr (.inl ⟨.inr heoi, rfl⟩)⟩
    | false => exact ⟨_, exec_eend_of_clear hrun heoi⟩
  · exact ⟨_, execEend_next.mpr (.inl ⟨.inl hrun, rfl⟩)⟩

theorem epull_answers (s : State) : ∃ t, exec .epull s = .next t := by
  by_cases hrun : s.est.state = .run
  · by_cases hlen : s.est.len = 0
    · cases heoi : s.est.eoi with
      | true => exact ⟨_, exec_epull_of_ended hrun hlen heoi⟩
      | false => exact ⟨_, exec_epull_of_drained hrun hlen heoi⟩
    · exact ⟨_, exec_epull_of_ne_zero hrun hlen⟩
  · exact ⟨_, execEpull_next.mpr (.inl ⟨hrun, rfl⟩)⟩

theorem dopen_answers (s : State) : ∃ t, exec .dopen s = .next t := by
  by_cases hready : s.phase = .ready
  · exact ⟨_, exec_dopen_of_ready hready⟩
  · exact ⟨_, execDopen_next.mpr (.inl ⟨hready, rfl⟩)⟩

/-- An active decoder stands at a node that can be read (10_state.md R29). -/
theorem BlockInv.cur_read {s : State} (hi : BlockInv s) (hactive : s.dst.Active) :
    ∃ rec, fetch Params.hfc .node s.enc.node s.dst.cur.toNat = .ok rec ∧
      Mem.read s.enc.node s.dst.cur.toNat = some rec :=
  hi.node_read (hi.ready_of_dst hactive.ne_closed) (hi.decStream.cur_lt hactive.ne_closed)

theorem BlockInv.dpush_answers {s : State} (hi : BlockInv s) (b : BitVec 1) : ∃ t, exec (.dpush b) s = .next t := by
  by_cases hactive : s.dst.Active
  · cases heoi : s.dst.eoi with
    | true => exact ⟨_, execDpush_next.mpr (.inl ⟨.inr heoi, rfl⟩)⟩
    | false =>
      obtain ⟨rec, hfetch, -⟩ := hi.cur_read hactive
      cases rec with
      | leaf index weight =>
        exact ⟨_, execDpush_next.mpr (.inr ⟨hactive, heoi, _, hfetch, .inl ⟨index, weight, rfl, rfl⟩⟩)⟩
      | internal left right weight =>
        exact ⟨_, execDpush_next.mpr (.inr ⟨hactive, heoi, _, hfetch, .inr ⟨left, right, weight, rfl, rfl⟩⟩)⟩
  · exact ⟨_, execDpush_next.mpr (.inl ⟨.inl hactive, rfl⟩)⟩

theorem dend_answers (s : State) : ∃ t, exec .dend s = .next t := by
  by_cases hactive : s.dst.Active
  · cases heoi : s.dst.eoi with
    | true => exact ⟨_, execDend_next.mpr (.inl ⟨.inr heoi, rfl⟩)⟩
    | false => exact ⟨_, exec_dend_of_clear hactive heoi⟩
  · exact ⟨_, execDend_next.mpr (.inl ⟨.inl hactive, rfl⟩)⟩

theorem BlockInv.dpull_answers_of_active {s : State} (hi : BlockInv s) (hactive : s.dst.Active) :
    ∃ t, exec .dpull s = .next t := by
  obtain ⟨rec, -, hread⟩ := hi.cur_read hactive
  cases rec with
  | leaf index weight =>
    obtain ⟨a, -, hexec⟩ := exec_dpull_of_leaf hi hactive hread
    exact ⟨_, hexec⟩
  | internal left right weight =>
    cases heoi : s.dst.eoi with
    | true => exact ⟨_, exec_dpull_of_ended hi hactive heoi hread⟩
    | false => exact ⟨_, exec_dpull_of_internal hi hactive heoi hread⟩

theorem BlockInv.dpull_answers {s : State} (hi : BlockInv s) : ∃ t, exec .dpull s = .next t := by
  cases hstate : s.dst.state with
  | closed => exact ⟨_, execDpull_next.mpr (.inl ⟨hstate, rfl⟩)⟩
  | exh => exact ⟨_, execDpull_next.mpr (.inr (.inl ⟨hstate, rfl⟩))⟩
  | atRoot => exact hi.dpull_answers_of_active (.inl hstate)
  | trav => exact hi.dpull_answers_of_active (.inr hstate)

/-- The range check of a read-out turns away every index not in use (45_system.md R263, R264). -/
theorem BlockInv.rdn_answers {s : State} (hi : BlockInv s) (k : NodeIdx) : ∃ t, exec (.rdn k) s = .next t := by
  by_cases hready : s.phase = .ready
  · obtain hlt | hge := Nat.lt_or_ge k.toNat s.enc.nnodes.toNat
    · obtain ⟨rec, -, hexec⟩ := hi.exec_rdn hready hlt
      exact ⟨_, hexec⟩
    · exact ⟨_, execRdn_next.mpr (.inr (.inl ⟨hready, hge, rfl⟩))⟩
  · exact ⟨_, execRdn_next.mpr (.inl ⟨hready, rfl⟩)⟩

theorem BlockInv.rdc_answers {s : State} (hi : BlockInv s) (c : AlphaIdx) : ∃ t, exec (.rdc c) s = .next t := by
  by_cases hready : s.phase = .ready
  · obtain hlt | hge := Nat.lt_or_ge c.toNat s.enc.n.toNat
    · obtain ⟨w, -, -, hexec⟩ := rdcAnswersTheCodeword s c hi hready hlt
      exact ⟨_, hexec⟩
    · exact ⟨_, execRdc_next.mpr (.inr (.inl ⟨hready, hge, rfl⟩))⟩
  · exact ⟨_, execRdc_next.mpr (.inl ⟨hready, rfl⟩)⟩

theorem BlockInv.exec_answers {s : State} (hi : BlockInv s) (i : Instr) : ∃ t, exec i s = .next t := by
  cases i with
  | nop => exact ⟨_, nopAnswersOk s⟩
  | clr => exact ⟨_, clrLeavesTheResetState s⟩
  | ldw w => exact hi.ldw_answers w
  | lda a => exact hi.lda_answers a
  | build => exact hi.build_answers
  | stat r => exact stat_answers s r
  | enc1 a => exact hi.enc1_answers a
  | eopen => exact eopen_answers s
  | epush a => exact hi.epush_answers a
  | eend => exact eend_answers s
  | epull => exact epull_answers s
  | dopen => exact dopen_answers s
  | dpush b => exact hi.dpush_answers b
  | dend => exact dend_answers s
  | dpull => exact hi.dpull_answers
  | rdn k => exact hi.rdn_answers k
  | rdc c => exact hi.rdc_answers c

/-- Every request is answered, also one that does not decode (60_exceptions.md R293). -/
theorem BlockInv.command_answers {s : State} (hi : BlockInv s) (r : Request) : ∃ t, command r s = .next t := by
  cases hd : decode r with
  | error e => exact ⟨_, (command_of_decode_error hd s).trans ((raise_next ..).mpr rfl)⟩
  | ok i =>
    rw [command_of_decode_ok hd]
    exact hi.exec_answers i

/-- Settles O57: an idle step and a reset answer whatever the state is, and a request is answered because taking it from
the port keeps the invariant. -/
theorem everyStepAnswers : Obligations.EveryStepAnswers := by
  intro s hi
  cases hp : s.port.pending with
  | nil => exact ⟨s, step_of_idle hp⟩
  | cons e rest =>
    cases e with
    | reset abandoned => exact ⟨_, step_of_reset hp⟩
    | request r =>
      rw [step_of_request hp]
      exact (hi.withPending rest).command_answers r

/-! ## Runs -/

theorem run_succ_of_step {s t : State} (h : step s = .next t) (k : Nat) :
    Host.Core.run core (k + 1) s = Host.Core.run core k t := by
  have hcore : core.step s = .next t := h
  simp only [Host.Core.run, hcore]

/-- From a state of the invariant every run answers a state of the invariant. -/
theorem BlockInv.run_answers {s : State} (hi : BlockInv s) (k : Nat) :
    ∃ t : State, Host.Core.run core k s = .next t ∧ BlockInv t := by
  induction k generalizing s with
  | zero => exact ⟨s, rfl, hi⟩
  | succ k ih =>
    obtain ⟨u, hstep⟩ := everyStepAnswers s hi
    rw [run_succ_of_step hstep]
    exact ih (everyStepKeepsTheInvariant s u hi hstep)

/-- Settles O58: the state after reset meets the invariant whatever is pending, and so does the end of each run. -/
theorem noHostCanStopTheBlock : Obligations.NoHostCanStopTheBlock := by
  intro events
  have hreset : BlockInv (State.reset.withPending events) := invariantHoldsAtReset.withPending events
  refine ⟨fun k => ?_, fun k t hrun => ?_⟩
  · obtain ⟨t, hrun, -⟩ := hreset.run_answers k
    exact ⟨t, hrun⟩
  · obtain ⟨u, hrun', hinv⟩ := hreset.run_answers k
    obtain rfl := Host.Outcome.next.inj (hrun.symm.trans hrun')
    exact hinv

end Sys2Proof.Machine
